-- ==== Sys2Proof/Word.lean ====
section
/-! DEFINITION. The word, byte and register-number types of the CORE (00_scope.md R7, R9). -/

namespace Sys2Proof

/-- A register, the pc or a bus address: `XLEN` = 32 bits (R21, R24, R60). -/
abbrev Word := BitVec 32

/-- The addressable unit (R60). -/
abbrev Byte := BitVec 8

/-- A register index, a 5-bit field: every value names a register (R23, R101). -/
abbrev Reg := Fin 32

end Sys2Proof
end

