-- ==== Sys2Proof/Config.lean ====
section
/-! DEFINITION. The configuration record of 00_scope.md R7 and the clauses of R8. -/

namespace Sys2Proof

/-- The configuration record of R7, one field a parameter, as plain data: the two parameters that are functions of an
index are tables (log entry 20). `max_cycles` is an argument of `run`, not a field. -/
structure Config where
  xlen : Nat
  nregs : Nat
  ilen : Nat
  ramBase : Nat
  ramSize : Nat
  loadAddr : Nat
  ioBase : Nat
  ioSize : Nat
  gpioBase : Nat
  gpioSize : Nat
  /-- `GPIO_CTRL_OFF(p)` at index p -/
  gpioCtrlOff : List Nat
  numPins : Nat
  funcPwm : Nat
  funcDio : Nat
  funcNull : Nat
  pwmBase : Nat
  pwmSize : Nat
  numSlices : Nat
  /-- `PWM_CC_OFF(s)` at index s -/
  pwmCcOff : List Nat
  pwmEnOff : Nat
  /-- `PWM_WRAP`: stored nowhere, read by no rule (R263). -/
  pwmWrap : Nat
  timerBase : Nat
  timerSize : Nat
  timerRawhOff : Nat
  timerRawlOff : Nat
  ticksPerInstr : Nat
  deriving DecidableEq, Repr

/-- Every parameter at R7's default. A session is created with any record; the state right after reset, which takes no
argument, has this one (log entry 1). -/
def defaultConfig : Config where
  xlen := 32
  nregs := 32
  ilen := 32
  ramBase := 0x20000000
  ramSize := 0x00082000
  loadAddr := 0x20000000
  ioBase := 0x40000000
  ioSize := 0x10000000
  gpioBase := 0x40028000
  gpioSize := 0x1000
  gpioCtrlOff := (List.range 30).map (fun p => 0x004 + 8 * p)
  numPins := 30
  funcPwm := 4
  funcDio := 5
  funcNull := 31
  pwmBase := 0x400A8000
  pwmSize := 0x1000
  numSlices := 12
  pwmCcOff := (List.range 12).map (fun s => 0x0C + 0x14 * s)
  pwmEnOff := 0xF0
  pwmWrap := 0xFFFF
  timerBase := 0x400B0000
  timerSize := 0x1000
  timerRawhOff := 0x24
  timerRawlOff := 0x28
  ticksPerInstr := 1

/-- `GPIO_CTRL_OFF(p)`, read at pins below `NUM_PINS` only. -/
def Config.gpioOff (c : Config) (p : Nat) : Nat := c.gpioCtrlOff.getD p 0

/-- `PWM_CC_OFF(s)`, read at slices below `NUM_SLICES` only. -/
def Config.pwmOff (c : Config) (slice : Nat) : Nat := c.pwmCcOff.getD slice 0

/-- The function-select codes as the 5-bit values a pin stores (R7, R32). -/
def Config.pwmCode (c : Config) : BitVec 5 := BitVec.ofNat 5 c.funcPwm
def Config.dioCode (c : Config) : BitVec 5 := BitVec.ofNat 5 c.funcDio
def Config.nullCode (c : Config) : BitVec 5 := BitVec.ofNat 5 c.funcNull

/-- The first address after RAM, and after the I/O window. -/
def Config.ramEnd (c : Config) : Nat := c.ramBase + c.ramSize
def Config.ioEnd (c : Config) : Nat := c.ioBase + c.ioSize

/-- The clauses (a) to (h) of R8. -/
inductive ConfigClause where
  | regionsFit | regionsDisjoint | subWindows | offsets | loadAddrInRam | funcCodes | counts | widths
  deriving DecidableEq, Repr

/-- Two half-open ranges `[b, b + n)` share no address. -/
def rangesDisjoint (b n b' n' : Nat) : Bool := n == 0 || n' == 0 || b + n ≤ b' || b' + n' ≤ b

/-- `[b, b + n)` lies inside `[b', b' + n')`. -/
def rangeInside (b n b' n' : Nat) : Bool := n == 0 || b' ≤ b && b + n ≤ b' + n'

/-- The offsets of one sub-window's registers: multiples of 4, inside, pairwise different (R8 (d)). "Inside" is read as
"smaller than the size" (DEDUCED, log entry 3). -/
def offsetsOk (size : Nat) (offs : List Nat) : Bool :=
  offs.all (fun o => o % 4 == 0 && o < size) && decide offs.Nodup

/-- One clause of R8 on a configuration. -/
def ConfigClause.holds (c : Config) : ConfigClause → Bool
  | .regionsFit => c.ramBase + c.ramSize ≤ 2 ^ 32 && c.ioBase + c.ioSize ≤ 2 ^ 32
  | .regionsDisjoint => rangesDisjoint c.ramBase c.ramSize c.ioBase c.ioSize
  | .subWindows =>
    rangeInside c.gpioBase c.gpioSize c.ioBase c.ioSize && rangeInside c.pwmBase c.pwmSize c.ioBase c.ioSize &&
    rangeInside c.timerBase c.timerSize c.ioBase c.ioSize &&
    rangesDisjoint c.gpioBase c.gpioSize c.pwmBase c.pwmSize &&
    rangesDisjoint c.gpioBase c.gpioSize c.timerBase c.timerSize &&
    rangesDisjoint c.pwmBase c.pwmSize c.timerBase c.timerSize
  | .offsets =>
    c.gpioCtrlOff.length == c.numPins && c.pwmCcOff.length == c.numSlices &&
    offsetsOk c.gpioSize c.gpioCtrlOff && offsetsOk c.pwmSize (c.pwmEnOff :: c.pwmCcOff) &&
    offsetsOk c.timerSize [c.timerRawhOff, c.timerRawlOff]
  | .loadAddrInRam => c.ramBase ≤ c.loadAddr && c.loadAddr < c.ramBase + c.ramSize
  | .funcCodes =>
    c.funcPwm < 32 && c.funcDio < 32 && c.funcNull < 32 &&
    c.funcPwm != c.funcDio && c.funcPwm != c.funcNull && c.funcDio != c.funcNull
  | .counts => c.numSlices ≤ 32 && 2 ≤ c.numPins && 1 ≤ c.ticksPerInstr
  | .widths => c.xlen == 32 && c.nregs == 32 && c.ilen == 32

/-- All the clauses of R8, in its order. -/
def ConfigClause.all : List ConfigClause :=
  [.regionsFit, .regionsDisjoint, .subWindows, .offsets, .loadAddrInRam, .funcCodes, .counts, .widths]

/-- A configuration is refused by the name of the first clause of R8 it breaks, else admitted. -/
def Config.check (c : Config) : Except ConfigClause Config :=
  match ConfigClause.all.find? (fun k => !k.holds c) with
  | some k => .error k
  | none => .ok c

/-- A configuration is well-formed when all clauses of R8 hold. -/
def Config.wf (c : Config) : Bool := ConfigClause.all.all (fun k => k.holds c)

end Sys2Proof
end

