-- ==== Sys2Proof/Machine/State.lean ====
section
/-! DEFINITION. The state of one session as plain data (10_state.md R20 to R37), the state right after reset, and the
reasons a step of the model may stop. -/

namespace Sys2Proof.Machine

/-- Reasons a step stops with a fault of the MODEL. There is none: the three faults of R303 and the debug trap are
transitions of the machine to mode Faulted or Halted (R304 to R306, R240), and a step in those modes changes nothing
(R346), so each of them is a next state. Nobody raises a model fault; that is safe, since nothing is cut off. -/
inductive Fault where
  deriving DecidableEq, Repr

/-- Reasons a step has no meaning. -/
inductive Refusal where
  /-- An instruction without a meaning yet, by its mnemonic. Raised by an arm of `exec` only, and by none now. Safe. -/
  | notModelled (mnemonic : String)
  deriving DecidableEq, Repr

/-- The CPU's run state at an instruction boundary (R26). -/
inductive Mode where
  | running | halted | faulted
  deriving DecidableEq, Repr

/-- The two kinds of bus fault (R303 codes 1 and 2). -/
inductive BusFaultKind where
  | outOfBounds | unimplementedPeripheral
  deriving DecidableEq, Repr

/-- The closed set of faults the CPU can take (R303). -/
inductive FaultKind where
  | bus (kind : BusFaultKind)
  | decode
  deriving DecidableEq, Repr

/-- The fault record (R27). -/
structure FaultRecord where
  kind : FaultKind
  /-- the address of the faulting instruction -/
  pc : Word
  /-- the address of the access that failed, absent for a decode fault -/
  addr : Option Word
  /-- the instruction word, absent when the fetch itself faulted -/
  word : Option Word
  deriving DecidableEq, Repr

/-- RAM as address and byte pairs, addresses strictly rising, no byte equal to what an unlisted address reads as. -/
abbrev Memory := List Host.Cell

/-- What a RAM byte that no entry lists reads as: the reset contents outside the image (R37, R353). -/
def Memory.unlisted : Byte := 0x00#8

/-- The canonical form: the addresses rise strictly, and no listed byte is the unlisted one. -/
def Memory.wf (m : Memory) : Bool :=
  decide (m.Pairwise fun c d => c.1 < d.1) && m.all (fun c => c.2 != Memory.unlisted)

/-- The complete state of one session (R20), with the session's configuration record beside it: R20 counts the record as a
parameter and not as state, and no operation changes it; it stands here because exec and step take a State and nothing
else (log entry 20). The tables have one entry a pin or a slice of that record (Safety: `State.Shaped`). -/
structure State where
  /-- the configuration the session was created with (R7) -/
  config : Config
  /-- `x[1]` .. `x[31]`, `x[1]` first; `x[0]` holds no state (R20, R21) -/
  regs : Vector Word 31
  /-- the program counter (R24) -/
  pc : Word
  mode : Mode
  /-- present in mode Faulted only (R27) -/
  fault : Option FaultRecord
  /-- the code/data region, keyed by absolute address (R31) -/
  ram : Memory
  /-- `gpio_func[p]` at index p (R32) -/
  gpioFunc : List (BitVec 5)
  /-- `pwm_level_a[s]` at index s (R33) -/
  pwmLevelA : List (BitVec 16)
  /-- `pwm_level_b[s]` at index s (R33) -/
  pwmLevelB : List (BitVec 16)
  /-- `pwm_enabled[s]` at index s (R33) -/
  pwmEnabled : List Bool
  /-- the timer counter (R34) -/
  timer : BitVec 64
  /-- steps taken by the current `run` call, host-side (R35, R348); 0 outside a `run` call (log entry 5) -/
  cycles : Nat
  deriving DecidableEq, Repr

/-- The reset table R37 for a configuration, an entry address and the contents of RAM. -/
def State.atReset (c : Config) (entry : Word) (ram : Memory) : State where
  config := c
  regs := Vector.replicate 31 0#32
  pc := entry
  mode := .running
  fault := none
  ram := ram
  gpioFunc := List.replicate c.numPins c.nullCode
  pwmLevelA := List.replicate c.numSlices 0#16
  pwmLevelB := List.replicate c.numSlices 0#16
  pwmEnabled := List.replicate c.numSlices false
  timer := 0#64
  cycles := 0

/-- The machine right after reset: R37 at the default configuration, with an empty image and the entry at `LOAD_ADDR`
(DESIGN CHOICE, log entry 1: the record, the image and the entry address are given when a session is created, R7, R340). -/
def State.reset : State := State.atReset defaultConfig (BitVec.ofNat 32 defaultConfig.loadAddr) []

end Sys2Proof.Machine
end

