-- ==== Sys2Proof/Machine/Memory.lean ====
section
/-! DEFINITION. RAM: one byte read and written in the canonical form, and the three access widths in little-endian
order, decided here once (20_memory.md R64 to R67). Addresses are absolute; the bus has admitted them before. -/

namespace Sys2Proof.Machine

/-- The widths of an access (R63, R71). -/
inductive Width where
  | byte | half | word
  deriving DecidableEq, Repr

/-- The number n of bytes. -/
def Width.bytes : Width → Nat
  | .byte => 1
  | .half => 2
  | .word => 4

/-- `RAM[a]`. -/
def Memory.read : Memory → Nat → Byte
  | [], _ => Memory.unlisted
  | (k, b) :: rest, a => if k = a then b else Memory.read rest a

/-- The memory without an entry for `a`. -/
def Memory.erase (m : Memory) (a : Nat) : Memory := m.filter (fun c => c.1 != a)

/-- An entry put before the first one of a higher address. -/
def Memory.insert : Memory → Nat → Byte → Memory
  | [], a, b => [(a, b)]
  | (k, v) :: rest, a, b => if a < k then (a, b) :: (k, v) :: rest else (k, v) :: Memory.insert rest a b

/-- `RAM[a] <- b`. Writing the unlisted byte leaves no entry. -/
def Memory.write (m : Memory) (a : Nat) (b : Byte) : Memory :=
  if b = Memory.unlisted then m.erase a else (m.erase a).insert a b

/-- The unsigned value of the n bytes at `a`, the byte at `a` least significant (R64, R66). -/
def Memory.readWidth (m : Memory) (a : Nat) : Width → Word
  | .byte => (m.read a).setWidth 32
  | .half => (m.read (a + 1) ++ m.read a).setWidth 32
  | .word => m.read (a + 3) ++ m.read (a + 2) ++ m.read (a + 1) ++ m.read a

/-- `RAM[a+i] <- v[8i+7:8i]` for i below n (R65, R66). -/
def Memory.writeWidth (m : Memory) (a : Nat) (v : Word) : Width → Memory
  | .byte => m.write a (v.extractLsb' 0 8)
  | .half => (m.write a (v.extractLsb' 0 8)).write (a + 1) (v.extractLsb' 8 8)
  | .word =>
    (((m.write a (v.extractLsb' 0 8)).write (a + 1) (v.extractLsb' 8 8)).write (a + 2) (v.extractLsb' 16 8)).write
      (a + 3) (v.extractLsb' 24 8)

/-- The bytes of an image at consecutive addresses from `a` up (R340). -/
def Memory.ofImage (a : Nat) : List Byte → Memory
  | [] => []
  | b :: rest =>
    if b = Memory.unlisted then Memory.ofImage (a + 1) rest else (a, b) :: Memory.ofImage (a + 1) rest

end Sys2Proof.Machine
end

