-- ==== Sys2Proof/Machine/Peripherals.lean ====
section
/-! DEFINITION. The Peripheral Bank (50_peripherals.md): which address is which register, and what a read and a write of
each does. -/

namespace Sys2Proof.Machine

/-- The registers of the I/O window (R253, R260, R269); the pin and the slice are below `NUM_PINS` and `NUM_SLICES`. -/
inductive IoReg where
  /-- `GPIOp_CTRL` -/
  | gpioCtrl (p : Nat)
  /-- `CHs_CC` -/
  | pwmCc (slice : Nat)
  /-- `EN` -/
  | pwmEn
  /-- `TIMERAWH` -/
  | timeRawH
  /-- `TIMERAWL` -/
  | timeRawL
  deriving DecidableEq, Repr

/-- The three sub-windows (R250). -/
inductive SubWindow where
  | gpio | pwm | timer
  deriving DecidableEq, Repr

/-- The sub-window that holds an address (R68 step 2). -/
def subWindowOf (c : Config) (a : Nat) : Option SubWindow :=
  if c.gpioBase ≤ a ∧ a < c.gpioBase + c.gpioSize then some .gpio
  else if c.pwmBase ≤ a ∧ a < c.pwmBase + c.pwmSize then some .pwm
  else if c.timerBase ≤ a ∧ a < c.timerBase + c.timerSize then some .timer
  else none

/-- The pin whose function-select register is at this offset of the GPIO sub-window (R253). -/
def pinAt (c : Config) (off : Nat) : Option Nat :=
  (List.range c.numPins).find? (fun p => c.gpioOff p == off)

/-- The slice whose level register is at this offset of the PWM sub-window (R260). -/
def sliceAt (c : Config) (off : Nat) : Option Nat :=
  (List.range c.numSlices).find? (fun s => c.pwmOff s == off)

/-- The register at an address of the I/O window, none where the address is unmapped (R68 step 3, R252). -/
def ioRegAt (c : Config) (a : Nat) : Option IoReg :=
  match subWindowOf c a with
  | some .gpio => (pinAt c (a - c.gpioBase)).map .gpioCtrl
  | some .pwm =>
    if a - c.pwmBase = c.pwmEnOff then some .pwmEn
    else (sliceAt c (a - c.pwmBase)).map .pwmCc
  | some .timer =>
    if a - c.timerBase = c.timerRawhOff then some .timeRawH
    else if a - c.timerBase = c.timerRawlOff then some .timeRawL
    else none
  | none => none

/-- The register an access reaches: only an aligned 4-byte access reaches one (R68 step 1). -/
def ioRegister (c : Config) (a : Nat) (w : Width) : Option IoReg :=
  if w = .word ∧ a % 4 = 0 then ioRegAt c a else none

/-! ### GPIO (R253 to R257) -/

/-- The codes a pin can store (R32, R253). -/
def legalFunc (c : Config) (f : BitVec 5) : Bool := f == c.pwmCode || f == c.dioCode || f == c.nullCode

/-- `gpio_func[p]` (R32), read at pins of the configuration only. -/
def State.pinFunc (s : State) (p : Nat) : BitVec 5 := s.gpioFunc.getD p s.config.nullCode

/-- The document's three function modes as views of a code (R32); none for a code no write can store. -/
inductive PinMode where
  | pwm | digitalIO | unassigned
  deriving DecidableEq, Repr

def pinModeOf (c : Config) (f : BitVec 5) : Option PinMode :=
  if f = c.pwmCode then some .pwm
  else if f = c.dioCode then some .digitalIO
  else if f = c.nullCode then some .unassigned
  else none

/-- A write of `GPIOp_CTRL`; none is the refusal of R255. -/
def gpioWrite (s : State) (p : Nat) (v : Word) : Option State :=
  if v.extractLsb' 5 27 = 0#27 ∧ legalFunc s.config (v.extractLsb' 0 5) then
    some { s with gpioFunc := s.gpioFunc.set p (v.extractLsb' 0 5) }
  else none

/-! ### PWM (R260 to R268) -/

/-- The two channels of a slice (R261). -/
inductive Channel where
  | A | B
  deriving DecidableEq, Repr

/-- `slice_of(p) = (p >> 1) AND 7` (R261). -/
def sliceOf (p : Nat) : Nat := (p >>> 1) &&& 7

/-- `channel_of(p)` (R261). -/
def channelOf (p : Nat) : Channel := if p % 2 = 0 then .A else .B

/-- `pwm_level_a[s]`, `pwm_level_b[s]` and `pwm_enabled[s]` (R33), read at slices of the configuration only. -/
def State.levelA (s : State) (slice : Nat) : BitVec 16 := s.pwmLevelA.getD slice 0#16
def State.levelB (s : State) (slice : Nat) : BitVec 16 := s.pwmLevelB.getD slice 0#16
def State.sliceEnabled (s : State) (slice : Nat) : Bool := s.pwmEnabled.getD slice false

/-- `pwm_available(s)`: some pin of the slice has the PWM function now (R262). -/
def pwmAvailable (s : State) (slice : Nat) : Bool :=
  (List.range s.config.numPins).any (fun p => sliceOf p == slice && s.pinFunc p == s.config.pwmCode)

/-- A write of `CHs_CC`; none is the refusal of R264. -/
def levelWrite (s : State) (slice : Nat) (v : Word) : Option State :=
  if pwmAvailable s slice then
    some { s with
      pwmLevelA := s.pwmLevelA.set slice (v.extractLsb' 0 16)
      pwmLevelB := s.pwmLevelB.set slice (v.extractLsb' 16 16) }
  else none

/-- A write of `EN`: every slice's flag from its bit, at once; the upper bits are ignored (R266). -/
def enableWrite (s : State) (v : Word) : State :=
  { s with pwmEnabled := (List.range s.config.numSlices).map (fun i => v.getLsbD i) }

/-- A read of `EN`: bit s is the flag of slice s, the other bits are zero (R267). -/
def enableRead (s : State) : Word := (BitVec.ofBoolListLE s.pwmEnabled).setWidth 32

/-- The observable "configured slice is enabled" (R266). -/
def sliceEnabledAndConfigured (s : State) (slice : Nat) : Bool :=
  s.sliceEnabled slice && pwmAvailable s slice

/-! ### The register read and write of the bank (R68 step 3) -/

/-- A register read; no read is refused and none changes state (R256, R265, R267, R270). -/
def ioRead (s : State) : IoReg → Word
  | .gpioCtrl p => (s.pinFunc p).setWidth 32
  | .pwmCc slice => s.levelB slice ++ s.levelA slice
  | .pwmEn => enableRead s
  | .timeRawH => s.timer.extractLsb' 32 32
  | .timeRawL => s.timer.extractLsb' 0 32

/-- A register write; none is a refusal, which changes nothing (R251, R255, R264, R272). -/
def ioWrite (s : State) : IoReg → Word → Option State
  | .gpioCtrl p, v => gpioWrite s p v
  | .pwmCc slice, v => levelWrite s slice v
  | .pwmEn, v => some (enableWrite s v)
  | .timeRawH, _ => none
  | .timeRawL, _ => none

/-! ### The timer's wait operation (R271) -/

/-- `TimerWaitUntil(target)`, a host operation: no instruction and no bus address invokes it. -/
def timerWaitUntil (s : State) (target : BitVec 64) : State :=
  if s.timer < target then { s with timer := target } else s

end Sys2Proof.Machine
end

