-- ==== Sys2Proof/Machine/Bus.lean ====
section
/-! DEFINITION. The Memory Bus (20_memory.md): regions, admission, `MemRead`, `MemWrite` and the instruction fetch. -/

namespace Sys2Proof.Machine

/-- The two mapped regions (R61). -/
inductive Region where
  | ram | io
  deriving DecidableEq, Repr

/-- A bus fault with the address passed to the access (R12, R63, R68). -/
structure BusFault where
  kind : BusFaultKind
  addr : Word
  deriving DecidableEq, Repr

/-- `region(a)` (R61). -/
def regionOf (c : Config) (a : Nat) : Option Region :=
  if c.ramBase ≤ a ∧ a < c.ramEnd then some .ram
  else if c.ioBase ≤ a ∧ a < c.ioEnd then some .io
  else none

/-- The first address after a region (R63). -/
def Region.last (c : Config) : Region → Nat
  | .ram => c.ramEnd
  | .io => c.ioEnd

/-- Admission of an access of the width's n bytes at `a`: the whole access lies in the region of its first byte,
computed without wrapping (R63). -/
def admission (c : Config) (a : Word) (w : Width) : Except BusFault Region :=
  match regionOf c a.toNat with
  | none => .error ⟨.outOfBounds, a⟩
  | some r => if a.toNat + w.bytes > r.last c then .error ⟨.outOfBounds, a⟩ else .ok r

/-- `MemRead(a, n)` (R64), the unsigned value in a 32-bit word. It changes no state. -/
def memRead (s : State) (a : Word) (w : Width) : Except BusFault Word :=
  match admission s.config a w with
  | .error e => .error e
  | .ok .ram => .ok (s.ram.readWidth a.toNat w)
  | .ok .io =>
    match ioRegister s.config a.toNat w with
    | some r => .ok (ioRead s r)
    | none => .error ⟨.unimplementedPeripheral, a⟩

/-- `MemWrite(a, n, v)` (R65): only the low 8n bits of `v` are used, and a refused write changes nothing. -/
def memWrite (s : State) (a : Word) (w : Width) (v : Word) : Except BusFault State :=
  match admission s.config a w with
  | .error e => .error e
  | .ok .ram => .ok { s with ram := s.ram.writeWidth a.toNat v w }
  | .ok .io =>
    match ioRegister s.config a.toNat w with
    | none => .error ⟨.unimplementedPeripheral, a⟩
    | some r =>
      match ioWrite s r v with
      | some t => .ok t
      | none => .error ⟨.unimplementedPeripheral, a⟩

/-- The fetched word: an ordinary 4-byte bus read at the pc, with no alignment requirement (R70). -/
def fetch (s : State) : Except BusFault Word := memRead s s.pc .word

/-- Where a word placed for the next fetch stands: at the pc when its four bytes are RAM, else at `LOAD_ADDR`
(log entry 4). -/
def fetchSlot (c : Config) (pc : Word) : Word :=
  match admission c pc .word with
  | .ok .ram => pc
  | _ => BitVec.ofNat 32 c.loadAddr

end Sys2Proof.Machine
end

