-- ==== Sys2Proof/Machine/Flags.lean ====
section
/-! DEFINITION. The machine has no status flags (10_state.md R29): a comparison writes 0 or 1 to a register (SLT
family) or decides a branch. These are the comparisons, exact in the integers (R163, R154). -/

namespace Sys2Proof.Machine

/-- `s(a) < s(b)` -/
def lessSigned (a b : Word) : Bool := a.toInt < b.toInt

/-- `u(a) < u(b)` -/
def lessUnsigned (a b : Word) : Bool := a.toNat < b.toNat

/-- A 32-bit 1 or 0 (R143). -/
def flagWord (c : Bool) : Word := if c then 1#32 else 0#32

end Sys2Proof.Machine
end

