-- ==== Sys2Proof/Machine/Operands.lean ====
section
/-! DEFINITION. Operand forms: extensions (00_scope.md R10), immediates as 32-bit values (30_encoding.md R103), shift
amounts (40_integer_arithmetic.md R163) and the effective address (43_load_store.md R228). -/

namespace Sys2Proof.Machine

/-- `sext_32` of an N-bit value (R10). -/
def sext {n : Nat} (v : BitVec n) : Word := v.signExtend 32

/-- `zext_32` of an N-bit value (R10). -/
def zext {n : Nat} (v : BitVec n) : Word := v.setWidth 32

/-- `imm_U`: the 20 bits in bits 31:12, low 12 bits zero (R103). -/
def upperImm (imm : BitVec 20) : Word := imm ++ 0#12

/-- The shift amount a register gives: its bits 4:0 (R163). -/
def shiftAmount (v : Word) : Nat := (v.extractLsb' 0 5).toNat

/-- The effective address `x[rs1] + imm`, modulo 2^32 (R228). -/
def effectiveAddress (base : Word) (imm : BitVec 12) : Word := base + sext imm

/-- `sext_32` of the low byte of a read (R220). -/
def sextByte (v : Word) : Word := sext (v.extractLsb' 0 8)

/-- `sext_32` of the low halfword of a read (R221). -/
def sextHalf (v : Word) : Word := sext (v.extractLsb' 0 16)

/-- Bits 63:32 of an integer, `floor(P / 2^32) mod 2^32` (R189). -/
def highWord (p : Int) : Word := BitVec.ofInt 32 (p / 2 ^ 32)

/-- The low 32 bits of an integer. -/
def lowWord (p : Int) : Word := BitVec.ofInt 32 p

end Sys2Proof.Machine
end

