-- ==== Sys2Proof/Machine/Ops.lean ====
section
/-! DEFINITION. The named operations the meanings share: registers, the end of an instruction, entry to Faulted and to
Halted, and the shapes of an instruction's effect. -/

namespace Sys2Proof.Machine

/-! ### General registers (10_state.md R21, R22) -/

/-- A read of `x[r]`; `x[0]` yields 0. -/
def State.readReg (s : State) (r : Reg) : Word :=
  if h : r.val = 0 then 0#32 else s.regs[r.val - 1]'(by omega)

/-- `x[r] <- v`; a write of `x[0]` changes no state. -/
def State.writeReg (s : State) (r : Reg) (v : Word) : State :=
  if h : r.val = 0 then s else { s with regs := s.regs.set (r.val - 1) v (by omega) }

/-! ### The end of an instruction (60_exceptions.md R301) -/

/-- A completed instruction: the pc is set and the timer ticks, after every read the instruction made. -/
def State.complete (s : State) (nextPc : Word) : State :=
  { s with pc := nextPc, timer := s.timer + BitVec.ofNat 64 s.config.ticksPerInstr }

/-- The sequential next pc, modulo 2^32 (R25). -/
def State.pcPlus4 (s : State) : Word := s.pc + 4#32

/-! ### Taking a fault, and the halt (60_exceptions.md R304 to R306; 44_system.md R240)

There is no return from either (R311), so no operation undoes them. -/

/-- The numeric code of a fault kind, for reporting only (R303). -/
def faultCode : FaultKind → Nat
  | .bus .outOfBounds => 1
  | .bus .unimplementedPeripheral => 2
  | .decode => 3

/-- Entry to Faulted: the mode and the record, nothing else. The pc stays at the faulting instruction and the timer
does not tick. -/
def State.enterFaulted (s : State) (kind : FaultKind) (addr word : Option Word) : State :=
  { s with mode := .faulted, fault := some { kind := kind, pc := s.pc, addr := addr, word := word } }

/-- Entry to Faulted from Fetch (R304). -/
def State.fetchFault (s : State) (e : BusFault) : State :=
  s.enterFaulted (.bus e.kind) (some e.addr) none

/-- Entry to Faulted from Decode (R306). -/
def State.decodeFault (s : State) (w : Word) : State :=
  s.enterFaulted .decode none (some w)

/-- Entry to Faulted from Execute (R305). The recorded word is the instruction's own: decoding is one to one, so it is
the word `encode` gives (DEDUCED, log entry 6). -/
def State.executeFault (s : State) (e : BusFault) (i : Instr) : State :=
  s.enterFaulted (.bus e.kind) (some e.addr) (some (encode i))

/-- The debug trap: `mode <- Halted` and nothing else (R240). -/
def State.halt (s : State) : State := { s with mode := .halted }

/-! ### The shapes of an instruction's effect -/

/-- `x[rd] <- v`, then the sequential end. -/
def writeAndAdvance (rd : Reg) (v : Word) (s : State) : Host.Outcome State Fault Refusal :=
  .next ((s.writeReg rd v).complete s.pcPlus4)

/-- `x[rd] <- pc + 4; pc <- target` (R200, R201). -/
def linkAndJump (rd : Reg) (target : Word) (s : State) : Host.Outcome State Fault Refusal :=
  .next ((s.writeReg rd s.pcPlus4).complete target)

/-- `if taken: pc <- pc + imm_B else pc <- pc + 4` (42_control_transfer.md section 3). -/
def branchIf (taken : Bool) (offset : BitVec 13) (s : State) : Host.Outcome State Fault Refusal :=
  .next (s.complete (if taken then s.pc + sext offset else s.pcPlus4))

/-- A load: one bus read at `ea`, its value extended and written to `rd`; a refused read is the fault of R229. -/
def loadFrom (i : Instr) (rd : Reg) (ea : Word) (w : Width) (extend : Word → Word) (s : State) :
    Host.Outcome State Fault Refusal :=
  match memRead s ea w with
  | .ok v => writeAndAdvance rd (extend v) s
  | .error e => .next (s.executeFault e i)

/-- A store: one bus write at `ea`; a refused write is the fault of R229. -/
def storeTo (i : Instr) (ea : Word) (w : Width) (v : Word) (s : State) : Host.Outcome State Fault Refusal :=
  match memWrite s ea w v with
  | .ok t => .next (t.complete s.pcPlus4)
  | .error e => .next (s.executeFault e i)

end Sys2Proof.Machine
end

