-- ==== Sys2Proof/Machine/Arith.lean ====
section
/-! DEFINITION. Integer arithmetic: LUI, AUIPC, OP-IMM and OP (40_integer_arithmetic.md R140 to R163). Sources are read before
`rd` is written (R162); results are modulo 2^32 (R161); nothing here touches memory or faults. -/

namespace Sys2Proof.Machine

/-- LUI (R140). -/
def execLui (rd : Reg) (imm : BitVec 20) (s : State) : Host.Outcome State Fault Refusal :=
  writeAndAdvance rd (upperImm imm) s

/-- AUIPC (R141): `pc` is the address of the AUIPC itself. -/
def execAuipc (rd : Reg) (imm : BitVec 20) (s : State) : Host.Outcome State Fault Refusal :=
  writeAndAdvance rd (s.pc + upperImm imm) s

/-! ### OP-IMM: the immediate is sign-extended first, for every one of them (R163) -/

/-- ADDI (R142). -/
def execAddi (rd rs1 : Reg) (imm : BitVec 12) (s : State) : Host.Outcome State Fault Refusal :=
  writeAndAdvance rd (s.readReg rs1 + sext imm) s

/-- SLTI (R143). -/
def execSlti (rd rs1 : Reg) (imm : BitVec 12) (s : State) : Host.Outcome State Fault Refusal :=
  writeAndAdvance rd (flagWord (lessSigned (s.readReg rs1) (sext imm))) s

/-- SLTIU (R144): the sign-extended immediate is read as unsigned. -/
def execSltiu (rd rs1 : Reg) (imm : BitVec 12) (s : State) : Host.Outcome State Fault Refusal :=
  writeAndAdvance rd (flagWord (lessUnsigned (s.readReg rs1) (sext imm))) s

/-- XORI (R145). -/
def execXori (rd rs1 : Reg) (imm : BitVec 12) (s : State) : Host.Outcome State Fault Refusal :=
  writeAndAdvance rd (s.readReg rs1 ^^^ sext imm) s

/-- ORI (R146). -/
def execOri (rd rs1 : Reg) (imm : BitVec 12) (s : State) : Host.Outcome State Fault Refusal :=
  writeAndAdvance rd (s.readReg rs1 ||| sext imm) s

/-- ANDI (R147). -/
def execAndi (rd rs1 : Reg) (imm : BitVec 12) (s : State) : Host.Outcome State Fault Refusal :=
  writeAndAdvance rd (s.readReg rs1 &&& sext imm) s

/-- SLLI (R148). -/
def execSlli (rd rs1 : Reg) (shamt : BitVec 5) (s : State) : Host.Outcome State Fault Refusal :=
  writeAndAdvance rd (s.readReg rs1 <<< shamt.toNat) s

/-- SRLI (R149). -/
def execSrli (rd rs1 : Reg) (shamt : BitVec 5) (s : State) : Host.Outcome State Fault Refusal :=
  writeAndAdvance rd (s.readReg rs1 >>> shamt.toNat) s

/-- SRAI (R150). -/
def execSrai (rd rs1 : Reg) (shamt : BitVec 5) (s : State) : Host.Outcome State Fault Refusal :=
  writeAndAdvance rd ((s.readReg rs1).sshiftRight shamt.toNat) s

/-! ### OP -/

/-- ADD (R151). -/
def execAdd (rd rs1 rs2 : Reg) (s : State) : Host.Outcome State Fault Refusal :=
  writeAndAdvance rd (s.readReg rs1 + s.readReg rs2) s

/-- SUB (R152). -/
def execSub (rd rs1 rs2 : Reg) (s : State) : Host.Outcome State Fault Refusal :=
  writeAndAdvance rd (s.readReg rs1 - s.readReg rs2) s

/-- SLL (R153). -/
def execSll (rd rs1 rs2 : Reg) (s : State) : Host.Outcome State Fault Refusal :=
  writeAndAdvance rd (s.readReg rs1 <<< shiftAmount (s.readReg rs2)) s

/-- SLT (R154). -/
def execSlt (rd rs1 rs2 : Reg) (s : State) : Host.Outcome State Fault Refusal :=
  writeAndAdvance rd (flagWord (lessSigned (s.readReg rs1) (s.readReg rs2))) s

/-- SLTU (R155). -/
def execSltu (rd rs1 rs2 : Reg) (s : State) : Host.Outcome State Fault Refusal :=
  writeAndAdvance rd (flagWord (lessUnsigned (s.readReg rs1) (s.readReg rs2))) s

/-- XOR (R156). -/
def execXor (rd rs1 rs2 : Reg) (s : State) : Host.Outcome State Fault Refusal :=
  writeAndAdvance rd (s.readReg rs1 ^^^ s.readReg rs2) s

/-- SRL (R157). -/
def execSrl (rd rs1 rs2 : Reg) (s : State) : Host.Outcome State Fault Refusal :=
  writeAndAdvance rd (s.readReg rs1 >>> shiftAmount (s.readReg rs2)) s

/-- SRA (R158). -/
def execSra (rd rs1 rs2 : Reg) (s : State) : Host.Outcome State Fault Refusal :=
  writeAndAdvance rd ((s.readReg rs1).sshiftRight (shiftAmount (s.readReg rs2))) s

/-- OR (R159). -/
def execOr (rd rs1 rs2 : Reg) (s : State) : Host.Outcome State Fault Refusal :=
  writeAndAdvance rd (s.readReg rs1 ||| s.readReg rs2) s

/-- AND (R160). -/
def execAnd (rd rs1 rs2 : Reg) (s : State) : Host.Outcome State Fault Refusal :=
  writeAndAdvance rd (s.readReg rs1 &&& s.readReg rs2) s

end Sys2Proof.Machine
end

