-- ==== Sys2Proof/Machine/Control.lean ====
section
/-! DEFINITION. Control transfer (42_control_transfer.md R200 to R210). No target is checked for alignment (R208), and there is no
delay slot (R209). -/

namespace Sys2Proof.Machine

/-- `t AND 0xFFFF_FFFE`: bit 0 cleared (R201). -/
def clearBit0 (t : Word) : Word := t &&& 0xFFFFFFFE#32

/-- JAL (R200). -/
def execJal (rd : Reg) (offset : BitVec 21) (s : State) : Host.Outcome State Fault Refusal :=
  linkAndJump rd (s.pc + sext offset) s

/-- JALR (R201): the target uses the old `x[rs1]`. -/
def execJalr (rd rs1 : Reg) (imm : BitVec 12) (s : State) : Host.Outcome State Fault Refusal :=
  linkAndJump rd (clearBit0 (s.readReg rs1 + sext imm)) s

/-- BEQ (R202). -/
def execBeq (rs1 rs2 : Reg) (offset : BitVec 13) (s : State) : Host.Outcome State Fault Refusal :=
  branchIf (s.readReg rs1 == s.readReg rs2) offset s

/-- BNE (R203). -/
def execBne (rs1 rs2 : Reg) (offset : BitVec 13) (s : State) : Host.Outcome State Fault Refusal :=
  branchIf (s.readReg rs1 != s.readReg rs2) offset s

/-- BLT (R204). -/
def execBlt (rs1 rs2 : Reg) (offset : BitVec 13) (s : State) : Host.Outcome State Fault Refusal :=
  branchIf (lessSigned (s.readReg rs1) (s.readReg rs2)) offset s

/-- BGE (R205). -/
def execBge (rs1 rs2 : Reg) (offset : BitVec 13) (s : State) : Host.Outcome State Fault Refusal :=
  branchIf (!lessSigned (s.readReg rs1) (s.readReg rs2)) offset s

/-- BLTU (R206). -/
def execBltu (rs1 rs2 : Reg) (offset : BitVec 13) (s : State) : Host.Outcome State Fault Refusal :=
  branchIf (lessUnsigned (s.readReg rs1) (s.readReg rs2)) offset s

/-- BGEU (R207). -/
def execBgeu (rs1 rs2 : Reg) (offset : BitVec 13) (s : State) : Host.Outcome State Fault Refusal :=
  branchIf (!lessUnsigned (s.readReg rs1) (s.readReg rs2)) offset s

end Sys2Proof.Machine
end

