-- ==== Sys2Proof/Machine/LoadStore.lean ====
section
/-! DEFINITION. Loads and stores (43_load_store.md R220 to R230): one bus access each, at base plus sign-extended offset (R228);
a refused access is the precise fault of R229, whatever `rd` is. -/

namespace Sys2Proof.Machine

/-- LB (R220). -/
def execLb (rd rs1 : Reg) (imm : BitVec 12) (s : State) : Host.Outcome State Fault Refusal :=
  loadFrom (.lb rd rs1 imm) rd (effectiveAddress (s.readReg rs1) imm) .byte sextByte s

/-- LH (R221). -/
def execLh (rd rs1 : Reg) (imm : BitVec 12) (s : State) : Host.Outcome State Fault Refusal :=
  loadFrom (.lh rd rs1 imm) rd (effectiveAddress (s.readReg rs1) imm) .half sextHalf s

/-- LW (R222). -/
def execLw (rd rs1 : Reg) (imm : BitVec 12) (s : State) : Host.Outcome State Fault Refusal :=
  loadFrom (.lw rd rs1 imm) rd (effectiveAddress (s.readReg rs1) imm) .word id s

/-- LBU (R223): a narrow read is already zero-extended. -/
def execLbu (rd rs1 : Reg) (imm : BitVec 12) (s : State) : Host.Outcome State Fault Refusal :=
  loadFrom (.lbu rd rs1 imm) rd (effectiveAddress (s.readReg rs1) imm) .byte id s

/-- LHU (R224): a narrow read is already zero-extended. -/
def execLhu (rd rs1 : Reg) (imm : BitVec 12) (s : State) : Host.Outcome State Fault Refusal :=
  loadFrom (.lhu rd rs1 imm) rd (effectiveAddress (s.readReg rs1) imm) .half id s

/-- SB (R225). -/
def execSb (rs2 rs1 : Reg) (imm : BitVec 12) (s : State) : Host.Outcome State Fault Refusal :=
  storeTo (.sb rs2 rs1 imm) (effectiveAddress (s.readReg rs1) imm) .byte (s.readReg rs2) s

/-- SH (R226). -/
def execSh (rs2 rs1 : Reg) (imm : BitVec 12) (s : State) : Host.Outcome State Fault Refusal :=
  storeTo (.sh rs2 rs1 imm) (effectiveAddress (s.readReg rs1) imm) .half (s.readReg rs2) s

/-- SW (R227). -/
def execSw (rs2 rs1 : Reg) (imm : BitVec 12) (s : State) : Host.Outcome State Fault Refusal :=
  storeTo (.sw rs2 rs1 imm) (effectiveAddress (s.readReg rs1) imm) .word (s.readReg rs2) s

end Sys2Proof.Machine
end

