-- ==== Sys2Proof/Machine/MulDiv.lean ====
section
/-! DEFINITION. Multiply and divide (41_multiply_divide.md R180 to R190), computed in the integers and narrowed at the end. None
faults (R188). -/

namespace Sys2Proof.Machine

/-- The quotient DIV writes (R184): truncated toward zero, with the two defined corner results. -/
def divSigned (a b : Word) : Word :=
  if b = 0#32 then 0xFFFFFFFF#32
  else if a = 0x80000000#32 ∧ b = 0xFFFFFFFF#32 then 0x80000000#32
  else lowWord (a.toInt.tdiv b.toInt)

/-- The quotient DIVU writes (R185). -/
def divUnsigned (a b : Word) : Word :=
  if b = 0#32 then 0xFFFFFFFF#32 else BitVec.ofNat 32 (a.toNat / b.toNat)

/-- The remainder REM writes (R186). -/
def remSigned (a b : Word) : Word :=
  if b = 0#32 then a
  else if a = 0x80000000#32 ∧ b = 0xFFFFFFFF#32 then 0#32
  else lowWord (a.toInt - a.toInt.tdiv b.toInt * b.toInt)

/-- The remainder REMU writes (R187). -/
def remUnsigned (a b : Word) : Word :=
  if b = 0#32 then a else BitVec.ofNat 32 (a.toNat % b.toNat)

/-- MUL (R180). -/
def execMul (rd rs1 rs2 : Reg) (s : State) : Host.Outcome State Fault Refusal :=
  writeAndAdvance rd (s.readReg rs1 * s.readReg rs2) s

/-- MULH (R181): signed by signed. -/
def execMulh (rd rs1 rs2 : Reg) (s : State) : Host.Outcome State Fault Refusal :=
  writeAndAdvance rd (highWord ((s.readReg rs1).toInt * (s.readReg rs2).toInt)) s

/-- MULHSU (R182): signed `rs1` by unsigned `rs2`. -/
def execMulhsu (rd rs1 rs2 : Reg) (s : State) : Host.Outcome State Fault Refusal :=
  writeAndAdvance rd (highWord ((s.readReg rs1).toInt * ((s.readReg rs2).toNat : Int))) s

/-- MULHU (R183): unsigned by unsigned. -/
def execMulhu (rd rs1 rs2 : Reg) (s : State) : Host.Outcome State Fault Refusal :=
  writeAndAdvance rd (highWord (((s.readReg rs1).toNat : Int) * ((s.readReg rs2).toNat : Int))) s

/-- DIV (R184). -/
def execDiv (rd rs1 rs2 : Reg) (s : State) : Host.Outcome State Fault Refusal :=
  writeAndAdvance rd (divSigned (s.readReg rs1) (s.readReg rs2)) s

/-- DIVU (R185). -/
def execDivu (rd rs1 rs2 : Reg) (s : State) : Host.Outcome State Fault Refusal :=
  writeAndAdvance rd (divUnsigned (s.readReg rs1) (s.readReg rs2)) s

/-- REM (R186). -/
def execRem (rd rs1 rs2 : Reg) (s : State) : Host.Outcome State Fault Refusal :=
  writeAndAdvance rd (remSigned (s.readReg rs1) (s.readReg rs2)) s

/-- REMU (R187). -/
def execRemu (rd rs1 rs2 : Reg) (s : State) : Host.Outcome State Fault Refusal :=
  writeAndAdvance rd (remUnsigned (s.readReg rs1) (s.readReg rs2)) s

end Sys2Proof.Machine
end

