-- ==== Sys2Proof/Machine/System.lean ====
section
/-! DEFINITION. The one system instruction, EBREAK (44_system.md R240 to R243). -/

namespace Sys2Proof.Machine

/-- EBREAK, the debug trap: the halt and nothing else; the pc stays at the EBREAK and the timer does not tick (R240). -/
def execEbreak (s : State) : Host.Outcome State Fault Refusal :=
  .next s.halt

end Sys2Proof.Machine
end

