-- ==== Sys2Proof/Machine/Step.lean ====
section
/-! DEFINITION. One step of the CPU Core (60_exceptions.md R300), and a word placed where the next step fetches. -/

namespace Sys2Proof.Machine

/-- One step: Fetch, Decode, Execute in mode Running; nothing in Halted or Faulted (R300, R346). The end-of-instruction
actions (R301) are in the meanings, which know whether the instruction assigned the pc. -/
def step (s : State) : Host.Outcome State Fault Refusal :=
  match s.mode with
  | .halted | .faulted => .next s
  | .running =>
    match fetch s with
    | .error e => .next (s.fetchFault e)
    | .ok w =>
      match decodeWord w with
      | .error _ => .next (s.decodeFault w)
      | .ok i => exec i s

/-- `s` with the word `w` of `nbits` bits standing where the next step fetches: mode Running, the word's four bytes in
RAM at the pc, or at `LOAD_ADDR` with the pc there when the pc's own four bytes are not RAM (log entry 4). -/
def State.withFetchWord (s : State) (nbits w : Nat) : State :=
  { s with
    mode := .running
    fault := none
    pc := fetchSlot s.config s.pc
    ram := s.ram.writeWidth (fetchSlot s.config s.pc).toNat (BitVec.ofNat 32 (w % 2 ^ nbits)) .word }

end Sys2Proof.Machine
end

