-- ==== Sys2Proof/Machine/Controller.lean ====
section
/-! DEFINITION. The host's operations on a session (70_reset_and_hazards.md R340 to R352): load, step, run and inspect.
TimerWaitUntil (R271) is in Peripherals. They stand beside the step: the guest never acts while the host does (R344). -/

namespace Sys2Proof.Machine

/-! ### Session creation: the configuration is checked (R8), then load (R340, R341) -/

/-- Why no session is created (R341). -/
inductive LoadError where
  | imageTooLarge | entryInvalid
  deriving DecidableEq, Repr

/-- Session creation at an admitted configuration, the only reset. Which error is named when both apply is the model's
choice (log entry 7). -/
def load (c : Config) (image : List Byte) (entry : Word) : Except LoadError State :=
  if c.loadAddr + image.length > c.ramEnd then .error .imageTooLarge
  else if c.ramBase ≤ entry.toNat ∧ entry.toNat + 4 ≤ c.ramEnd then
    .ok (State.atReset c entry (Memory.ofImage c.loadAddr image))
  else .error .entryInvalid

/-- Why no session comes to exist: a clause of R8 the configuration breaks, or a load error. -/
inductive SessionError where
  | config (clause : ConfigClause)
  | load (e : LoadError)
  deriving DecidableEq, Repr

/-- A session from any configuration record: an ill-formed one is refused before anything is loaded (R7, R8). -/
def createSession (c : Config) (image : List Byte) (entry : Word) : Except SessionError State :=
  match c.check with
  | .error k => .error (.config k)
  | .ok c =>
    match load c image entry with
    | .error e => .error (.load e)
    | .ok s => .ok s

/-! ### step (R345, R346) -/

/-- What `step()` returns beside the new state: the mode, with the fault record when it is Faulted. -/
def State.report (s : State) : Mode × Option FaultRecord := (s.mode, s.fault)

/-! ### run (R347 to R350) -/

/-- The three outcomes of `run` (R349). -/
inductive RunResult where
  | halted
  /-- with the fault record, present in every state a run reaches (Safety: `State.Inv`) -/
  | faulted (record : Option FaultRecord)
  | cycleLimitExceeded
  deriving DecidableEq, Repr

/-- The loop of R347 with `remaining` = `max_cycles - cycles` steps still permitted: the mode is tested before the cap. -/
def runLoop : (remaining : Nat) → State → Host.Outcome (RunResult × State) Fault Refusal
  | 0, s =>
    match s.mode with
    | .halted => .next (.halted, s)
    | .faulted => .next (.faulted s.fault, s)
    | .running => .next (.cycleLimitExceeded, s)
  | remaining + 1, s =>
    match s.mode with
    | .halted => .next (.halted, s)
    | .faulted => .next (.faulted s.fault, s)
    | .running =>
      match step s with
      | .next t => runLoop remaining { t with cycles := t.cycles + 1 }
      | .fault r => .fault r
      | .refused r => .refused r

/-- `run(max_cycles)`: the count starts at zero and is discarded at the end (R347, R348). -/
def run (maxCycles : Nat) (s : State) : Host.Outcome (RunResult × State) Fault Refusal :=
  match runLoop maxCycles { s with cycles := 0 } with
  | .next (result, t) => .next (result, { t with cycles := 0 })
  | .fault r => .fault r
  | .refused r => .refused r

/-! ### inspect (R352) -/

/-- The read-only snapshot. -/
structure Snapshot where
  /-- `x[0..31]`, `x[0]` as 0 -/
  x : Vector Word 32
  pc : Word
  mode : Mode
  fault : Option FaultRecord
  /-- each pin as one of the three function modes; none for a code no write can store -/
  gpio : List (Option PinMode)
  levelA : List (BitVec 16)
  levelB : List (BitVec 16)
  enabled : List Bool
  timer : BitVec 64
  ram : Memory
  deriving DecidableEq, Repr

/-- inspect: the state variables read directly, not through the bus. -/
def inspect (s : State) : Snapshot where
  x := #v[0#32] ++ s.regs
  pc := s.pc
  mode := s.mode
  fault := s.fault
  gpio := s.gpioFunc.map (pinModeOf s.config)
  levelA := s.pwmLevelA
  levelB := s.pwmLevelB
  enabled := s.pwmEnabled
  timer := s.timer
  ram := s.ram

end Sys2Proof.Machine
end

