-- ==== Sys2Proof/Safety.lean ====
section
/-! DEFINITION. What claims count as a sound state and as a safe run. -/

namespace Sys2Proof.Machine

/-- The fault record is absent outside mode Faulted; in it, the record names the pc the machine stands at, and has the
fields its kind gives it (10_state.md R27): an address and no other absence for a bus fault of a load or store, no word
for a bus fault of the fetch, no address for a decode fault. -/
def recordFits (s : State) : Prop :=
  match s.fault with
  | none => s.mode ≠ .faulted
  | some r =>
    s.mode = .faulted ∧ r.pc = s.pc ∧
      match r.kind with
      | .decode => r.addr = none ∧ r.word.isSome
      | .bus _ => r.addr.isSome ∧ (r.word = none → r.addr = some r.pc)

/-- The state fits its configuration: the record is well-formed (R8), and the tables have one entry a pin or a slice. -/
structure State.Shaped (s : State) : Prop where
  configOk : s.config.wf = true
  pins : s.gpioFunc.length = s.config.numPins
  levelsA : s.pwmLevelA.length = s.config.numSlices
  levelsB : s.pwmLevelB.length = s.config.numSlices
  flags : s.pwmEnabled.length = s.config.numSlices

/-- The invariant of every session: the state fits its configuration, RAM in its canonical form and inside its region
(R31), every pin in one of the three function modes (R257), and the fault record as R27 says. -/
structure State.Inv (s : State) : Prop where
  shaped : s.Shaped
  ramCanonical : s.ram.wf = true
  ramInRegion : ∀ c ∈ s.ram, s.config.ramBase ≤ c.1 ∧ c.1 < s.config.ramEnd
  pinsLegal : ∀ p, p < s.config.numPins → legalFunc s.config (s.pinFunc p) = true
  recordFits : recordFits s

/-- A state a safe run may be in: no fault has been taken (R312: Halted and Running are not faults). -/
def State.Safe (s : State) : Prop := s.mode ≠ .faulted

/-! ### The vocabulary of the claims -/

/-- `w[hi:lo]` as an unsigned value (00_scope.md R9), in plain arithmetic so that a claim about an encoding does not
rest on the decoder's own field functions. -/
def bits (w : Word) (hi lo : Nat) : Nat := w.toNat / 2 ^ lo % 2 ^ (hi - lo + 1)

/-- The register number in `w[lo+4:lo]` (R101). -/
def regField (w : Word) (lo : Nat) : Reg := Fin.ofNat 32 (bits w (lo + 4) lo)

/-- The immediate fields of R103, unextended. -/
def fieldI (w : Word) : BitVec 12 := BitVec.ofNat 12 (bits w 31 20)
def fieldS (w : Word) : BitVec 12 := BitVec.ofNat 12 (bits w 31 25 * 2 ^ 5 + bits w 11 7)
def fieldB (w : Word) : BitVec 13 :=
  BitVec.ofNat 13 (bits w 31 31 * 2 ^ 12 + bits w 7 7 * 2 ^ 11 + bits w 30 25 * 2 ^ 5 + bits w 11 8 * 2)
def fieldU (w : Word) : BitVec 20 := BitVec.ofNat 20 (bits w 31 12)
def fieldJ (w : Word) : BitVec 21 :=
  BitVec.ofNat 21 (bits w 31 31 * 2 ^ 20 + bits w 19 12 * 2 ^ 12 + bits w 20 20 * 2 ^ 11 + bits w 30 21 * 2)
def fieldShamt (w : Word) : BitVec 5 := BitVec.ofNat 5 (bits w 24 20)

/-- One row of the opcode table R105: a word is `build` of itself exactly when its masked bits are `pattern`. -/
structure Row where
  mask : Word
  pattern : Word
  build : Word → Instr

def Row.matches (r : Row) (w : Word) : Prop := w &&& r.mask = r.pattern

/-- The builders of the formats R102 from a word's fields. -/
def buildR (c : Reg → Reg → Reg → Instr) (w : Word) : Instr := c (regField w 7) (regField w 15) (regField w 20)
def buildI (c : Reg → Reg → BitVec 12 → Instr) (w : Word) : Instr := c (regField w 7) (regField w 15) (fieldI w)
def buildShift (c : Reg → Reg → BitVec 5 → Instr) (w : Word) : Instr := c (regField w 7) (regField w 15) (fieldShamt w)
def buildS (c : Reg → Reg → BitVec 12 → Instr) (w : Word) : Instr := c (regField w 20) (regField w 15) (fieldS w)
def buildB (c : Reg → Reg → BitVec 13 → Instr) (w : Word) : Instr := c (regField w 15) (regField w 20) (fieldB w)
def buildU (c : Reg → BitVec 20 → Instr) (w : Word) : Instr := c (regField w 7) (fieldU w)
def buildJ (c : Reg → BitVec 21 → Instr) (w : Word) : Instr := c (regField w 7) (fieldJ w)

/-- The words that decode to an instruction of this row are exactly the words that match it (R105, R117). -/
def IsRow (mask pattern : Word) (build : Word → Instr) : Prop :=
  ∀ w : Word, decodeWord w = .ok (build w) ↔ w &&& mask = pattern

/-- The decoder finds no instruction (R117: "unrecognized"). -/
def Unrecognized (w : Word) : Prop := ∃ r, decodeWord w = .error r

/-- All n bytes of the access lie in RAM; in the I/O window (R63). -/
def insideRam (c : Config) (a : Word) (w : Width) : Prop :=
  c.ramBase ≤ a.toNat ∧ a.toNat + w.bytes ≤ c.ramBase + c.ramSize
def insideIo (c : Config) (a : Word) (w : Width) : Prop :=
  c.ioBase ≤ a.toNat ∧ a.toNat + w.bytes ≤ c.ioBase + c.ioSize

/-- The addresses of the registers of the I/O window (R253, R260, R269). -/
def gpioCtrlAddr (c : Config) (p : Nat) : Word := BitVec.ofNat 32 (c.gpioBase + c.gpioOff p)
def pwmCcAddr (c : Config) (slice : Nat) : Word := BitVec.ofNat 32 (c.pwmBase + c.pwmOff slice)
def pwmEnAddr (c : Config) : Word := BitVec.ofNat 32 (c.pwmBase + c.pwmEnOff)
def timeRawHAddr (c : Config) : Word := BitVec.ofNat 32 (c.timerBase + c.timerRawhOff)
def timeRawLAddr (c : Config) : Word := BitVec.ofNat 32 (c.timerBase + c.timerRawlOff)

def isRegisterAddr (c : Config) (a : Word) : Prop :=
  (∃ p, p < c.numPins ∧ a = gpioCtrlAddr c p) ∨ (∃ slice, slice < c.numSlices ∧ a = pwmCcAddr c slice) ∨
    a = pwmEnAddr c ∨ a = timeRawHAddr c ∨ a = timeRawLAddr c

/-- A 4-byte access at `a` can reach a register: `a` is a multiple of 4 (R68) and its four bytes are in the I/O window
(R63). R8 asks for neither of a register's address, only of its offset; at the default configuration every register has
both. -/
def Reachable (c : Config) (a : Word) : Prop := a.toNat % 4 = 0 ∧ insideIo c a .word

/-- Availability of a slice in the words of R262: some pin p of the slice, `(p >> 1) AND 7` by division, has the PWM
function. -/
def Configured (s : State) (slice : Nat) : Prop :=
  ∃ p, p < s.config.numPins ∧ p / 2 % 8 = slice ∧ s.pinFunc p = s.config.pwmCode

/-- The unsigned value of the n bytes from `a` up, the byte at `a` least significant (R66). -/
def leValue (m : Memory) (a : Nat) : Nat → Nat
  | 0 => 0
  | n + 1 => (m.read a).toNat + 256 * leValue m (a + 1) n

/-- An unsigned value of n bytes read as two's complement (R9). -/
def signedValue (n v : Nat) : Int := if v < 2 ^ (8 * n - 1) then v else (v : Int) - 2 ^ (8 * n)

/-- A tick of the timer (R301). -/
def ticked (s : State) : BitVec 64 := s.timer + BitVec.ofNat 64 s.config.ticksPerInstr

/-- All of the Peripheral Bank but the timer. -/
structure SamePeripherals (s t : State) : Prop where
  gpioFunc : t.gpioFunc = s.gpioFunc
  pwmLevelA : t.pwmLevelA = s.pwmLevelA
  pwmLevelB : t.pwmLevelB = s.pwmLevelB
  pwmEnabled : t.pwmEnabled = s.pwmEnabled

/-- The end of a completed instruction: the pc, one tick, and the mode, the fault record, the host's count and the
configuration as before (R301). -/
structure Completed (s t : State) (nextPc : Word) : Prop where
  pc : t.pc = nextPc
  timer : t.timer = ticked s
  mode : t.mode = s.mode
  fault : t.fault = s.fault
  cycles : t.cycles = s.cycles
  config : t.config = s.config

/-- `i` completes at `s` with `x[rd] <- v` (nothing written where `rd` is x0), the pc at `nextPc`, one tick, and every
other register, every byte of RAM and all of the Peripheral Bank unchanged. -/
def CompletesWriting (i : Instr) (s : State) (rd : Reg) (v nextPc : Word) : Prop :=
  ∃ t, exec i s = .next t ∧ t.readReg rd = (if rd = 0 then 0#32 else v) ∧ (∀ r, r ≠ rd → t.readReg r = s.readReg r) ∧
    (∀ a, t.ram.read a = s.ram.read a) ∧ SamePeripherals s t ∧ Completed s t nextPc

/-- `i` completes at `s` with the pc at `nextPc`, one tick, and every register, every byte of RAM and all of the
Peripheral Bank unchanged. -/
def CompletesJumping (i : Instr) (s : State) (nextPc : Word) : Prop :=
  ∃ t, exec i s = .next t ∧ (∀ r, t.readReg r = s.readReg r) ∧
    (∀ a, t.ram.read a = s.ram.read a) ∧ SamePeripherals s t ∧ Completed s t nextPc

/-- `i` completes at `s` with the low n bytes of `v` stored at `ea`, `ea+1`, ..., the low byte first, every other byte of
RAM, every register and all of the Peripheral Bank unchanged, the sequential pc and one tick. -/
def CompletesStoring (i : Instr) (s : State) (ea : Word) (n : Nat) (v : Word) : Prop :=
  ∃ t, exec i s = .next t ∧ (∀ k, k < n → (t.ram.read (ea.toNat + k)).toNat = v.toNat / 256 ^ k % 256) ∧
    (∀ a, a < ea.toNat ∨ ea.toNat + n ≤ a → t.ram.read a = s.ram.read a) ∧
    (∀ r, t.readReg r = s.readReg r) ∧ SamePeripherals s t ∧ Completed s t (s.pc + 4#32)

/-- The state after entry to Faulted: the mode and the record, nothing else (R304 to R306). -/
def afterFault (s : State) (kind : FaultKind) (addr word : Option Word) : State :=
  { s with mode := .faulted, fault := some ⟨kind, s.pc, addr, word⟩ }

/-- The instruction's one data access: its address, width and, for a store, the value (R71, R228). -/
def dataAccess (s : State) : Instr → Option (Word × Width × Option Word)
  | .lb _ rs1 imm => some (s.readReg rs1 + imm.signExtend 32, .byte, none)
  | .lh _ rs1 imm => some (s.readReg rs1 + imm.signExtend 32, .half, none)
  | .lw _ rs1 imm => some (s.readReg rs1 + imm.signExtend 32, .word, none)
  | .lbu _ rs1 imm => some (s.readReg rs1 + imm.signExtend 32, .byte, none)
  | .lhu _ rs1 imm => some (s.readReg rs1 + imm.signExtend 32, .half, none)
  | .sb rs2 rs1 imm => some (s.readReg rs1 + imm.signExtend 32, .byte, some (s.readReg rs2))
  | .sh rs2 rs1 imm => some (s.readReg rs1 + imm.signExtend 32, .half, some (s.readReg rs2))
  | .sw rs2 rs1 imm => some (s.readReg rs1 + imm.signExtend 32, .word, some (s.readReg rs2))
  | _ => none

/-- The bus fault the instruction's data access raises, if it has one and it raises one. -/
def accessFault (s : State) (i : Instr) : Option BusFault :=
  match dataAccess s i with
  | none => none
  | some (ea, w, none) => match memRead s ea w with | .error e => some e | .ok _ => none
  | some (ea, w, some v) => match memWrite s ea w v with | .error e => some e | .ok _ => none

/-- Whether the instruction's pseudocode assigns the pc at `s`: JAL, JALR and a taken branch (R301). -/
def assignsPc (s : State) : Instr → Prop
  | .jal _ _ | .jalr _ _ _ => True
  | .beq rs1 rs2 _ => s.readReg rs1 = s.readReg rs2
  | .bne rs1 rs2 _ => s.readReg rs1 ≠ s.readReg rs2
  | .blt rs1 rs2 _ => (s.readReg rs1).toInt < (s.readReg rs2).toInt
  | .bge rs1 rs2 _ => (s.readReg rs2).toInt ≤ (s.readReg rs1).toInt
  | .bltu rs1 rs2 _ => (s.readReg rs1).toNat < (s.readReg rs2).toNat
  | .bgeu rs1 rs2 _ => (s.readReg rs2).toNat ≤ (s.readReg rs1).toNat
  | _ => False

/-- The stores, the only instructions that change RAM or the Peripheral Bank. -/
def isStore : Instr → Prop
  | .sb _ _ _ | .sh _ _ _ | .sw _ _ _ => True
  | _ => False

/-- The same instruction with `x0` for its destination register, where it has one (R22). -/
def withDestZero : Instr → Instr
  | .lui _ imm => .lui 0 imm
  | .auipc _ imm => .auipc 0 imm
  | .addi _ rs1 imm => .addi 0 rs1 imm
  | .slti _ rs1 imm => .slti 0 rs1 imm
  | .sltiu _ rs1 imm => .sltiu 0 rs1 imm
  | .xori _ rs1 imm => .xori 0 rs1 imm
  | .ori _ rs1 imm => .ori 0 rs1 imm
  | .andi _ rs1 imm => .andi 0 rs1 imm
  | .slli _ rs1 shamt => .slli 0 rs1 shamt
  | .srli _ rs1 shamt => .srli 0 rs1 shamt
  | .srai _ rs1 shamt => .srai 0 rs1 shamt
  | .add _ rs1 rs2 => .add 0 rs1 rs2
  | .sub _ rs1 rs2 => .sub 0 rs1 rs2
  | .sll _ rs1 rs2 => .sll 0 rs1 rs2
  | .slt _ rs1 rs2 => .slt 0 rs1 rs2
  | .sltu _ rs1 rs2 => .sltu 0 rs1 rs2
  | .xor _ rs1 rs2 => .xor 0 rs1 rs2
  | .srl _ rs1 rs2 => .srl 0 rs1 rs2
  | .sra _ rs1 rs2 => .sra 0 rs1 rs2
  | .or _ rs1 rs2 => .or 0 rs1 rs2
  | .and _ rs1 rs2 => .and 0 rs1 rs2
  | .mul _ rs1 rs2 => .mul 0 rs1 rs2
  | .mulh _ rs1 rs2 => .mulh 0 rs1 rs2
  | .mulhsu _ rs1 rs2 => .mulhsu 0 rs1 rs2
  | .mulhu _ rs1 rs2 => .mulhu 0 rs1 rs2
  | .div _ rs1 rs2 => .div 0 rs1 rs2
  | .divu _ rs1 rs2 => .divu 0 rs1 rs2
  | .rem _ rs1 rs2 => .rem 0 rs1 rs2
  | .remu _ rs1 rs2 => .remu 0 rs1 rs2
  | .jal _ offset => .jal 0 offset
  | .jalr _ rs1 imm => .jalr 0 rs1 imm
  | .lb _ rs1 imm => .lb 0 rs1 imm
  | .lh _ rs1 imm => .lh 0 rs1 imm
  | .lw _ rs1 imm => .lw 0 rs1 imm
  | .lbu _ rs1 imm => .lbu 0 rs1 imm
  | .lhu _ rs1 imm => .lhu 0 rs1 imm
  | .beq rs1 rs2 offset => .beq rs1 rs2 offset
  | .bne rs1 rs2 offset => .bne rs1 rs2 offset
  | .blt rs1 rs2 offset => .blt rs1 rs2 offset
  | .bge rs1 rs2 offset => .bge rs1 rs2 offset
  | .bltu rs1 rs2 offset => .bltu rs1 rs2 offset
  | .bgeu rs1 rs2 offset => .bgeu rs1 rs2 offset
  | .sb rs2 rs1 imm => .sb rs2 rs1 imm
  | .sh rs2 rs1 imm => .sh rs2 rs1 imm
  | .sw rs2 rs1 imm => .sw rs2 rs1 imm
  | .ebreak => .ebreak

/-- `k` steps lead from `s` to `t`, each taken in mode Running. -/
def Steps : Nat → State → State → Prop
  | 0, s, t => t = s
  | k + 1, s, t => s.mode = .running ∧ ∃ u, step s = .next u ∧ Steps k u t

end Sys2Proof.Machine
end

