-- ==== Sys2Proof/Certificates/Slice0/Obligations.lean ====
section
/-! DEFINITION. The statements for the provers. Every statement is about every state and every operand; what a rule says
of the machine is said in plain arithmetic (Safety.lean's vocabulary), not through the decoder's or the meanings' own
helpers.

A statement about RAM holds whatever the configuration record is. One about the I/O window has the premise that the
record is well-formed (`s.config.wf`, `s.Shaped`: R8, kept by every step, StepKeepsInvariant) and, where it reaches a
register, that its address is a multiple of 4 with its four bytes inside the window (`Reachable`: R68, R63; R8 asks it of
the offset only, log entry 3; at R7's defaults every register's address is one, ConfigurationRecord). -/

open Sys2Proof Sys2Proof.Machine

namespace Sys2Proof.Machine

/-! ### The opcode table R105, row by row -/

def upperRows : List Row :=
  [⟨0x0000007F#32, 0x00000037#32, buildU .lui⟩, ⟨0x0000007F#32, 0x00000017#32, buildU .auipc⟩]

def opImmRows : List Row :=
  [⟨0x0000707F#32, 0x00000013#32, buildI .addi⟩, ⟨0x0000707F#32, 0x00002013#32, buildI .slti⟩,
   ⟨0x0000707F#32, 0x00003013#32, buildI .sltiu⟩, ⟨0x0000707F#32, 0x00004013#32, buildI .xori⟩,
   ⟨0x0000707F#32, 0x00006013#32, buildI .ori⟩, ⟨0x0000707F#32, 0x00007013#32, buildI .andi⟩,
   ⟨0xFE00707F#32, 0x00001013#32, buildShift .slli⟩, ⟨0xFE00707F#32, 0x00005013#32, buildShift .srli⟩,
   ⟨0xFE00707F#32, 0x40005013#32, buildShift .srai⟩]

def opRows : List Row :=
  [⟨0xFE00707F#32, 0x00000033#32, buildR .add⟩, ⟨0xFE00707F#32, 0x40000033#32, buildR .sub⟩,
   ⟨0xFE00707F#32, 0x00001033#32, buildR .sll⟩, ⟨0xFE00707F#32, 0x00002033#32, buildR .slt⟩,
   ⟨0xFE00707F#32, 0x00003033#32, buildR .sltu⟩, ⟨0xFE00707F#32, 0x00004033#32, buildR .xor⟩,
   ⟨0xFE00707F#32, 0x00005033#32, buildR .srl⟩, ⟨0xFE00707F#32, 0x40005033#32, buildR .sra⟩,
   ⟨0xFE00707F#32, 0x00006033#32, buildR .or⟩, ⟨0xFE00707F#32, 0x00007033#32, buildR .and⟩]

def mulDivRows : List Row :=
  [⟨0xFE00707F#32, 0x02000033#32, buildR .mul⟩, ⟨0xFE00707F#32, 0x02001033#32, buildR .mulh⟩,
   ⟨0xFE00707F#32, 0x02002033#32, buildR .mulhsu⟩, ⟨0xFE00707F#32, 0x02003033#32, buildR .mulhu⟩,
   ⟨0xFE00707F#32, 0x02004033#32, buildR .div⟩, ⟨0xFE00707F#32, 0x02005033#32, buildR .divu⟩,
   ⟨0xFE00707F#32, 0x02006033#32, buildR .rem⟩, ⟨0xFE00707F#32, 0x02007033#32, buildR .remu⟩]

def controlRows : List Row :=
  [⟨0x0000007F#32, 0x0000006F#32, buildJ .jal⟩, ⟨0x0000707F#32, 0x00000067#32, buildI .jalr⟩,
   ⟨0x0000707F#32, 0x00000063#32, buildB .beq⟩, ⟨0x0000707F#32, 0x00001063#32, buildB .bne⟩,
   ⟨0x0000707F#32, 0x00004063#32, buildB .blt⟩, ⟨0x0000707F#32, 0x00005063#32, buildB .bge⟩,
   ⟨0x0000707F#32, 0x00006063#32, buildB .bltu⟩, ⟨0x0000707F#32, 0x00007063#32, buildB .bgeu⟩]

def memoryRows : List Row :=
  [⟨0x0000707F#32, 0x00000003#32, buildI .lb⟩, ⟨0x0000707F#32, 0x00001003#32, buildI .lh⟩,
   ⟨0x0000707F#32, 0x00002003#32, buildI .lw⟩, ⟨0x0000707F#32, 0x00004003#32, buildI .lbu⟩,
   ⟨0x0000707F#32, 0x00005003#32, buildI .lhu⟩, ⟨0x0000707F#32, 0x00000023#32, buildS .sb⟩,
   ⟨0x0000707F#32, 0x00001023#32, buildS .sh⟩, ⟨0x0000707F#32, 0x00002023#32, buildS .sw⟩]

def systemRows : List Row := [⟨0xFFFFFFFF#32, 0x00100073#32, fun _ => .ebreak⟩]

/-- The 46 rows of R105. -/
def opcodeTable : List Row :=
  upperRows ++ opImmRows ++ opRows ++ mulDivRows ++ controlRows ++ memoryRows ++ systemRows

/-! ### The shapes of an instruction's rule: its row, and its effect for every operand and state -/

/-- An R-format rule: `x[rd] <- f(x[rs1], x[rs2])`. -/
def RuleR (mask pattern : Word) (c : Reg → Reg → Reg → Instr) (f : Word → Word → Word) : Prop :=
  IsRow mask pattern (buildR c) ∧
  ∀ rd rs1 rs2 s, CompletesWriting (c rd rs1 rs2) s rd (f (s.readReg rs1) (s.readReg rs2)) (s.pc + 4#32)

/-- An I-format arithmetic rule: `x[rd] <- f(x[rs1], imm)`, `imm` the signed integer value of the 12-bit field. -/
def RuleI (mask pattern : Word) (c : Reg → Reg → BitVec 12 → Instr) (f : Word → Int → Word) : Prop :=
  IsRow mask pattern (buildI c) ∧
  ∀ rd rs1 imm s, CompletesWriting (c rd rs1 imm) s rd (f (s.readReg rs1) imm.toInt) (s.pc + 4#32)

/-- An I-shift rule: `x[rd] <- f(x[rs1], shamt)`. -/
def RuleShift (mask pattern : Word) (c : Reg → Reg → BitVec 5 → Instr) (f : Word → Nat → Word) : Prop :=
  IsRow mask pattern (buildShift c) ∧
  ∀ rd rs1 shamt s, CompletesWriting (c rd rs1 shamt) s rd (f (s.readReg rs1) shamt.toNat) (s.pc + 4#32)

/-- A branch rule: `if cond(x[rs1], x[rs2]): pc <- pc + imm_B else pc <- pc + 4`, modulo 2^32. -/
def RuleB (mask pattern : Word) (c : Reg → Reg → BitVec 13 → Instr) (cond : Word → Word → Bool) : Prop :=
  IsRow mask pattern (buildB c) ∧
  ∀ rs1 rs2 offset s, CompletesJumping (c rs1 rs2 offset) s
    (if cond (s.readReg rs1) (s.readReg rs2) then BitVec.ofInt 32 (s.pc.toNat + offset.toInt) else s.pc + 4#32)

/-- A load rule: the effective address is `x[rs1] + imm` modulo 2^32; a read of RAM gives the value of the n bytes
there; any read the bus accepts gives its value; one it refuses enters Faulted. -/
def RuleLoad (mask pattern : Word) (c : Reg → Reg → BitVec 12 → Instr) (w : Width) (value : Nat → Word) : Prop :=
  IsRow mask pattern (buildI c) ∧
  ∀ rd rs1 imm s ea, ea = BitVec.ofInt 32 ((s.readReg rs1).toNat + imm.toInt) →
    (insideRam s.config ea w →
      CompletesWriting (c rd rs1 imm) s rd (value (leValue s.ram ea.toNat w.bytes)) (s.pc + 4#32)) ∧
    (∀ v, memRead s ea w = .ok v → CompletesWriting (c rd rs1 imm) s rd (value v.toNat) (s.pc + 4#32)) ∧
    (∀ e, memRead s ea w = .error e →
      exec (c rd rs1 imm) s = .next (afterFault s (.bus e.kind) (some ea) (some (encode (c rd rs1 imm)))))

/-- A store rule: as for a load; a write the bus accepts has the effect the bus gives it and nothing else but the
sequential pc and the tick. -/
def RuleStore (mask pattern : Word) (c : Reg → Reg → BitVec 12 → Instr) (w : Width) : Prop :=
  IsRow mask pattern (buildS c) ∧
  ∀ rs2 rs1 imm s ea, ea = BitVec.ofInt 32 ((s.readReg rs1).toNat + imm.toInt) →
    (insideRam s.config ea w → CompletesStoring (c rs2 rs1 imm) s ea w.bytes (s.readReg rs2)) ∧
    (∀ t, memWrite s ea w (s.readReg rs2) = .ok t →
      exec (c rs2 rs1 imm) s = .next { t with pc := s.pc + 4#32, timer := ticked s }) ∧
    (∀ e, memWrite s ea w (s.readReg rs2) = .error e →
      exec (c rs2 rs1 imm) s = .next (afterFault s (.bus e.kind) (some ea) (some (encode (c rs2 rs1 imm)))))

/-- `a` is in `[b, b + n)`. -/
def InRange (b n a : Nat) : Prop := b ≤ a ∧ a < b + n

/-- LW of either timer word gives that half of the counter as it stood when the instruction began (R270, R301). -/
def TimerLoadsReadBeforeTheirTick : Prop :=
  ∀ s : State, s.config.wf = true →
    (∀ rd rs1 imm, s.readReg rs1 + imm.signExtend 32 = timeRawLAddr s.config →
      Reachable s.config (timeRawLAddr s.config) →
      CompletesWriting (.lw rd rs1 imm) s rd (BitVec.ofNat 32 s.timer.toNat) (s.pc + 4#32)) ∧
    (∀ rd rs1 imm, s.readReg rs1 + imm.signExtend 32 = timeRawHAddr s.config →
      Reachable s.config (timeRawHAddr s.config) →
      CompletesWriting (.lw rd rs1 imm) s rd (BitVec.ofNat 32 (s.timer.toNat / 2 ^ 32)) (s.pc + 4#32))

end Sys2Proof.Machine

/-! ### Encoding and decoding -/

/-- R105, R117: the decoder is the opcode table. A word that matches a row is that row's instruction, a decoded word
matches a row, no word matches two rows, a word that matches none is unrecognized, and a step runs the row's rule. -/
def Obligations.DecodeIsTheOpcodeTable : Prop :=
  opcodeTable.length = 46 ∧
  (∀ row ∈ opcodeTable, ∀ w, row.matches w → decodeWord w = .ok (row.build w)) ∧
  (∀ w i, decodeWord w = .ok i → ∃ row ∈ opcodeTable, row.matches w ∧ i = row.build w) ∧
  opcodeTable.Pairwise (fun r r' => ∀ w, ¬(r.matches w ∧ r'.matches w)) ∧
  (∀ w, (∀ row ∈ opcodeTable, ¬row.matches w) → Unrecognized w) ∧
  (∀ s w, s.mode = .running → fetch s = .ok w → ∀ row ∈ opcodeTable, row.matches w → step s = exec (row.build w) s)

/-- R100 to R105: for every well-formed instruction, decoding the bytes of its encoding, low byte first, gives it back
with whatever bytes follow. -/
def Obligations.DecodeOfEncodedBytes : Prop :=
  ∀ (i : Instr) (rest : List Byte), i.wf = true → decode (bytesOfWord (encode i) ++ rest) = .ok (i, rest)

/-- R103, R105: a word that decodes is the encoding of its instruction, which is well-formed: no bit is dropped. -/
def Obligations.DecodedWordsReencode : Prop :=
  ∀ (w : Word) (i : Instr), decodeWord w = .ok i → i.wf = true ∧ encode i = w

/-- Words written out from the spec's encodings (one a family) are the instructions they stand for. -/
def Obligations.SampleWordsDecode : Prop :=
  decodeTableWord 32 0x12345537 = some (.lui 10 0x12345) ∧
  decodeTableWord 32 0xFFF50513 = some (.addi 10 10 0xFFF) ∧
  decodeTableWord 32 0x4045D513 = some (.srai 10 11 4) ∧
  decodeTableWord 32 0x40C58533 = some (.sub 10 11 12) ∧
  decodeTableWord 32 0x02C5A533 = some (.mulhsu 10 11 12) ∧
  decodeTableWord 32 0xFF9FF0EF = some (.jal 1 0x1FFFF8) ∧
  decodeTableWord 32 0xFEB51EE3 = some (.bne 10 11 0x1FFC) ∧
  decodeTableWord 32 0xFFC32503 = some (.lw 10 6 0xFFC) ∧
  decodeTableWord 32 0xFEA30FA3 = some (.sb 10 6 0xFFF) ∧
  decodeTableWord 32 0x00100073 = some .ebreak ∧
  decodeTableWord 32 0x00000073 = none

/-- R118, R119, R306: a word no row matches enters Faulted with DecodeFault, its word and its pc, nothing else changes,
and a further step executes nothing; and each of the classes (a) to (h) of R118, with the reserved shifts of R119, is such a word. -/
def Obligations.UnrecognizedWordsFault : Prop :=
  (∀ s w, s.mode = .running → fetch s = .ok w → (∀ row ∈ opcodeTable, ¬row.matches w) →
    step s = .next (afterFault s .decode none (some w)) ∧
      step (afterFault s .decode none (some w)) = .next (afterFault s .decode none (some w))) ∧
  (∀ w, bits w 1 0 ≠ 0b11 → ∀ row ∈ opcodeTable, ¬row.matches w) ∧
  (∀ w, bits w 6 0 ∉ [0x37, 0x17, 0x6F, 0x67, 0x63, 0x03, 0x23, 0x13, 0x33, 0x73] →
    ∀ row ∈ opcodeTable, ¬row.matches w) ∧
  (∀ w, bits w 6 0 = 0x73 → w ≠ 0x00100073#32 → ∀ row ∈ opcodeTable, ¬row.matches w) ∧
  (∀ w, bits w 6 0 = 0x67 → bits w 14 12 ≠ 0 → ∀ row ∈ opcodeTable, ¬row.matches w) ∧
  (∀ w, bits w 6 0 = 0x63 → bits w 14 12 ∈ [2, 3] → ∀ row ∈ opcodeTable, ¬row.matches w) ∧
  (∀ w, bits w 6 0 = 0x03 → bits w 14 12 ∈ [3, 6, 7] → ∀ row ∈ opcodeTable, ¬row.matches w) ∧
  (∀ w, bits w 6 0 = 0x23 → 3 ≤ bits w 14 12 → ∀ row ∈ opcodeTable, ¬row.matches w) ∧
  (∀ w, bits w 6 0 = 0x33 →
    ¬(bits w 31 25 = 0 ∨ bits w 31 25 = 1 ∨ bits w 31 25 = 0b0100000 ∧ bits w 14 12 ∈ [0, 5]) →
    ∀ row ∈ opcodeTable, ¬row.matches w) ∧
  (∀ w, bits w 6 0 = 0x13 → bits w 14 12 = 1 → bits w 31 25 ≠ 0 → ∀ row ∈ opcodeTable, ¬row.matches w) ∧
  (∀ w, bits w 6 0 = 0x13 → bits w 14 12 = 5 → bits w 31 25 ∉ [0, 0b0100000] →
    ∀ row ∈ opcodeTable, ¬row.matches w)

/-! ### The step -/

/-- R300: in mode Running, when the word at the pc decodes to an instruction the step is that instruction's execution;
said of the fetched word, of an encoding, and of the four bytes of RAM at the pc. The step adds nothing around exec: the
end-of-instruction actions are the meanings' own. -/
def Obligations.StepRunsDecodedInstruction : Prop :=
  (∀ s w i, s.mode = .running → fetch s = .ok w → decodeWord w = .ok i → step s = exec i s) ∧
  (∀ s i, s.mode = .running → i.wf = true → fetch s = .ok (encode i) → step s = exec i s) ∧
  (∀ s i, s.mode = .running → insideRam s.config s.pc .word →
    decode [s.ram.read s.pc.toNat, s.ram.read (s.pc.toNat + 1), s.ram.read (s.pc.toNat + 2),
      s.ram.read (s.pc.toNat + 3)] = .ok (i, []) → step s = exec i s)

/-- R70, R304: the fetched word is the 4-byte bus read at the pc: the four bytes of RAM at any alignment, a register's
value at its aligned address, a fault anywhere else; a fetch that faults enters Faulted with `addr` = `pc` and no word,
and nothing else changes. -/
def Obligations.FetchIsAnOrdinaryRead : Prop :=
  (∀ s, fetch s = memRead s s.pc .word) ∧
  (∀ s, insideRam s.config s.pc .word → ∃ w, fetch s = .ok w ∧ w.toNat = leValue s.ram s.pc.toNat 4) ∧
  (∀ s, s.config.wf = true →
    (isRegisterAddr s.config s.pc → Reachable s.config s.pc → ∃ w, fetch s = .ok w) ∧
    (insideIo s.config s.pc .word → ¬(isRegisterAddr s.config s.pc ∧ s.pc.toNat % 4 = 0) →
      fetch s = .error ⟨.unimplementedPeripheral, s.pc⟩)) ∧
  (∀ s, ¬insideRam s.config s.pc .word → ¬insideIo s.config s.pc .word → fetch s = .error ⟨.outOfBounds, s.pc⟩) ∧
  (∀ s e, s.mode = .running → fetch s = .error e →
    step s = .next (afterFault s (.bus e.kind) (some s.pc) none))

/-- R346: a step in mode Halted or Faulted executes nothing and changes nothing. -/
def Obligations.FinishedModesTakeNoStep : Prop :=
  ∀ s, s.mode = .halted ∨ s.mode = .faulted → step s = .next s

/-- R300, R302: every step of every state answers a next state: the model stops nowhere. -/
def Obligations.EveryStepAnswersNext : Prop :=
  ∀ s, ∃ t, step s = .next t

/-- R301: a step that leaves the machine Running completed an instruction: one tick, and the pc at pc0 + 4 unless the
instruction assigns it; a step that ends in Halted or Faulted does neither; and a load of a timer word sees the value
from before its own tick. -/
def Obligations.TickAndPcAtEndOfInstruction : Prop :=
  (∀ s t w i, s.mode = .running → step s = .next t → t.mode = .running → fetch s = .ok w → decodeWord w = .ok i →
    t.timer = s.timer + BitVec.ofNat 64 s.config.ticksPerInstr ∧ (¬assignsPc s i → t.pc = s.pc + 4#32)) ∧
  (∀ s t, s.mode = .running → step s = .next t → t.mode = .running → ∃ w i, fetch s = .ok w ∧ decodeWord w = .ok i) ∧
  (∀ s t, s.mode = .running → step s = .next t → t.mode ≠ .running → t.pc = s.pc ∧ t.timer = s.timer) ∧
  TimerLoadsReadBeforeTheirTick

/-- R26, R308: Halted is reached only by the debug-trap word, Faulted only by a fetch fault, an unrecognized word or a
refused data access; both are terminal; and on entry to either, registers, RAM, peripherals, timer and pc are as they
were before the instruction. -/
def Obligations.ModeChangesArePrecise : Prop :=
  (∀ s t, s.mode = .running → step s = .next t →
    (t.mode = .halted ↔ fetch s = .ok 0x00100073#32) ∧
    (t.mode = .faulted ↔ (∃ e, fetch s = .error e) ∨ (∃ w, fetch s = .ok w ∧ Unrecognized w) ∨
      (∃ w i e, fetch s = .ok w ∧ decodeWord w = .ok i ∧ accessFault s i = some e)) ∧
    (t.mode ≠ .running → (∀ r, t.readReg r = s.readReg r) ∧ (∀ a, t.ram.read a = s.ram.read a) ∧
      SamePeripherals s t ∧ t.timer = s.timer ∧ t.pc = s.pc ∧ t.cycles = s.cycles ∧ t.config = s.config)) ∧
  (∀ s t, s.mode ≠ .running → step s = .next t → t = s)

/-- R27, R305: entry to Faulted writes the record its cause gives it and nothing else: no word for a fetch that failed,
no address for an unrecognized word, the access's address and the instruction word for a load or store. The record is
there exactly in mode Faulted, and a step there never changes it. -/
def Obligations.FaultRecordFields : Prop :=
  (∀ s e, s.mode = .running → fetch s = .error e →
    step s = .next { s with mode := .faulted, fault := some ⟨.bus e.kind, s.pc, some s.pc, none⟩ }) ∧
  (∀ s w, s.mode = .running → fetch s = .ok w → Unrecognized w →
    step s = .next { s with mode := .faulted, fault := some ⟨.decode, s.pc, none, some w⟩ }) ∧
  (∀ s w i e, s.mode = .running → fetch s = .ok w → decodeWord w = .ok i → accessFault s i = some e →
    ∃ ea n v, dataAccess s i = some (ea, n, v) ∧
      step s = .next { s with mode := .faulted, fault := some ⟨.bus e.kind, s.pc, some ea, some w⟩ }) ∧
  (∀ s w i, s.mode = .running → fetch s = .ok w → decodeWord w = .ok i → accessFault s i = none →
    ∃ t, step s = .next t ∧ t.mode ≠ .faulted) ∧
  (∀ s : State, s.Inv → (s.fault.isSome ↔ s.mode = .faulted)) ∧
  (∀ s t, s.mode = .faulted → step s = .next t → t.fault = s.fault)

/-- R303: the codes 1, 2, 3 of the closed set of fault kinds. -/
def Obligations.FaultKindCodes : Prop :=
  faultCode (.bus .outOfBounds) = 1 ∧ faultCode (.bus .unimplementedPeripheral) = 2 ∧ faultCode .decode = 3 ∧
  ∀ k k', faultCode k = faultCode k' → k = k'

/-! ### Invariants, reset and load -/

/-- R31, R257, R27: from every state that meets it, a step keeps the invariant. -/
def Obligations.StepKeepsInvariant : Prop :=
  ∀ s t, s.Inv → step s = .next t → t.Inv

/-- The invariant holds right after reset. -/
def Obligations.ResetMeetsInvariant : Prop :=
  State.reset.Inv

/-- Every session that load creates, whatever its well-formed configuration, meets the invariant and is in mode Running;
load at the default configuration with no image and the entry at `LOAD_ADDR` is State.reset, the model's choice of
arguments (log entry 1). -/
def Obligations.LoadedSessionMeetsInvariant : Prop :=
  (∀ c image entry s, c.wf = true → load c image entry = .ok s → s.Inv ∧ s.mode = .running) ∧
  load defaultConfig [] (BitVec.ofNat 32 defaultConfig.loadAddr) = .ok State.reset

/-- R340: a load whose arguments pass, at any well-formed configuration, creates the reset state of that
configuration: the registers zero, the pc at the entry, mode Running, no
fault, RAM the image and zeros, every pin unassigned, every level 0, every slice disabled, the timer 0 and no cycle
counted. -/
def Obligations.LoadCreatesResetState : Prop :=
  ∀ (c : Config) image entry, c.wf = true → c.loadAddr + image.length ≤ c.ramBase + c.ramSize →
    c.ramBase ≤ entry.toNat → entry.toNat + 4 ≤ c.ramBase + c.ramSize →
    ∃ s, load c image entry = .ok s ∧ s.config = c ∧ (∀ r, s.readReg r = 0#32) ∧
      s.pc = entry ∧ s.mode = .running ∧ s.fault = none ∧
      (∀ i (h : i < image.length), s.ram.read (c.loadAddr + i) = image[i]) ∧
      (∀ a, a < c.loadAddr ∨ c.loadAddr + image.length ≤ a → s.ram.read a = 0x00#8) ∧
      s.Shaped ∧ (∀ p, p < c.numPins → (s.pinFunc p).toNat = c.funcNull) ∧
      (∀ n, n < c.numSlices → s.levelA n = 0#16 ∧ s.levelB n = 0#16 ∧ s.sliceEnabled n = false) ∧
      s.timer = 0#64 ∧ s.cycles = 0

/-- R341: load reports an error exactly when the image does not fit or the entry's four bytes are not in RAM; an image
too large with a valid entry is imageTooLarge, a fitting image with an invalid entry is entryInvalid; the empty image is
accepted, and its first step raises DecodeFault of the zero word. -/
def Obligations.LoadErrorsExactly : Prop :=
  (∀ (c : Config) image entry, (∃ e, load c image entry = .error e) ↔
    c.loadAddr + image.length > c.ramBase + c.ramSize ∨
    ¬(c.ramBase ≤ entry.toNat ∧ entry.toNat + 4 ≤ c.ramBase + c.ramSize)) ∧
  (∀ (c : Config) image entry, c.loadAddr + image.length > c.ramBase + c.ramSize → insideRam c entry .word →
    load c image entry = .error .imageTooLarge) ∧
  (∀ (c : Config) image entry, c.loadAddr + image.length ≤ c.ramBase + c.ramSize → ¬insideRam c entry .word →
    load c image entry = .error .entryInvalid) ∧
  (∀ (c : Config) entry, c.wf = true → insideRam c entry .word →
    ∃ s, load c [] entry = .ok s ∧ step s = .next (afterFault s .decode none (some 0#32)))

/-- R8, clause by clause: the default configuration is well-formed; a configuration is well-formed exactly when (a) to
(h) hold; one that is not is refused, by a clause it breaks. In clause (d) "lies inside its sub-window" is read as "the
offset is smaller than the size": that reading is the model's, not the spec's words (DEDUCED, log entry 3); and the two
tables of offsets having one entry a pin and a slice is the model's form of R7's functions (DESIGN CHOICE, log entry 20). -/
def Obligations.ConfigurationAdmitted : Prop :=
  defaultConfig.wf = true ∧
  (∀ c : Config, c.wf = true ↔
    (c.ramBase + c.ramSize ≤ 2 ^ 32 ∧ c.ioBase + c.ioSize ≤ 2 ^ 32) ∧
    (∀ a, ¬(InRange c.ramBase c.ramSize a ∧ InRange c.ioBase c.ioSize a)) ∧
    (∀ a, InRange c.gpioBase c.gpioSize a ∨ InRange c.pwmBase c.pwmSize a ∨ InRange c.timerBase c.timerSize a →
      InRange c.ioBase c.ioSize a) ∧
    (∀ a, ¬(InRange c.gpioBase c.gpioSize a ∧ InRange c.pwmBase c.pwmSize a) ∧
      ¬(InRange c.gpioBase c.gpioSize a ∧ InRange c.timerBase c.timerSize a) ∧
      ¬(InRange c.pwmBase c.pwmSize a ∧ InRange c.timerBase c.timerSize a)) ∧
    ((c.gpioCtrlOff.length = c.numPins ∧ c.pwmCcOff.length = c.numSlices) ∧
      (∀ p, p < c.numPins → c.gpioOff p % 4 = 0 ∧ c.gpioOff p < c.gpioSize) ∧
      (∀ p q, p < q → q < c.numPins → c.gpioOff p ≠ c.gpioOff q) ∧
      (c.pwmEnOff % 4 = 0 ∧ c.pwmEnOff < c.pwmSize) ∧
      (∀ n, n < c.numSlices → c.pwmOff n % 4 = 0 ∧ c.pwmOff n < c.pwmSize ∧ c.pwmOff n ≠ c.pwmEnOff) ∧
      (∀ n m, n < m → m < c.numSlices → c.pwmOff n ≠ c.pwmOff m) ∧
      (c.timerRawhOff % 4 = 0 ∧ c.timerRawhOff < c.timerSize) ∧
      (c.timerRawlOff % 4 = 0 ∧ c.timerRawlOff < c.timerSize) ∧ c.timerRawhOff ≠ c.timerRawlOff) ∧
    InRange c.ramBase c.ramSize c.loadAddr ∧
    ((c.funcPwm < 32 ∧ c.funcDio < 32 ∧ c.funcNull < 32) ∧
      c.funcPwm ≠ c.funcDio ∧ c.funcPwm ≠ c.funcNull ∧ c.funcDio ≠ c.funcNull) ∧
    (c.numSlices ≤ 32 ∧ 2 ≤ c.numPins ∧ 1 ≤ c.ticksPerInstr) ∧
    (c.xlen = 32 ∧ c.nregs = 32 ∧ c.ilen = 32)) ∧
  (∀ c : Config, (c.check = .ok c ↔ c.wf = true) ∧ ∀ k, c.check = .error k → k.holds c = false)

/-! ### Registers -/

/-- R22: x0 reads zero in every state and a write of it changes no state; and an instruction whose destination is x0
leaves every register as it was and performs every other effect it has: the same memory, peripherals, pc, timer, mode,
and the same fault but for the recorded word. -/
def Obligations.ZeroRegisterHardwired : Prop :=
  (∀ s : State, s.readReg 0 = 0#32) ∧ (∀ (s : State) v, s.writeReg 0 v = s) ∧
  (∀ i s, ∃ t u, exec i s = .next t ∧ exec (withDestZero i) s = .next u ∧ (∀ r, u.readReg r = s.readReg r) ∧
    u.ram = t.ram ∧ SamePeripherals t u ∧ u.pc = t.pc ∧ u.timer = t.timer ∧ u.mode = t.mode ∧ u.cycles = t.cycles ∧
    u.config = t.config ∧
    u.fault.map (fun r => (r.kind, r.pc, r.addr)) = t.fault.map (fun r => (r.kind, r.pc, r.addr)))

/-! ### Arithmetic -/

/-- R140, R141: LUI and AUIPC. -/
def Obligations.UpperImmediateResults : Prop :=
  (IsRow 0x0000007F#32 0x00000037#32 (buildU .lui) ∧
    ∀ rd imm s, CompletesWriting (.lui rd imm) s rd (BitVec.ofNat 32 (imm.toNat * 2 ^ 12)) (s.pc + 4#32)) ∧
  (IsRow 0x0000007F#32 0x00000017#32 (buildU .auipc) ∧
    ∀ rd imm s,
      CompletesWriting (.auipc rd imm) s rd (BitVec.ofNat 32 (s.pc.toNat + imm.toNat * 2 ^ 12)) (s.pc + 4#32))

/-- R142, R151, R152: ADDI, ADD and SUB, the low 32 bits of the exact integer result. -/
def Obligations.AddSubtractResults : Prop :=
  RuleI 0x0000707F#32 0x00000013#32 .addi (fun a imm => BitVec.ofInt 32 (a.toInt + imm)) ∧
  RuleR 0xFE00707F#32 0x00000033#32 .add (fun a b => BitVec.ofNat 32 (a.toNat + b.toNat)) ∧
  RuleR 0xFE00707F#32 0x40000033#32 .sub (fun a b => BitVec.ofInt 32 (a.toInt - b.toInt))

/-- R143, R144, R154, R155: the set-if-less-than family, signed and unsigned; the immediate of SLTIU is sign-extended
and then read as unsigned. -/
def Obligations.SetLessThanResults : Prop :=
  RuleI 0x0000707F#32 0x00002013#32 .slti (fun a imm => if a.toInt < imm then 1#32 else 0#32) ∧
  RuleI 0x0000707F#32 0x00003013#32 .sltiu
    (fun a imm => if (a.toNat : Int) < (if imm < 0 then 2 ^ 32 + imm else imm) then 1#32 else 0#32) ∧
  RuleR 0xFE00707F#32 0x00002033#32 .slt (fun a b => if a.toInt < b.toInt then 1#32 else 0#32) ∧
  RuleR 0xFE00707F#32 0x00003033#32 .sltu (fun a b => if a.toNat < b.toNat then 1#32 else 0#32)

/-- R145, R146, R147, R156, R159, R160: XORI, ORI, ANDI, XOR, OR, AND. -/
def Obligations.BitwiseResults : Prop :=
  RuleI 0x0000707F#32 0x00004013#32 .xori (fun a imm => a ^^^ BitVec.ofInt 32 imm) ∧
  RuleI 0x0000707F#32 0x00006013#32 .ori (fun a imm => a ||| BitVec.ofInt 32 imm) ∧
  RuleI 0x0000707F#32 0x00007013#32 .andi (fun a imm => a &&& BitVec.ofInt 32 imm) ∧
  RuleR 0xFE00707F#32 0x00004033#32 .xor (fun a b => BitVec.ofNat 32 (a.toNat ^^^ b.toNat)) ∧
  RuleR 0xFE00707F#32 0x00006033#32 .or (fun a b => BitVec.ofNat 32 (a.toNat ||| b.toNat)) ∧
  RuleR 0xFE00707F#32 0x00007033#32 .and (fun a b => BitVec.ofNat 32 (a.toNat &&& b.toNat))

/-- R148, R149, R150, R119: SLLI, SRLI and SRAI by powers of two, SRAI rounding toward minus infinity; a word with their
funct3 and another w[31:25] is no instruction. -/
def Obligations.ImmediateShiftResults : Prop :=
  RuleShift 0xFE00707F#32 0x00001013#32 .slli (fun a n => BitVec.ofNat 32 (a.toNat * 2 ^ n)) ∧
  RuleShift 0xFE00707F#32 0x00005013#32 .srli (fun a n => BitVec.ofNat 32 (a.toNat / 2 ^ n)) ∧
  RuleShift 0xFE00707F#32 0x40005013#32 .srai (fun a n => BitVec.ofInt 32 (a.toInt / 2 ^ n)) ∧
  (∀ w, bits w 6 0 = 0x13 → bits w 14 12 = 1 → bits w 31 25 ≠ 0 → Unrecognized w) ∧
  (∀ w, bits w 6 0 = 0x13 → bits w 14 12 = 5 → bits w 31 25 ≠ 0 → bits w 31 25 ≠ 0b0100000 → Unrecognized w)

/-- R153, R157, R158: SLL, SRL and SRA by the low five bits of x[rs2]. -/
def Obligations.RegisterShiftResults : Prop :=
  RuleR 0xFE00707F#32 0x00001033#32 .sll (fun a b => BitVec.ofNat 32 (a.toNat * 2 ^ (b.toNat % 32))) ∧
  RuleR 0xFE00707F#32 0x00005033#32 .srl (fun a b => BitVec.ofNat 32 (a.toNat / 2 ^ (b.toNat % 32))) ∧
  RuleR 0xFE00707F#32 0x40005033#32 .sra (fun a b => BitVec.ofInt 32 (a.toInt / 2 ^ (b.toNat % 32)))

/-- R180 to R183: the low word of the product, and the upper word of its 64-bit encoding for the three signednesses. -/
def Obligations.MultiplyResults : Prop :=
  RuleR 0xFE00707F#32 0x02000033#32 .mul (fun a b => BitVec.ofNat 32 (a.toNat * b.toNat)) ∧
  RuleR 0xFE00707F#32 0x02001033#32 .mulh
    (fun a b => (BitVec.ofInt 64 (a.toInt * b.toInt)).extractLsb' 32 32) ∧
  RuleR 0xFE00707F#32 0x02002033#32 .mulhsu
    (fun a b => (BitVec.ofInt 64 (a.toInt * (b.toNat : Int))).extractLsb' 32 32) ∧
  RuleR 0xFE00707F#32 0x02003033#32 .mulhu
    (fun a b => (BitVec.ofNat 64 (a.toNat * b.toNat)).extractLsb' 32 32)

/-- R184 to R187: the four divisions with their defined corner results. -/
def Obligations.DivideResults : Prop :=
  RuleR 0xFE00707F#32 0x02004033#32 .div (fun a b =>
    if b.toNat = 0 then 0xFFFFFFFF#32
    else if a.toInt = -2 ^ 31 ∧ b.toInt = -1 then 0x80000000#32
    else BitVec.ofInt 32 (a.toInt.tdiv b.toInt)) ∧
  RuleR 0xFE00707F#32 0x02005033#32 .divu (fun a b =>
    if b.toNat = 0 then 0xFFFFFFFF#32 else BitVec.ofNat 32 (a.toNat / b.toNat)) ∧
  RuleR 0xFE00707F#32 0x02006033#32 .rem (fun a b =>
    if b.toNat = 0 then a
    else if a.toInt = -2 ^ 31 ∧ b.toInt = -1 then 0#32
    else BitVec.ofInt 32 (a.toInt - a.toInt.tdiv b.toInt * b.toInt)) ∧
  RuleR 0xFE00707F#32 0x02007033#32 .remu (fun a b =>
    if b.toNat = 0 then a else BitVec.ofNat 32 (a.toNat % b.toNat))

/-- R189: what DIV and REM, and DIVU and REMU, leave in a register satisfies a = q*b + r modulo 2^32, division by zero
included; a signed remainder is smaller than the divisor in magnitude and has the dividend's sign or is zero. -/
def Obligations.QuotientRemainderIdentity : Prop :=
  (∀ rd rs1 rs2 s, rd ≠ 0 → ∃ t u, exec (.div rd rs1 rs2) s = .next t ∧ exec (.rem rd rs1 rs2) s = .next u ∧
    s.readReg rs1 = t.readReg rd * s.readReg rs2 + u.readReg rd ∧
    (s.readReg rs2 ≠ 0#32 → (u.readReg rd).toInt.natAbs < (s.readReg rs2).toInt.natAbs ∧
      ((u.readReg rd).toInt = 0 ∨ (0 < (u.readReg rd).toInt ↔ 0 < (s.readReg rs1).toInt)))) ∧
  (∀ rd rs1 rs2 s, rd ≠ 0 → ∃ t u, exec (.divu rd rs1 rs2) s = .next t ∧ exec (.remu rd rs1 rs2) s = .next u ∧
    s.readReg rs1 = t.readReg rd * s.readReg rs2 + u.readReg rd ∧
    (s.readReg rs2 ≠ 0#32 → (u.readReg rd).toNat < (s.readReg rs2).toNat))

/-! ### Control transfer -/

/-- R200, R201: JAL and JALR link pc + 4 and jump, the target of JALR computed from the old x[rs1] with bit 0 cleared,
both modulo 2^32; JALR with another funct3 is no instruction. -/
def Obligations.JumpResults : Prop :=
  (IsRow 0x0000007F#32 0x0000006F#32 (buildJ .jal) ∧
    ∀ rd offset s,
      CompletesWriting (.jal rd offset) s rd (s.pc + 4#32) (BitVec.ofInt 32 (s.pc.toNat + offset.toInt))) ∧
  (IsRow 0x0000707F#32 0x00000067#32 (buildI .jalr) ∧
    ∀ rd rs1 imm s target, target = BitVec.ofInt 32 ((s.readReg rs1).toNat + imm.toInt) →
      CompletesWriting (.jalr rd rs1 imm) s rd (s.pc + 4#32) (BitVec.ofNat 32 (target.toNat / 2 * 2))) ∧
  (∀ w, bits w 6 0 = 0x67 → bits w 14 12 ≠ 0 → Unrecognized w)

/-- R202 to R207: the six branches. -/
def Obligations.BranchResults : Prop :=
  RuleB 0x0000707F#32 0x00000063#32 .beq (fun a b => decide (a = b)) ∧
  RuleB 0x0000707F#32 0x00001063#32 .bne (fun a b => decide (a ≠ b)) ∧
  RuleB 0x0000707F#32 0x00004063#32 .blt (fun a b => decide (a.toInt < b.toInt)) ∧
  RuleB 0x0000707F#32 0x00005063#32 .bge (fun a b => decide (a.toInt ≥ b.toInt)) ∧
  RuleB 0x0000707F#32 0x00006063#32 .bltu (fun a b => decide (a.toNat < b.toNat)) ∧
  RuleB 0x0000707F#32 0x00007063#32 .bgeu (fun a b => decide (a.toNat ≥ b.toNat))

/-! ### Loads, stores and the bus -/

/-- R220 to R224: the five loads. -/
def Obligations.LoadResults : Prop :=
  RuleLoad 0x0000707F#32 0x00000003#32 .lb .byte (fun v => BitVec.ofInt 32 (signedValue 1 v)) ∧
  RuleLoad 0x0000707F#32 0x00001003#32 .lh .half (fun v => BitVec.ofInt 32 (signedValue 2 v)) ∧
  RuleLoad 0x0000707F#32 0x00002003#32 .lw .word (fun v => BitVec.ofNat 32 v) ∧
  RuleLoad 0x0000707F#32 0x00004003#32 .lbu .byte (fun v => BitVec.ofNat 32 v) ∧
  RuleLoad 0x0000707F#32 0x00005003#32 .lhu .half (fun v => BitVec.ofNat 32 v)

/-- R225 to R227: the three stores. -/
def Obligations.StoreResults : Prop :=
  RuleStore 0x0000707F#32 0x00000023#32 .sb .byte ∧
  RuleStore 0x0000707F#32 0x00001023#32 .sh .half ∧
  RuleStore 0x0000707F#32 0x00002023#32 .sw .word

/-- R229: a load or store raises exactly the fault its one access raises, with no other effect: out of bounds when the
access is in no region, unimplemented peripheral when it is inside the I/O window and not an aligned word at a register's
address or the register refuses it; one whose access is accepted completes. -/
def Obligations.LoadStoreFaults : Prop :=
  ∀ i s ea w v, dataAccess s i = some (ea, w, v) →
    (∀ e, accessFault s i = some e →
      exec i s = .next (afterFault s (.bus e.kind) (some ea) (some (encode i)))) ∧
    (accessFault s i = none → ∃ t, exec i s = .next t ∧ Completed s t (s.pc + 4#32)) ∧
    (insideRam s.config ea w → accessFault s i = none) ∧
    (¬insideRam s.config ea w → ¬insideIo s.config ea w → accessFault s i = some ⟨.outOfBounds, ea⟩) ∧
    (s.config.wf = true → insideIo s.config ea w →
      (¬(w = .word ∧ ea.toNat % 4 = 0 ∧ isRegisterAddr s.config ea) →
        accessFault s i = some ⟨.unimplementedPeripheral, ea⟩) ∧
      ∀ e, accessFault s i = some e → e = ⟨.unimplementedPeripheral, ea⟩)

/-- R63, R69: a read or a write is out of bounds exactly when its n bytes are not all in RAM and not all in the I/O
window, computed without wrapping; one inside RAM never faults; one inside the I/O window that is refused is an
unimplemented peripheral. -/
def Obligations.OutOfBoundsExactly : Prop :=
  ∀ s a w v,
    (insideRam s.config a w → (∃ x, memRead s a w = .ok x) ∧ ∃ t, memWrite s a w v = .ok t) ∧
    (s.config.wf = true →
      (memRead s a w = .error ⟨.outOfBounds, a⟩ ↔ ¬insideRam s.config a w ∧ ¬insideIo s.config a w) ∧
      (memWrite s a w v = .error ⟨.outOfBounds, a⟩ ↔ ¬insideRam s.config a w ∧ ¬insideIo s.config a w) ∧
      (insideIo s.config a w →
        ∀ e, memRead s a w = .error e ∨ memWrite s a w v = .error e → e = ⟨.unimplementedPeripheral, a⟩))

/-- R66, R67: in RAM, at any alignment, a read gives the n bytes with the byte at the address least significant, a fetch
reads its word the same way, a write puts the low n bytes of the value there in the same order and changes nothing else,
and a narrow read inside a wider store sees the corresponding bytes. -/
def Obligations.RamAccessLittleEndianUnaligned : Prop :=
  (∀ s a w, insideRam s.config a w → ∃ v, memRead s a w = .ok v ∧ v.toNat = leValue s.ram a.toNat w.bytes) ∧
  (∀ s, insideRam s.config s.pc .word → ∃ w, fetch s = .ok w ∧ w.toNat = leValue s.ram s.pc.toNat 4) ∧
  (∀ s a w v, insideRam s.config a w → ∃ t, memWrite s a w v = .ok t ∧
    (∀ k, k < w.bytes → (t.ram.read (a.toNat + k)).toNat = v.toNat / 256 ^ k % 256) ∧
    (∀ x, x < a.toNat ∨ a.toNat + w.bytes ≤ x → t.ram.read x = s.ram.read x) ∧ t = { s with ram := t.ram } ∧
    ∀ b w', a.toNat ≤ b.toNat → b.toNat + w'.bytes ≤ a.toNat + w.bytes →
      ∃ x, memRead t b w' = .ok x ∧ x.toNat = v.toNat / 256 ^ (b.toNat - a.toNat) % 256 ^ w'.bytes)

/-- R80: a later read of a byte of RAM gives the byte the latest store put there, and what it gave before where that
store put none; a store to RAM changes no read of a register, and a store to a register changes no read of RAM. -/
def Obligations.LaterReadsSeeStores : Prop :=
  ∀ s t a w v, memWrite s a w v = .ok t →
    (insideRam s.config a w → ∀ b, insideRam s.config b .byte → memRead t b .byte =
      if a.toNat ≤ b.toNat ∧ b.toNat < a.toNat + w.bytes
      then .ok (BitVec.ofNat 32 (v.toNat / 256 ^ (b.toNat - a.toNat) % 256)) else memRead s b .byte) ∧
    (s.config.wf = true → insideRam s.config a w → ∀ b w', insideIo s.config b w' → memRead t b w' = memRead s b w') ∧
    (s.config.wf = true → insideIo s.config a w → ∀ b w', insideRam s.config b w' → memRead t b w' = memRead s b w')

/-- R83: a word stored is the word the next fetch from its address gives, the very next instruction included. -/
def Obligations.StoreSeenByNextFetch : Prop :=
  ∀ rs2 rs1 imm s ea, ea = s.readReg rs1 + imm.signExtend 32 → insideRam s.config ea .word →
    ∃ t, exec (.sw rs2 rs1 imm) s = .next t ∧
      (∀ u : State, u.config = t.config → u.ram = t.ram → u.pc = ea → fetch u = .ok (s.readReg rs2)) ∧
      (ea = s.pc + 4#32 → s.mode = .running → fetch s = .ok (encode (.sw rs2 rs1 imm)) →
        step s = .next t ∧ fetch t = .ok (s.readReg rs2))

/-- R21, R31, R250: only a store changes RAM or the Peripheral Bank's tables, and a step changes at most one register. -/
def Obligations.OnlyStoresChangeMemory : Prop :=
  (∀ s t, step s = .next t → (∀ w i, fetch s = .ok w → decodeWord w = .ok i → ¬isStore i) →
    t.ram = s.ram ∧ SamePeripherals s t) ∧
  (∀ s t, step s = .next t → ∃ rd, ∀ r, r ≠ rd → t.readReg r = s.readReg r)

/-! ### The Peripheral Bank -/

/-- R252: inside the I/O window an access reaches a register exactly when it is an aligned word at a register's address;
every other read and every other write is refused as an unimplemented peripheral. -/
def Obligations.IoWindowMapsOnlyRegisters : Prop :=
  ∀ s a w, s.config.wf = true → insideIo s.config a w →
    (w = .word ∧ a.toNat % 4 = 0 ∧ isRegisterAddr s.config a → ∃ v, memRead s a w = .ok v) ∧
    (¬(w = .word ∧ a.toNat % 4 = 0 ∧ isRegisterAddr s.config a) →
      memRead s a w = .error ⟨.unimplementedPeripheral, a⟩ ∧
      ∀ v, memWrite s a w v = .error ⟨.unimplementedPeripheral, a⟩)

/-- R254, R255, R256: a read of a pin's register gives its code, one of the three in every session; a write of one of the
three codes replaces that pin's function and changes nothing else; any other value is refused. -/
def Obligations.GpioRegister : Prop :=
  ∀ (s : State) (p : Nat), s.Shaped → p < s.config.numPins → Reachable s.config (gpioCtrlAddr s.config p) →
    (∃ v, memRead s (gpioCtrlAddr s.config p) .word = .ok v ∧ v.toNat = (s.pinFunc p).toNat) ∧
    (s.Inv → (s.pinFunc p).toNat ∈ [s.config.funcPwm, s.config.funcDio, s.config.funcNull]) ∧
    (∀ v, v.toNat ∈ [s.config.funcPwm, s.config.funcDio, s.config.funcNull] →
      ∃ t, memWrite s (gpioCtrlAddr s.config p) .word v = .ok t ∧ (t.pinFunc p).toNat = v.toNat ∧
        (∀ q, q ≠ p → t.pinFunc q = s.pinFunc q) ∧ t = { s with gpioFunc := t.gpioFunc }) ∧
    (∀ v, v.toNat ∉ [s.config.funcPwm, s.config.funcDio, s.config.funcNull] →
      memWrite s (gpioCtrlAddr s.config p) .word v =
        .error ⟨.unimplementedPeripheral, gpioCtrlAddr s.config p⟩)

/-- R264, R265: a level register reads as its two levels, available or not; a write sets both at once when the slice is
available and changes nothing else, and is refused when it is not. -/
def Obligations.PwmLevelRegister : Prop :=
  ∀ (s : State) (n : Nat), s.Shaped → n < s.config.numSlices → Reachable s.config (pwmCcAddr s.config n) →
    (∃ v, memRead s (pwmCcAddr s.config n) .word = .ok v ∧
      v.toNat = (s.levelB n).toNat * 2 ^ 16 + (s.levelA n).toNat) ∧
    (∀ v, Configured s n → ∃ t, memWrite s (pwmCcAddr s.config n) .word v = .ok t ∧
      (t.levelA n).toNat = v.toNat % 2 ^ 16 ∧ (t.levelB n).toNat = v.toNat / 2 ^ 16 ∧
      (∀ m, m ≠ n → t.levelA m = s.levelA m ∧ t.levelB m = s.levelB m) ∧
      t = { s with pwmLevelA := t.pwmLevelA, pwmLevelB := t.pwmLevelB }) ∧
    (∀ v, ¬Configured s n →
      memWrite s (pwmCcAddr s.config n) .word v = .error ⟨.unimplementedPeripheral, pwmCcAddr s.config n⟩)

/-- R266, R267: a write of EN sets the flag of every slice from its bit at once, whatever is available, and changes
nothing else; a read gives the flags and zeros above them; after an all-ones write every configured slice is enabled. -/
def Obligations.PwmEnableMask : Prop :=
  ∀ s : State, s.Shaped → Reachable s.config (pwmEnAddr s.config) →
    (∃ v, memRead s (pwmEnAddr s.config) .word = .ok v ∧
      (∀ n, n < s.config.numSlices → v.getLsbD n = s.sliceEnabled n) ∧
      ∀ k, s.config.numSlices ≤ k → v.getLsbD k = false) ∧
    (∀ v, ∃ t, memWrite s (pwmEnAddr s.config) .word v = .ok t ∧
      (∀ n, n < s.config.numSlices → t.sliceEnabled n = v.getLsbD n) ∧ t = { s with pwmEnabled := t.pwmEnabled }) ∧
    (∀ t, memWrite s (pwmEnAddr s.config) .word 0xFFFFFFFF#32 = .ok t →
      ∀ n, n < s.config.numSlices → Configured s n → sliceEnabledAndConfigured t n = true)

/-- R261, R262: the slice and channel of a pin; a slice is available exactly when one of its pins has the PWM function;
none is after load, slices 8 and up never are; a write of a pin's function makes its slice available or, when it was the
last one, not, and keeps levels and flags. -/
def Obligations.SliceAvailability : Prop :=
  (∀ p, sliceOf p = p / 2 % 8 ∧ (channelOf p = .A ↔ p % 2 = 0)) ∧
  (∀ s n, pwmAvailable s n = true ↔ Configured s n) ∧
  (∀ c image entry s n, c.wf = true → load c image entry = .ok s → ¬Configured s n) ∧
  (∀ s n, 8 ≤ n → ¬Configured s n) ∧
  (∀ s t p n v, s.Shaped → p < s.config.numPins → p / 2 % 8 = n →
    memWrite s (gpioCtrlAddr s.config p) .word v = .ok t → Reachable s.config (gpioCtrlAddr s.config p) →
    t.pwmLevelA = s.pwmLevelA ∧ t.pwmLevelB = s.pwmLevelB ∧ t.pwmEnabled = s.pwmEnabled ∧
    (v.toNat = s.config.funcPwm → Configured t n) ∧
    (v.toNat ≠ s.config.funcPwm →
      (∀ q, q < s.config.numPins → q ≠ p → q / 2 % 8 = n → (s.pinFunc q).toNat ≠ s.config.funcPwm) →
      ¬Configured t n))

/-- R270: the two timer words are the halves of the counter, as it stood when the reading instruction began and without
latching, and k completed instructions later the counter is k * TICKS_PER_INSTR further. -/
def Obligations.TimerReadsCountInstructions : Prop :=
  (∀ s : State, s.config.wf = true →
    (Reachable s.config (timeRawLAddr s.config) →
      memRead s (timeRawLAddr s.config) .word = .ok (BitVec.ofNat 32 s.timer.toNat)) ∧
    (Reachable s.config (timeRawHAddr s.config) →
      memRead s (timeRawHAddr s.config) .word = .ok (BitVec.ofNat 32 (s.timer.toNat / 2 ^ 32)))) ∧
  (∀ k s t, s.config.wf = true → Steps k s t → t.mode = .running →
    (Reachable s.config (timeRawLAddr s.config) → memRead t (timeRawLAddr s.config) .word =
      .ok (BitVec.ofNat 32 (s.timer.toNat + k * s.config.ticksPerInstr))) ∧
    (Reachable s.config (timeRawHAddr s.config) → memRead t (timeRawHAddr s.config) .word =
      .ok (BitVec.ofNat 32 ((s.timer.toNat + k * s.config.ticksPerInstr) % 2 ^ 64 / 2 ^ 32)))) ∧
  TimerLoadsReadBeforeTheirTick

/-- R34, R271, R272: the counter changes in two ways only, the tick of a completed instruction and TimerWaitUntil, which
raises it to the target and changes nothing else; a write of either word is refused. -/
def Obligations.TimerChangesOnlyByTickOrWait : Prop :=
  (∀ s t, step s = .next t → t.timer = s.timer ∨
    t.timer = s.timer + BitVec.ofNat 64 s.config.ticksPerInstr ∧ s.mode = .running ∧ t.mode = .running) ∧
  (∀ s a w v t, memWrite s a w v = .ok t → t.timer = s.timer) ∧
  (∀ s target, (timerWaitUntil s target).timer.toNat = max s.timer.toNat target.toNat ∧
    timerWaitUntil s target = { s with timer := (timerWaitUntil s target).timer }) ∧
  (∀ s (n : BitVec 64), s.timer.toNat + n.toNat < 2 ^ 64 →
    s.timer.toNat + n.toNat ≤ (timerWaitUntil s (s.timer + n)).timer.toNat) ∧
  (∀ s a v, s.config.wf = true → (a = timeRawLAddr s.config ∨ a = timeRawHAddr s.config) → insideIo s.config a .word →
    memWrite s a .word v = .error ⟨.unimplementedPeripheral, a⟩)

/-! ### The debug trap and the host -/

/-- Derived from R240: EBREAK is the one word, sets the mode to Halted and does nothing else; the halt is terminal, and a
run whose last permitted step decodes it reports Halted. The state a run returns has the cycle count 0: that is the
model's choice (DESIGN CHOICE, log entry 5). -/
def Obligations.EbreakHalts : Prop :=
  IsRow 0xFFFFFFFF#32 0x00100073#32 (fun _ => .ebreak) ∧
  (∀ s, exec .ebreak s = .next { s with mode := .halted }) ∧
  (∀ s, s.mode = .running → fetch s = .ok 0x00100073#32 → step s = .next { s with mode := .halted } ∧
    run 1 s = .next (.halted, { s with mode := .halted, cycles := 0 })) ∧
  (∀ s n, s.mode = .halted → step s = .next s ∧ run n s = .next (.halted, { s with cycles := 0 }))

/-- R348: the cycle count is local to one run: no step reads it or changes it, and a run's result does not depend on
what it was before. -/
def Obligations.CycleCountIsLocalToRun : Prop :=
  (∀ s t n, step s = .next t → t.cycles = s.cycles ∧ step { s with cycles := n } = .next { t with cycles := n }) ∧
  (∀ s k n, run k { s with cycles := n } = run k s)

/-- Derived from R347 and R349: run takes k steps in mode Running, k at most the cap, and returns exactly one of three
outcomes: Halted or Faulted with the record when that mode is reached, Cycle-limit exceeded only when it is not and all
the permitted steps were taken. The state returned has the cycle count 0: that is the model's choice (DESIGN CHOICE, log entry 5). -/
def Obligations.RunOutcome : Prop :=
  ∀ n s, ∃ k t result, k ≤ n ∧ Steps k s t ∧ run n s = .next (result, { t with cycles := 0 }) ∧
    (result = .halted ∧ t.mode = .halted ∨ result = .faulted t.fault ∧ t.mode = .faulted ∨
      result = .cycleLimitExceeded ∧ t.mode = .running ∧ k = n)

/-- R350: after Cycle-limit exceeded the session is intact: run(a) then run(b) is run(a+b). It fixes no value of the cycle
count: it says that both leave the same one (R348 discards it; the value is log entry 5's). -/
def Obligations.RunResumes : Prop :=
  ∀ a b s t, run a s = .next (.cycleLimitExceeded, t) → t.mode = .running ∧ run b t = run (a + b) s

/-- R352: the snapshot is the registers with x0 as 0, the pc, the mode, the record, every pin as its function mode, the
levels and flags, the timer and RAM, as they stand. -/
def Obligations.InspectShowsState : Prop :=
  ∀ s : State, s.Shaped →
    (∀ r : Reg, (inspect s).x[r] = s.readReg r) ∧ (inspect s).pc = s.pc ∧ (inspect s).mode = s.mode ∧
    (inspect s).fault = s.fault ∧ (inspect s).gpio.length = s.config.numPins ∧
    (∀ p, p < s.config.numPins →
      ((inspect s).gpio[p]? = some (some .pwm) ↔ (s.pinFunc p).toNat = s.config.funcPwm) ∧
      ((inspect s).gpio[p]? = some (some .digitalIO) ↔ (s.pinFunc p).toNat = s.config.funcDio) ∧
      ((inspect s).gpio[p]? = some (some .unassigned) ↔ (s.pinFunc p).toNat = s.config.funcNull)) ∧
    (∀ n, n < s.config.numSlices → (inspect s).levelA[n]? = some (s.levelA n) ∧
      (inspect s).levelB[n]? = some (s.levelB n) ∧ (inspect s).enabled[n]? = some (s.sliceEnabled n)) ∧
    (inspect s).timer = s.timer ∧ ∀ a, (inspect s).ram.read a = s.ram.read a

/-! ### The configuration record -/

/-- Derived from R7, R8, R340 and R341: the machine takes one configuration record. Every parameter has its default in the default record, at which every
register's address is reached by an aligned access; a session is created with any record, and refused exactly when R8
refuses the record or load the image and entry; the session it creates holds that record, and no step, bus write, wait
of the timer or run changes it. (That the record stands in State is the model's form: DESIGN CHOICE, log entry 20.) -/
def Obligations.ConfigurationRecord : Prop :=
  (defaultConfig.xlen = 32 ∧ defaultConfig.nregs = 32 ∧ defaultConfig.ilen = 32 ∧
    defaultConfig.ramBase = 0x20000000 ∧ defaultConfig.ramSize = 0x00082000 ∧
    defaultConfig.loadAddr = defaultConfig.ramBase ∧
    defaultConfig.ioBase = 0x40000000 ∧ defaultConfig.ioSize = 0x10000000 ∧
    defaultConfig.gpioBase = 0x40028000 ∧ defaultConfig.gpioSize = 0x1000 ∧
    defaultConfig.numPins = 30 ∧ (∀ p, p < 30 → defaultConfig.gpioOff p = 0x004 + 8 * p) ∧
    defaultConfig.funcPwm = 4 ∧ defaultConfig.funcDio = 5 ∧ defaultConfig.funcNull = 31 ∧
    defaultConfig.pwmBase = 0x400A8000 ∧ defaultConfig.pwmSize = 0x1000 ∧
    defaultConfig.numSlices = 12 ∧ (∀ n, n < 12 → defaultConfig.pwmOff n = 0x0C + 0x14 * n) ∧
    defaultConfig.pwmEnOff = 0xF0 ∧ defaultConfig.pwmWrap = 0xFFFF ∧
    defaultConfig.timerBase = 0x400B0000 ∧ defaultConfig.timerSize = 0x1000 ∧
    defaultConfig.timerRawhOff = 0x24 ∧ defaultConfig.timerRawlOff = 0x28 ∧ defaultConfig.ticksPerInstr = 1) ∧
  (∀ a, isRegisterAddr defaultConfig a → Reachable defaultConfig a) ∧
  (∀ (c : Config) image entry, (∃ s, createSession c image entry = .ok s) ↔
    c.wf = true ∧ c.loadAddr + image.length ≤ c.ramBase + c.ramSize ∧ insideRam c entry .word) ∧
  (∀ c image entry s, createSession c image entry = .ok s → s.config = c ∧ s.Inv ∧ load c image entry = .ok s) ∧
  (∀ s t, step s = .next t → t.config = s.config) ∧
  (∀ s a w v t, memWrite s a w v = .ok t → t.config = s.config) ∧
  (∀ s target, (timerWaitUntil s target).config = s.config) ∧
  (∀ n s r t, run n s = .next (r, t) → t.config = s.config)
end

