-- ==== Sys2Proof/Laws/Config.lean ====
section
/-! SUPPORT. What well-formedness of a configuration gives, in the arithmetic the bus laws use: regions and sub-windows
apart and inside, offsets inside and pairwise different, codes of five bits and pairwise different. -/

namespace Sys2Proof

/-- The clauses of R8 with the emptiness of ranges decided: every range of a well-formed configuration has an address. -/
structure Config.Facts (c : Config) : Prop where
  ramFits : c.ramBase + c.ramSize ≤ 2 ^ 32
  ioFits : c.ioBase + c.ioSize ≤ 2 ^ 32
  regionsApart : c.ramBase + c.ramSize ≤ c.ioBase ∨ c.ioBase + c.ioSize ≤ c.ramBase
  gpioInside : c.ioBase ≤ c.gpioBase ∧ c.gpioBase + c.gpioSize ≤ c.ioBase + c.ioSize
  pwmInside : c.ioBase ≤ c.pwmBase ∧ c.pwmBase + c.pwmSize ≤ c.ioBase + c.ioSize
  timerInside : c.ioBase ≤ c.timerBase ∧ c.timerBase + c.timerSize ≤ c.ioBase + c.ioSize
  gpioPwm : c.gpioBase + c.gpioSize ≤ c.pwmBase ∨ c.pwmBase + c.pwmSize ≤ c.gpioBase
  gpioTimer : c.gpioBase + c.gpioSize ≤ c.timerBase ∨ c.timerBase + c.timerSize ≤ c.gpioBase
  pwmTimer : c.pwmBase + c.pwmSize ≤ c.timerBase ∨ c.timerBase + c.timerSize ≤ c.pwmBase
  gpioOff : ∀ p, p < c.numPins → c.gpioOff p % 4 = 0 ∧ c.gpioOff p < c.gpioSize
  gpioOffInj : ∀ p q, p < c.numPins → q < c.numPins → c.gpioOff p = c.gpioOff q → p = q
  pwmEn : c.pwmEnOff % 4 = 0 ∧ c.pwmEnOff < c.pwmSize
  pwmOff : ∀ n, n < c.numSlices → c.pwmOff n % 4 = 0 ∧ c.pwmOff n < c.pwmSize ∧ c.pwmOff n ≠ c.pwmEnOff
  pwmOffInj : ∀ n m, n < c.numSlices → m < c.numSlices → c.pwmOff n = c.pwmOff m → n = m
  timerH : c.timerRawhOff % 4 = 0 ∧ c.timerRawhOff < c.timerSize
  timerL : c.timerRawlOff % 4 = 0 ∧ c.timerRawlOff < c.timerSize
  timerApart : c.timerRawhOff ≠ c.timerRawlOff
  loadAddr : c.ramBase ≤ c.loadAddr ∧ c.loadAddr < c.ramBase + c.ramSize
  pwmCode : c.funcPwm < 32
  dioCode : c.funcDio < 32
  nullCode : c.funcNull < 32
  codesDiffer : c.funcPwm ≠ c.funcDio ∧ c.funcPwm ≠ c.funcNull ∧ c.funcDio ≠ c.funcNull
  numSlices : c.numSlices ≤ 32
  numPins : 2 ≤ c.numPins
  ticks : 1 ≤ c.ticksPerInstr

theorem rangesDisjoint_of_nonempty {b n b' n' : Nat} (h : rangesDisjoint b n b' n' = true) (hn : 0 < n) (hn' : 0 < n') :
    b + n ≤ b' ∨ b' + n' ≤ b := by
  simp only [rangesDisjoint, Bool.or_eq_true, beq_iff_eq, decide_eq_true_eq] at h
  omega

theorem rangeInside_of_nonempty {b n b' n' : Nat} (h : rangeInside b n b' n' = true) (hn : 0 < n) :
    b' ≤ b ∧ b + n ≤ b' + n' := by
  simp only [rangeInside, Bool.or_eq_true, Bool.and_eq_true, beq_iff_eq, decide_eq_true_eq] at h
  omega

theorem offsetsOk_getD {size : Nat} {offs : List Nat} (h : offsetsOk size offs = true) {i : Nat} (hi : i < offs.length) :
    offs.getD i 0 % 4 = 0 ∧ offs.getD i 0 < size := by
  simp only [offsetsOk, Bool.and_eq_true, List.all_eq_true, beq_iff_eq, decide_eq_true_eq] at h
  rw [List.getD_eq_getElem _ _ hi]
  exact h.1 _ (List.getElem_mem hi)

theorem offsetsOk_inj {size : Nat} {offs : List Nat} (h : offsetsOk size offs = true) {i j : Nat} (hi : i < offs.length)
    (hj : j < offs.length) (hij : offs.getD i 0 = offs.getD j 0) : i = j := by
  simp only [offsetsOk, Bool.and_eq_true, decide_eq_true_eq] at h
  rw [List.getD_eq_getElem _ _ hi, List.getD_eq_getElem _ _ hj] at hij
  exact (List.Nodup.getElem_inj_iff h.2).1 hij

theorem Config.facts {c : Config} (h : c.wf = true) : c.Facts := by
  simp only [Config.wf, ConfigClause.all, List.all_cons, List.all_nil, Bool.and_true, Bool.and_eq_true,
    ConfigClause.holds, decide_eq_true_eq, beq_iff_eq, bne_iff_ne] at h
  obtain ⟨⟨hram, hio⟩, hreg, ⟨⟨⟨⟨⟨hgi, hpi⟩, hti⟩, hgp⟩, hgt⟩, hpt⟩, ⟨⟨⟨⟨hlg, hlp⟩, hog⟩, hop⟩, hot⟩, hload,
    ⟨⟨⟨⟨⟨hf1, hf2⟩, hf3⟩, hd1⟩, hd2⟩, hd3⟩, ⟨⟨hns, hnp⟩, htk⟩, -⟩ := h
  have hg (p : Nat) (hp : p < c.numPins) : c.gpioOff p % 4 = 0 ∧ c.gpioOff p < c.gpioSize :=
    offsetsOk_getD hog (by omega)
  have he : c.pwmEnOff % 4 = 0 ∧ c.pwmEnOff < c.pwmSize := offsetsOk_getD (i := 0) hop (by simp)
  have hs (n : Nat) (hn : n < c.numSlices) : c.pwmOff n % 4 = 0 ∧ c.pwmOff n < c.pwmSize :=
    offsetsOk_getD (i := n + 1) hop (by simp; omega)
  have hH : c.timerRawhOff % 4 = 0 ∧ c.timerRawhOff < c.timerSize := offsetsOk_getD (i := 0) hot (by simp)
  have hL : c.timerRawlOff % 4 = 0 ∧ c.timerRawlOff < c.timerSize := offsetsOk_getD (i := 1) hot (by simp)
  have hgs : 0 < c.gpioSize := by have := hg 0 (by omega); omega
  have hgin := rangeInside_of_nonempty hgi hgs
  exact {
    ramFits := hram
    ioFits := hio
    regionsApart := rangesDisjoint_of_nonempty hreg (by omega) (by omega)
    gpioInside := hgin
    pwmInside := rangeInside_of_nonempty hpi (by omega)
    timerInside := rangeInside_of_nonempty hti (by omega)
    gpioPwm := rangesDisjoint_of_nonempty hgp hgs (by omega)
    gpioTimer := rangesDisjoint_of_nonempty hgt hgs (by omega)
    pwmTimer := rangesDisjoint_of_nonempty hpt (by omega) (by omega)
    gpioOff := hg
    gpioOffInj := fun p q hp hq e => offsetsOk_inj hog (by omega) (by omega) e
    pwmEn := he
    pwmOff := fun n hn => ⟨(hs n hn).1, (hs n hn).2, fun e => by
      have := offsetsOk_inj (i := n + 1) (j := 0) hop (by simp; omega) (by simp) e
      omega⟩
    pwmOffInj := fun n m hn hm e => by
      have := offsetsOk_inj (i := n + 1) (j := m + 1) hop (by simp; omega) (by simp; omega) e
      omega
    timerH := hH
    timerL := hL
    timerApart := fun e => by
      have := offsetsOk_inj (i := 0) (j := 1) hot (by simp) (by simp) e
      omega
    loadAddr := hload
    pwmCode := hf1
    dioCode := hf2
    nullCode := hf3
    codesDiffer := ⟨hd1, hd2, hd3⟩
    numSlices := hns
    numPins := hnp
    ticks := htk }

/-- The 5-bit code of each function is the parameter's own value. -/
theorem Config.Facts.toNat_pwmCode {c : Config} (h : c.Facts) : c.pwmCode.toNat = c.funcPwm := by
  simpa [Config.pwmCode] using h.pwmCode
theorem Config.Facts.toNat_dioCode {c : Config} (h : c.Facts) : c.dioCode.toNat = c.funcDio := by
  simpa [Config.dioCode] using h.dioCode
theorem Config.Facts.toNat_nullCode {c : Config} (h : c.Facts) : c.nullCode.toNat = c.funcNull := by
  simpa [Config.nullCode] using h.nullCode

end Sys2Proof
end

