-- ==== Sys2Proof/Laws/Memory.lean ====
section
/-! SUPPORT. RAM: read after write, and every operation keeps the canonical form. -/

namespace Sys2Proof.Machine

/-! ### Read after write -/

theorem Memory.read_cons (k : Nat) (b : Byte) (m : Memory) (a : Nat) :
    Memory.read ((k, b) :: m) a = if k = a then b else Memory.read m a := rfl

theorem Memory.read_of_absent {m : Memory} {a : Nat} (h : ∀ c ∈ m, c.1 ≠ a) : m.read a = Memory.unlisted := by
  induction m with
  | nil => rfl
  | cons c m ih =>
    obtain ⟨k, b⟩ := c
    rw [Memory.read_cons, if_neg (h (k, b) (by simp)), ih fun c hc => h c (by simp [hc])]

theorem Memory.read_erase (m : Memory) (a x : Nat) :
    (m.erase a).read x = if x = a then Memory.unlisted else m.read x := by
  induction m with
  | nil => simp [Memory.erase, Memory.read]
  | cons c m ih =>
    obtain ⟨k, b⟩ := c
    simp only [Memory.erase] at ih ⊢
    by_cases hk : k = a
    · rw [List.filter_cons_of_neg (by simp [hk]), ih, Memory.read_cons]
      grind
    · rw [List.filter_cons_of_pos (by simp [hk]), Memory.read_cons, ih, Memory.read_cons]
      grind

theorem Memory.read_insert {m : Memory} {a : Nat} (h : ∀ c ∈ m, c.1 ≠ a) (b : Byte) (x : Nat) :
    (m.insert a b).read x = if x = a then b else m.read x := by
  induction m with
  | nil => simp [Memory.insert, Memory.read, eq_comm]
  | cons c m ih =>
    obtain ⟨k, v⟩ := c
    have hk : k ≠ a := h (k, v) (by simp)
    have ih := ih fun c hc => h c (by simp [hc])
    simp only [Memory.insert]
    split
    · rw [Memory.read_cons]
      grind
    · rw [Memory.read_cons, ih, Memory.read_cons]
      grind

theorem Memory.absent_erase (m : Memory) (a : Nat) : ∀ c ∈ m.erase a, c.1 ≠ a := by
  simp [Memory.erase]

/-- A write is read back at its own address, and every other address reads as before. -/
theorem Memory.read_write (m : Memory) (a : Nat) (b : Byte) (x : Nat) :
    (m.write a b).read x = if x = a then b else m.read x := by
  unfold Memory.write
  split
  · next h => rw [Memory.read_erase, h]
  · rw [Memory.read_insert (m.absent_erase a), Memory.read_erase]
    split <;> rfl

/-- The bytes of a write of any width, and everything else as before. -/
theorem Memory.read_writeWidth (m : Memory) (a : Nat) (v : Word) (w : Width) (x : Nat) :
    (m.writeWidth a v w).read x =
      if a ≤ x ∧ x < a + w.bytes then v.extractLsb' (8 * (x - a)) 8 else m.read x := by
  by_cases h : a ≤ x ∧ x < a + w.bytes
  · obtain ⟨d, rfl⟩ := Nat.exists_eq_add_of_le h.1
    rw [if_pos h]
    cases w
    · obtain rfl : d = 0 := by simp only [Width.bytes] at h; omega
      simp [Memory.writeWidth, Memory.read_write]
    · obtain rfl | rfl : d = 0 ∨ d = 1 := by simp only [Width.bytes] at h; omega
      all_goals simp [Memory.writeWidth, Memory.read_write]
    · obtain rfl | rfl | rfl | rfl : d = 0 ∨ d = 1 ∨ d = 2 ∨ d = 3 := by
        simp only [Width.bytes] at h; omega
      all_goals simp [Memory.writeWidth, Memory.read_write]
  · rw [if_neg h]
    cases w <;> simp only [Width.bytes] at h <;> simp only [Memory.writeWidth, Memory.read_write] <;>
      (repeat rw [if_neg (by omega)])

/-- A read of the width just written at the same address gives the low 8n bits back. -/
theorem Memory.readWidth_writeWidth_word (m : Memory) (a : Nat) (v : Word) :
    (m.writeWidth a v .word).readWidth a .word = v := by
  have h (d : Nat) (hd : d < 4) : (m.writeWidth a v .word).read (a + d) = v.extractLsb' (8 * d) 8 := by
    rw [Memory.read_writeWidth, if_pos ⟨by omega, by simp only [Width.bytes]; omega⟩, Nat.add_sub_cancel_left]
  have h0 := h 0 (by omega)
  simp only [Memory.readWidth, h 1 (by omega), h 2 (by omega), h 3 (by omega), Nat.add_zero] at h0 ⊢
  rw [h0]
  apply BitVec.eq_of_toNat_eq
  simp only [BitVec.toNat_append, BitVec.extractLsb'_toNat, Nat.shiftRight_eq_div_pow]
  have := v.isLt
  rw [← Nat.shiftLeft_add_eq_or_of_lt (by omega), ← Nat.shiftLeft_add_eq_or_of_lt (by omega),
    ← Nat.shiftLeft_add_eq_or_of_lt (by omega)]
  simp only [Nat.shiftLeft_eq]
  omega

/-! ### The canonical form -/

theorem Memory.wf_iff (m : Memory) :
    m.wf = true ↔ m.Pairwise (fun c d => c.1 < d.1) ∧ ∀ c ∈ m, c.2 ≠ Memory.unlisted := by
  simp [Memory.wf]

theorem Memory.wf_erase {m : Memory} (h : m.wf = true) (a : Nat) : (m.erase a).wf = true := by
  rw [Memory.wf_iff] at h ⊢
  exact ⟨h.1.filter _, fun c hc => h.2 c (List.mem_of_mem_filter hc)⟩

theorem Memory.mem_insert {m : Memory} {a : Nat} {b : Byte} {c : Host.Cell} :
    c ∈ m.insert a b ↔ c = (a, b) ∨ c ∈ m := by
  induction m with
  | nil => simp [Memory.insert]
  | cons d m ih =>
    obtain ⟨k, v⟩ := d
    simp only [Memory.insert]
    split
    · simp
    · simp only [List.mem_cons, ih]
      tauto

theorem Memory.wf_insert {m : Memory} (h : m.wf = true) {a : Nat} (ha : ∀ c ∈ m, c.1 ≠ a) {b : Byte}
    (hb : b ≠ Memory.unlisted) : (m.insert a b).wf = true := by
  rw [Memory.wf_iff] at h ⊢
  refine ⟨?_, fun c hc => ?_⟩
  · have hp := h.1
    clear h
    induction m with
    | nil => simp [Memory.insert]
    | cons d m ih =>
      obtain ⟨k, v⟩ := d
      rw [List.pairwise_cons] at hp
      simp only [Memory.insert]
      split
      · next hlt =>
        refine List.pairwise_cons.2 ⟨fun c hc => ?_, List.pairwise_cons.2 hp⟩
        rcases List.mem_cons.1 hc with rfl | hc
        · exact hlt
        · exact Nat.lt_trans hlt (hp.1 c hc)
      · next hlt =>
        have hk : k ≠ a := ha (k, v) (by simp)
        refine List.pairwise_cons.2 ⟨fun c hc => ?_, ih (fun c hc => ha c (by simp [hc])) hp.2⟩
        rcases Memory.mem_insert.1 hc with rfl | hc
        · show k < a
          omega
        · exact hp.1 c hc
  · rcases Memory.mem_insert.1 hc with rfl | hc
    · exact hb
    · exact h.2 c hc

/-- A byte write keeps the canonical form. -/
theorem Memory.wf_write {m : Memory} (h : m.wf = true) (a : Nat) (b : Byte) : (m.write a b).wf = true := by
  unfold Memory.write
  split
  · exact Memory.wf_erase h a
  · next hb => exact Memory.wf_insert (Memory.wf_erase h a) (m.absent_erase a) hb

/-- A write of any width keeps the canonical form. -/
theorem Memory.wf_writeWidth {m : Memory} (h : m.wf = true) (a : Nat) (v : Word) (w : Width) :
    (m.writeWidth a v w).wf = true := by
  cases w
  · exact Memory.wf_write h _ _
  · exact Memory.wf_write (Memory.wf_write h _ _) _ _
  · exact Memory.wf_write (Memory.wf_write (Memory.wf_write (Memory.wf_write h _ _) _ _) _ _) _ _

/-- The addresses a byte write can list. -/
theorem Memory.mem_write {m : Memory} {a : Nat} {b : Byte} {c : Host.Cell} (h : c ∈ m.write a b) :
    c.1 = a ∨ c ∈ m := by
  unfold Memory.write at h
  split at h
  · exact .inr (List.mem_of_mem_filter h)
  · rcases Memory.mem_insert.1 h with rfl | h
    · exact .inl rfl
    · exact .inr (List.mem_of_mem_filter h)

/-- The addresses a write of any width can list. -/
theorem Memory.mem_writeWidth {m : Memory} {a : Nat} {v : Word} {w : Width} {c : Host.Cell}
    (h : c ∈ m.writeWidth a v w) : (a ≤ c.1 ∧ c.1 < a + w.bytes) ∨ c ∈ m := by
  cases w <;> simp only [Memory.writeWidth, Width.bytes] at h ⊢
  · rcases Memory.mem_write h with h | h
    · exact .inl ⟨by omega, by omega⟩
    · exact .inr h
  · rcases Memory.mem_write h with h | h
    · exact .inl ⟨by omega, by omega⟩
    rcases Memory.mem_write h with h | h
    · exact .inl ⟨by omega, by omega⟩
    · exact .inr h
  · rcases Memory.mem_write h with h | h
    · exact .inl ⟨by omega, by omega⟩
    rcases Memory.mem_write h with h | h
    · exact .inl ⟨by omega, by omega⟩
    rcases Memory.mem_write h with h | h
    · exact .inl ⟨by omega, by omega⟩
    rcases Memory.mem_write h with h | h
    · exact .inl ⟨by omega, by omega⟩
    · exact .inr h

/-! ### An image (R340) -/

theorem Memory.mem_ofImage {image : List Byte} {a : Nat} {c : Host.Cell} (h : c ∈ Memory.ofImage a image) :
    a ≤ c.1 ∧ c.1 < a + image.length ∧ c.2 ≠ Memory.unlisted := by
  induction image generalizing a with
  | nil => simp [Memory.ofImage] at h
  | cons b rest ih =>
    simp only [Memory.ofImage, List.length_cons] at h ⊢
    split at h
    · have := ih h
      exact ⟨by omega, by omega, this.2.2⟩
    · next hb =>
      rcases List.mem_cons.1 h with rfl | h
      · exact ⟨Nat.le_refl _, by simp, hb⟩
      · have := ih h
        exact ⟨by omega, by omega, this.2.2⟩

theorem Memory.wf_ofImage (image : List Byte) (a : Nat) : (Memory.ofImage a image).wf = true := by
  rw [Memory.wf_iff]
  refine ⟨?_, fun c hc => (Memory.mem_ofImage hc).2.2⟩
  induction image generalizing a with
  | nil => simp [Memory.ofImage]
  | cons b rest ih =>
    simp only [Memory.ofImage]
    split
    · exact ih _
    · exact List.pairwise_cons.2 ⟨fun c hc => by have := Memory.mem_ofImage hc; show a < c.1; omega, ih _⟩

/-- An image's bytes stand at consecutive addresses, and everything else reads as unlisted. -/
theorem Memory.read_ofImage (image : List Byte) (a x : Nat) :
    (Memory.ofImage a image).read x =
      if a ≤ x then image.getD (x - a) Memory.unlisted else Memory.unlisted := by
  induction image generalizing a with
  | nil => simp [Memory.ofImage, Memory.read]
  | cons b rest ih =>
    simp only [Memory.ofImage]
    by_cases hx : x = a
    · subst hx
      split
      · next hb =>
        rw [ih, if_neg (by omega)]
        simp [hb]
      · simp [Memory.read_cons]
    · have htail : (Memory.ofImage (a + 1) rest).read x =
          if a ≤ x then (b :: rest).getD (x - a) Memory.unlisted else Memory.unlisted := by
        rw [ih]
        by_cases h : a + 1 ≤ x
        · obtain ⟨d, rfl⟩ := Nat.exists_eq_add_of_le h
          rw [if_pos h, if_pos (by omega), show a + 1 + d - a = d + 1 by omega,
            show a + 1 + d - (a + 1) = d by omega, List.getD_cons_succ]
        · rw [if_neg h, if_neg (by omega)]
      split
      · exact htail
      · rw [Memory.read_cons, if_neg (fun e => hx e.symm), htail]

/-- A read of n bytes is their little-endian value (R66). -/
theorem Memory.toNat_readWidth (m : Memory) (a : Nat) (w : Width) :
    (m.readWidth a w).toNat = leValue m a w.bytes := by
  have append {n k : Nat} (x : BitVec n) (y : BitVec k) : (x ++ y).toNat = x.toNat * 2 ^ k + y.toNat := by
    rw [BitVec.toNat_append, ← Nat.shiftLeft_add_eq_or_of_lt y.isLt, Nat.shiftLeft_eq]
  have h0 := (m.read a).isLt
  have h1 := (m.read (a + 1)).isLt
  cases w
  · simp only [Memory.readWidth, Width.bytes, leValue, BitVec.toNat_setWidth]
    omega
  · simp only [Memory.readWidth, Width.bytes, leValue, BitVec.toNat_setWidth, append]
    omega
  · simp only [Memory.readWidth, Width.bytes, leValue, append, Nat.add_assoc, Nat.reduceAdd]
    omega

end Sys2Proof.Machine
end

