-- ==== Sys2Proof/Laws/State.lean ====
section
/-! SUPPORT. One lemma a field for each update of State, and the register file's laws. -/

namespace Sys2Proof.Machine

/-! ### The end of an instruction -/

@[simp] theorem complete_config (s : State) (next : Word) : (s.complete next).config = s.config := rfl
@[simp] theorem complete_regs (s : State) (next : Word) : (s.complete next).regs = s.regs := rfl
@[simp] theorem complete_pc (s : State) (next : Word) : (s.complete next).pc = next := rfl
@[simp] theorem complete_mode (s : State) (next : Word) : (s.complete next).mode = s.mode := rfl
@[simp] theorem complete_fault (s : State) (next : Word) : (s.complete next).fault = s.fault := rfl
@[simp] theorem complete_ram (s : State) (next : Word) : (s.complete next).ram = s.ram := rfl
@[simp] theorem complete_gpioFunc (s : State) (next : Word) : (s.complete next).gpioFunc = s.gpioFunc := rfl
@[simp] theorem complete_pwmLevelA (s : State) (next : Word) : (s.complete next).pwmLevelA = s.pwmLevelA := rfl
@[simp] theorem complete_pwmLevelB (s : State) (next : Word) : (s.complete next).pwmLevelB = s.pwmLevelB := rfl
@[simp] theorem complete_pwmEnabled (s : State) (next : Word) : (s.complete next).pwmEnabled = s.pwmEnabled := rfl
@[simp] theorem complete_timer (s : State) (next : Word) : (s.complete next).timer = ticked s := rfl
@[simp] theorem complete_cycles (s : State) (next : Word) : (s.complete next).cycles = s.cycles := rfl

/-! ### Entry to Faulted and to Halted -/

@[simp] theorem enterFaulted_config (s : State) (k : FaultKind) (a w : Option Word) :
    (s.enterFaulted k a w).config = s.config := rfl
@[simp] theorem enterFaulted_regs (s : State) (k : FaultKind) (a w : Option Word) :
    (s.enterFaulted k a w).regs = s.regs := rfl
@[simp] theorem enterFaulted_pc (s : State) (k : FaultKind) (a w : Option Word) :
    (s.enterFaulted k a w).pc = s.pc := rfl
@[simp] theorem enterFaulted_mode (s : State) (k : FaultKind) (a w : Option Word) :
    (s.enterFaulted k a w).mode = .faulted := rfl
@[simp] theorem enterFaulted_fault (s : State) (k : FaultKind) (a w : Option Word) :
    (s.enterFaulted k a w).fault = some ⟨k, s.pc, a, w⟩ := rfl
@[simp] theorem enterFaulted_ram (s : State) (k : FaultKind) (a w : Option Word) :
    (s.enterFaulted k a w).ram = s.ram := rfl
@[simp] theorem enterFaulted_gpioFunc (s : State) (k : FaultKind) (a w : Option Word) :
    (s.enterFaulted k a w).gpioFunc = s.gpioFunc := rfl
@[simp] theorem enterFaulted_pwmLevelA (s : State) (k : FaultKind) (a w : Option Word) :
    (s.enterFaulted k a w).pwmLevelA = s.pwmLevelA := rfl
@[simp] theorem enterFaulted_pwmLevelB (s : State) (k : FaultKind) (a w : Option Word) :
    (s.enterFaulted k a w).pwmLevelB = s.pwmLevelB := rfl
@[simp] theorem enterFaulted_pwmEnabled (s : State) (k : FaultKind) (a w : Option Word) :
    (s.enterFaulted k a w).pwmEnabled = s.pwmEnabled := rfl
@[simp] theorem enterFaulted_timer (s : State) (k : FaultKind) (a w : Option Word) :
    (s.enterFaulted k a w).timer = s.timer := rfl
@[simp] theorem enterFaulted_cycles (s : State) (k : FaultKind) (a w : Option Word) :
    (s.enterFaulted k a w).cycles = s.cycles := rfl
@[simp] theorem halt_config (s : State) : s.halt.config = s.config := rfl
@[simp] theorem halt_regs (s : State) : s.halt.regs = s.regs := rfl
@[simp] theorem halt_pc (s : State) : s.halt.pc = s.pc := rfl
@[simp] theorem halt_mode (s : State) : s.halt.mode = .halted := rfl
@[simp] theorem halt_fault (s : State) : s.halt.fault = s.fault := rfl
@[simp] theorem halt_ram (s : State) : s.halt.ram = s.ram := rfl
@[simp] theorem halt_gpioFunc (s : State) : s.halt.gpioFunc = s.gpioFunc := rfl
@[simp] theorem halt_pwmLevelA (s : State) : s.halt.pwmLevelA = s.pwmLevelA := rfl
@[simp] theorem halt_pwmLevelB (s : State) : s.halt.pwmLevelB = s.pwmLevelB := rfl
@[simp] theorem halt_pwmEnabled (s : State) : s.halt.pwmEnabled = s.pwmEnabled := rfl
@[simp] theorem halt_timer (s : State) : s.halt.timer = s.timer := rfl
@[simp] theorem halt_cycles (s : State) : s.halt.cycles = s.cycles := rfl

theorem fetchFault_eq (s : State) (e : BusFault) : s.fetchFault e = afterFault s (.bus e.kind) (some e.addr) none := rfl
theorem decodeFault_eq (s : State) (w : Word) : s.decodeFault w = afterFault s .decode none (some w) := rfl
theorem executeFault_eq (s : State) (e : BusFault) (i : Instr) :
    s.executeFault e i = afterFault s (.bus e.kind) (some e.addr) (some (encode i)) := rfl

/-! ### A register write -/

@[simp] theorem writeReg_config (s : State) (r : Reg) (v : Word) :
    (s.writeReg r v).config = s.config := by
  unfold State.writeReg; split <;> rfl
@[simp] theorem writeReg_pc (s : State) (r : Reg) (v : Word) :
    (s.writeReg r v).pc = s.pc := by
  unfold State.writeReg; split <;> rfl
@[simp] theorem writeReg_mode (s : State) (r : Reg) (v : Word) :
    (s.writeReg r v).mode = s.mode := by
  unfold State.writeReg; split <;> rfl
@[simp] theorem writeReg_fault (s : State) (r : Reg) (v : Word) :
    (s.writeReg r v).fault = s.fault := by
  unfold State.writeReg; split <;> rfl
@[simp] theorem writeReg_ram (s : State) (r : Reg) (v : Word) :
    (s.writeReg r v).ram = s.ram := by
  unfold State.writeReg; split <;> rfl
@[simp] theorem writeReg_gpioFunc (s : State) (r : Reg) (v : Word) :
    (s.writeReg r v).gpioFunc = s.gpioFunc := by
  unfold State.writeReg; split <;> rfl
@[simp] theorem writeReg_pwmLevelA (s : State) (r : Reg) (v : Word) :
    (s.writeReg r v).pwmLevelA = s.pwmLevelA := by
  unfold State.writeReg; split <;> rfl
@[simp] theorem writeReg_pwmLevelB (s : State) (r : Reg) (v : Word) :
    (s.writeReg r v).pwmLevelB = s.pwmLevelB := by
  unfold State.writeReg; split <;> rfl
@[simp] theorem writeReg_pwmEnabled (s : State) (r : Reg) (v : Word) :
    (s.writeReg r v).pwmEnabled = s.pwmEnabled := by
  unfold State.writeReg; split <;> rfl
@[simp] theorem writeReg_timer (s : State) (r : Reg) (v : Word) :
    (s.writeReg r v).timer = s.timer := by
  unfold State.writeReg; split <;> rfl
@[simp] theorem writeReg_cycles (s : State) (r : Reg) (v : Word) :
    (s.writeReg r v).cycles = s.cycles := by
  unfold State.writeReg; split <;> rfl

/-- The register file and nothing else decides what a register reads as. -/
theorem readReg_congr {s t : State} (h : t.regs = s.regs) (r : Reg) : t.readReg r = s.readReg r := by
  simp only [State.readReg, h]

@[simp] theorem readReg_complete (s : State) (next : Word) (r : Reg) : (s.complete next).readReg r = s.readReg r := rfl

@[simp] theorem readReg_halt (s : State) (r : Reg) : s.halt.readReg r = s.readReg r := rfl

@[simp] theorem readReg_zero (s : State) : s.readReg 0 = 0#32 := rfl

@[simp] theorem writeReg_zero (s : State) (v : Word) : s.writeReg 0 v = s := rfl

theorem readReg_writeReg_same (s : State) (r : Reg) (v : Word) :
    (s.writeReg r v).readReg r = if r = 0 then 0#32 else v := by
  by_cases h : r.val = 0
  · have : r = 0 := Fin.ext h
    simp [this]
  · have : r ≠ 0 := fun e => h (by simp [e])
    simp [State.writeReg, State.readReg, h, this]

theorem readReg_writeReg_other (s : State) {r q : Reg} (v : Word) (h : q ≠ r) :
    (s.writeReg r v).readReg q = s.readReg q := by
  by_cases hr : r.val = 0
  · simp [State.writeReg, hr]
  · by_cases hq : q.val = 0
    · simp [State.readReg, hq]
    · have : r.val - 1 ≠ q.val - 1 := fun e => h (Fin.ext (by omega))
      simp [State.writeReg, State.readReg, hr, hq, this]

/-- Two register files that read the same everywhere are the same. -/
theorem regs_ext {s t : State} (h : ∀ r, t.readReg r = s.readReg r) : t.regs = s.regs := by
  apply Vector.ext
  intro i hi
  simpa [State.readReg] using h ⟨i + 1, by omega⟩

end Sys2Proof.Machine
end

