-- ==== Sys2Proof/Laws/Bus.lean ====
section
/-! SUPPORT. The bus and the Peripheral Bank: what a read and a write can answer, said once. What is said of RAM holds for
every configuration record; what is said of the I/O window, for a well-formed one. -/

namespace Sys2Proof.Machine

/-! ### Admission (R63) -/

theorem Width.bytes_pos (w : Width) : 0 < w.bytes := by cases w <;> decide

theorem admit_ram {c : Config} {a : Word} {w : Width} (h : insideRam c a w) : admission c a w = .ok .ram := by
  obtain ⟨h1, h2⟩ := h
  have := w.bytes_pos
  have hr : regionOf c a.toNat = some .ram := if_pos ⟨h1, by unfold Config.ramEnd; omega⟩
  unfold admission
  rw [hr]
  exact if_neg (by show ¬a.toNat + w.bytes > c.ramBase + c.ramSize; omega)

theorem admit_io {c : Config} {a : Word} {w : Width} (hc : c.wf = true) (h : insideIo c a w) :
    admission c a w = .ok .io := by
  obtain ⟨h1, h2⟩ := h
  have := w.bytes_pos
  have := (Config.facts hc).regionsApart
  have hr : regionOf c a.toNat = some .io :=
    (if_neg (by unfold Config.ramEnd; omega)).trans (if_pos ⟨h1, by unfold Config.ioEnd; omega⟩)
  unfold admission
  rw [hr]
  exact if_neg (by show ¬a.toNat + w.bytes > c.ioBase + c.ioSize; omega)

theorem admit_ok {c : Config} {a : Word} {w : Width} {r : Region} (h : admission c a w = .ok r) :
    (r = .ram ∧ insideRam c a w) ∨ (r = .io ∧ insideIo c a w) := by
  unfold admission at h
  split at h
  · cases h
  · next r' hr =>
    split at h
    · cases h
    · next hle =>
      cases h
      unfold regionOf at hr
      split at hr
      · next hb =>
        cases hr
        have : ¬a.toNat + w.bytes > c.ramBase + c.ramSize := hle
        exact .inl ⟨rfl, hb.1, by omega⟩
      · split at hr
        · next hb =>
          cases hr
          have : ¬a.toNat + w.bytes > c.ioBase + c.ioSize := hle
          exact .inr ⟨rfl, hb.1, by omega⟩
        · cases hr

theorem admit_error {c : Config} {a : Word} {w : Width} {e : BusFault} (h : admission c a w = .error e) :
    e = ⟨.outOfBounds, a⟩ := by
  unfold admission at h
  split at h
  · cases h
    rfl
  · split at h
    · cases h
      rfl
    · cases h

/-- An access outside both regions is refused as out of bounds. -/
theorem admit_outside {c : Config} {a : Word} {w : Width} (h1 : ¬insideRam c a w) (h2 : ¬insideIo c a w) :
    admission c a w = .error ⟨.outOfBounds, a⟩ := by
  cases h : admission c a w with
  | error e => rw [admit_error h]
  | ok r =>
    rcases admit_ok h with ⟨-, hi⟩ | ⟨-, hi⟩
    · exact absurd hi h1
    · exact absurd hi h2

/-- No access lies in both regions. -/
theorem not_insideIo_of_insideRam {c : Config} {a : Word} {w : Width} (hc : c.wf = true) (h : insideRam c a w) :
    ¬insideIo c a w := fun hi => by
  have := admit_ram h
  rw [admit_io hc hi] at this
  cases this

/-! ### Reads -/

theorem memRead_ram {a : Word} {w : Width} (s : State) (h : insideRam s.config a w) :
    memRead s a w = .ok (s.ram.readWidth a.toNat w) := by
  simp only [memRead, admit_ram h]

theorem memRead_io {a : Word} {w : Width} (s : State) (hc : s.config.wf = true) (h : insideIo s.config a w) :
    memRead s a w = match ioRegister s.config a.toNat w with
      | some r => .ok (ioRead s r)
      | none => .error ⟨.unimplementedPeripheral, a⟩ := by
  simp only [memRead, admit_io hc h]
  all_goals (cases ioRegister s.config a.toNat w <;> rfl)

theorem memRead_outside {a : Word} {w : Width} (s : State) (h1 : ¬insideRam s.config a w)
    (h2 : ¬insideIo s.config a w) : memRead s a w = .error ⟨.outOfBounds, a⟩ := by
  simp only [memRead, admit_outside h1 h2]

/-- The whole of what a read can answer. -/
theorem memRead_cases (s : State) (a : Word) (w : Width) :
    (insideRam s.config a w ∧ memRead s a w = .ok (s.ram.readWidth a.toNat w)) ∨
    (insideIo s.config a w ∧ ∃ r, ioRegister s.config a.toNat w = some r ∧ memRead s a w = .ok (ioRead s r)) ∨
    (insideIo s.config a w ∧ ioRegister s.config a.toNat w = none ∧
      memRead s a w = .error ⟨.unimplementedPeripheral, a⟩) ∨
    (¬insideRam s.config a w ∧ (s.config.wf = true → ¬insideIo s.config a w) ∧
      memRead s a w = .error ⟨.outOfBounds, a⟩) := by
  cases h : admission s.config a w with
  | error e =>
    have he := admit_error h
    refine .inr (.inr (.inr ⟨fun hr => ?_, fun hc hi => ?_, by simp only [memRead, h, he]⟩))
    · rw [admit_ram hr] at h; cases h
    · rw [admit_io hc hi] at h; cases h
  | ok r =>
    rcases admit_ok h with ⟨rfl, hi⟩ | ⟨rfl, hi⟩
    · exact .inl ⟨hi, memRead_ram s hi⟩
    · cases hr : ioRegister s.config a.toNat w with
      | some r => exact .inr (.inl ⟨hi, r, rfl, by simp only [memRead, h, hr]⟩)
      | none => exact .inr (.inr (.inl ⟨hi, rfl, by simp only [memRead, h, hr]⟩))

/-- A refused read names the address it was given. -/
theorem memRead_error_addr {s : State} {a : Word} {w : Width} {e : BusFault} (h : memRead s a w = .error e) :
    e.addr = a := by
  rcases memRead_cases s a w with ⟨-, h'⟩ | ⟨-, r, -, h'⟩ | ⟨-, -, h'⟩ | ⟨-, -, h'⟩ <;> rw [h'] at h <;> cases h <;> rfl

/-- A read of a register depends on the Peripheral Bank and the configuration only. -/
theorem ioRead_congr {s t : State} (hc : t.config = s.config) (hp : SamePeripherals s t) (ht : t.timer = s.timer)
    (r : IoReg) : ioRead t r = ioRead s r := by
  cases r
  case pwmEn => exact congrArg (fun l : List Bool => (BitVec.ofBoolListLE l).setWidth 32) hp.pwmEnabled
  all_goals simp only [ioRead, State.pinFunc, State.levelA, State.levelB, hp.gpioFunc, hp.pwmLevelA, hp.pwmLevelB, ht, hc]

/-- A read depends on RAM, the Peripheral Bank and the configuration only. -/
theorem memRead_congr {s t : State} (hc : t.config = s.config) (hram : t.ram = s.ram) (hp : SamePeripherals s t)
    (ht : t.timer = s.timer) (a : Word) (w : Width) : memRead t a w = memRead s a w := by
  simp only [memRead, hc, hram, ioRead_congr hc hp ht]

/-! ### Peripheral writes -/

/-- What a register write leaves alone: everything but the four peripheral tables. -/
structure OnlyPeripherals (s t : State) : Prop where
  config : t.config = s.config
  regs : t.regs = s.regs
  pc : t.pc = s.pc
  mode : t.mode = s.mode
  fault : t.fault = s.fault
  ram : t.ram = s.ram
  timer : t.timer = s.timer
  cycles : t.cycles = s.cycles

theorem gpioWrite_cases {s t : State} {p : Nat} {v : Word} (h : gpioWrite s p v = some t) :
    legalFunc s.config (v.extractLsb' 0 5) = true ∧ t = { s with gpioFunc := s.gpioFunc.set p (v.extractLsb' 0 5) } := by
  unfold gpioWrite at h
  split at h
  · next hc => exact ⟨hc.2, (Option.some.inj h).symm⟩
  · cases h

theorem levelWrite_cases {s t : State} {slice : Nat} {v : Word} (h : levelWrite s slice v = some t) :
    pwmAvailable s slice = true ∧ t = { s with
      pwmLevelA := s.pwmLevelA.set slice (v.extractLsb' 0 16)
      pwmLevelB := s.pwmLevelB.set slice (v.extractLsb' 16 16) } := by
  unfold levelWrite at h
  split at h
  · next hc => exact ⟨hc, (Option.some.inj h).symm⟩
  · cases h

/-- An entry of a table after one entry was written. -/
theorem getD_set {α : Type} (l : List α) (i j : Nat) (v d : α) :
    (l.set i v).getD j d = if i = j ∧ j < l.length then v else l.getD j d := by
  simp only [List.getD_eq_getElem?_getD, List.getElem?_set]
  by_cases hij : i = j
  · subst hij
    by_cases hl : i < l.length
    · simp [hl]
    · simp [hl]
  · simp [hij]

theorem ioWrite_only {s t : State} {r : IoReg} {v : Word} (h : ioWrite s r v = some t) : OnlyPeripherals s t := by
  cases r with
  | gpioCtrl p =>
    obtain ⟨-, rfl⟩ := gpioWrite_cases h
    constructor <;> rfl
  | pwmCc slice =>
    obtain ⟨-, rfl⟩ := levelWrite_cases h
    constructor <;> rfl
  | pwmEn =>
    cases h
    constructor <;> rfl
  | timeRawH => cases h
  | timeRawL => cases h

/-- A register write keeps every pin in one of the three function modes (R257). -/
theorem ioWrite_pinsLegal {s t : State} {r : IoReg} {v : Word} (h : ioWrite s r v = some t)
    (hs : ∀ p, p < s.config.numPins → legalFunc s.config (s.pinFunc p) = true) :
    ∀ p, p < t.config.numPins → legalFunc t.config (t.pinFunc p) = true := by
  intro q hq
  cases r with
  | gpioCtrl p =>
    obtain ⟨hl, rfl⟩ := gpioWrite_cases h
    have := hs q hq
    simp only [State.pinFunc, getD_set] at this ⊢
    split
    · exact hl
    · exact this
  | pwmCc slice =>
    obtain ⟨-, rfl⟩ := levelWrite_cases h
    exact hs q hq
  | pwmEn =>
    cases h
    exact hs q hq
  | timeRawH => cases h
  | timeRawL => cases h

/-- A register write keeps the tables' lengths. -/
theorem ioWrite_shaped {s t : State} {r : IoReg} {v : Word} (h : ioWrite s r v = some t) (hs : s.Shaped) : t.Shaped := by
  cases r with
  | gpioCtrl p =>
    obtain ⟨-, rfl⟩ := gpioWrite_cases h
    exact ⟨hs.configOk, by simpa using hs.pins, hs.levelsA, hs.levelsB, hs.flags⟩
  | pwmCc slice =>
    obtain ⟨-, rfl⟩ := levelWrite_cases h
    exact ⟨hs.configOk, hs.pins, by simpa using hs.levelsA, by simpa using hs.levelsB, hs.flags⟩
  | pwmEn =>
    cases h
    exact ⟨hs.configOk, hs.pins, hs.levelsA, hs.levelsB, by simp [enableWrite]⟩
  | timeRawH => cases h
  | timeRawL => cases h

/-- The slice of a pin in plain arithmetic (R261). -/
theorem sliceOf_eq (p : Nat) : sliceOf p = p / 2 % 8 := by
  simp only [sliceOf, Nat.shiftRight_eq_div_pow]
  exact Nat.and_two_pow_sub_one_eq_mod _ 3

/-- Availability in the model's and in the claims' words (R261, R262). -/
theorem pwmAvailable_iff (s : State) (slice : Nat) : pwmAvailable s slice = true ↔ Configured s slice := by
  simp only [pwmAvailable, Configured, List.any_eq_true, List.mem_range, Bool.and_eq_true, beq_iff_eq, sliceOf_eq]

/-! ### Writes -/

theorem memWrite_ram {a : Word} {w : Width} (s : State) (v : Word) (h : insideRam s.config a w) :
    memWrite s a w v = .ok { s with ram := s.ram.writeWidth a.toNat v w } := by
  simp only [memWrite, admit_ram h]

/-- A write admitted to the I/O window. -/
theorem memWrite_admitted {a : Word} {w : Width} (s : State) (v : Word) (h : admission s.config a w = .ok .io) :
    memWrite s a w v = match (ioRegister s.config a.toNat w).bind fun r => ioWrite s r v with
      | some t => .ok t
      | none => .error ⟨.unimplementedPeripheral, a⟩ := by
  simp only [memWrite, h]
  all_goals (cases ioRegister s.config a.toNat w <;> rfl)

theorem memWrite_io {a : Word} {w : Width} (s : State) (v : Word) (hc : s.config.wf = true)
    (h : insideIo s.config a w) :
    memWrite s a w v = match (ioRegister s.config a.toNat w).bind fun r => ioWrite s r v with
      | some t => .ok t
      | none => .error ⟨.unimplementedPeripheral, a⟩ := memWrite_admitted s v (admit_io hc h)

theorem memWrite_outside {a : Word} {w : Width} (s : State) (v : Word) (h1 : ¬insideRam s.config a w)
    (h2 : ¬insideIo s.config a w) : memWrite s a w v = .error ⟨.outOfBounds, a⟩ := by
  simp only [memWrite, admit_outside h1 h2]

/-- The whole of what a write can answer. -/
theorem memWrite_cases (s : State) (a : Word) (w : Width) (v : Word) :
    (insideRam s.config a w ∧ memWrite s a w v = .ok { s with ram := s.ram.writeWidth a.toNat v w }) ∨
    (insideIo s.config a w ∧ ∃ r t, ioRegister s.config a.toNat w = some r ∧ ioWrite s r v = some t ∧
      memWrite s a w v = .ok t) ∨
    (insideIo s.config a w ∧ memWrite s a w v = .error ⟨.unimplementedPeripheral, a⟩) ∨
    (¬insideRam s.config a w ∧ (s.config.wf = true → ¬insideIo s.config a w) ∧
      memWrite s a w v = .error ⟨.outOfBounds, a⟩) := by
  cases h : admission s.config a w with
  | error e =>
    have he := admit_error h
    refine .inr (.inr (.inr ⟨fun hr => ?_, fun hc hi => ?_, by simp only [memWrite, h, he]⟩))
    · rw [admit_ram hr] at h; cases h
    · rw [admit_io hc hi] at h; cases h
  | ok r =>
    rcases admit_ok h with ⟨rfl, hi⟩ | ⟨rfl, hi⟩
    · exact .inl ⟨hi, memWrite_ram s v hi⟩
    · have hm := memWrite_admitted s v h
      cases hr : ioRegister s.config a.toNat w with
      | none => exact .inr (.inr (.inl ⟨hi, by rw [hm, hr]; rfl⟩))
      | some r =>
        cases hw : ioWrite s r v with
        | none => exact .inr (.inr (.inl ⟨hi, by rw [hm, hr]; simp [hw]⟩))
        | some t => exact .inr (.inl ⟨hi, r, t, rfl, hw, by rw [hm, hr]; simp [hw]⟩)

theorem memWrite_error_addr {s : State} {a : Word} {w : Width} {v : Word} {e : BusFault}
    (h : memWrite s a w v = .error e) : e.addr = a := by
  rcases memWrite_cases s a w v with ⟨-, h'⟩ | ⟨-, r, t, -, -, h'⟩ | ⟨-, h'⟩ | ⟨-, -, h'⟩ <;>
    rw [h'] at h <;> cases h <;> rfl

/-- An accepted write changes RAM or the Peripheral Bank's tables, and nothing else. -/
theorem memWrite_only {s t : State} {a : Word} {w : Width} {v : Word} (h : memWrite s a w v = .ok t) :
    t.config = s.config ∧ t.regs = s.regs ∧ t.pc = s.pc ∧ t.mode = s.mode ∧ t.fault = s.fault ∧ t.timer = s.timer ∧
      t.cycles = s.cycles := by
  rcases memWrite_cases s a w v with ⟨-, h'⟩ | ⟨-, r, u, -, hw, h'⟩ | ⟨-, h'⟩ | ⟨-, -, h'⟩ <;> rw [h'] at h <;> cases h
  · exact ⟨rfl, rfl, rfl, rfl, rfl, rfl, rfl⟩
  · have := ioWrite_only hw
    exact ⟨this.config, this.regs, this.pc, this.mode, this.fault, this.timer, this.cycles⟩

/-- An accepted write keeps the tables' lengths, RAM canonical and inside its region, and the pins legal. -/
theorem memWrite_keeps {s t : State} {a : Word} {w : Width} {v : Word} (h : memWrite s a w v = .ok t)
    (hs : s.Shaped) (hwf : s.ram.wf = true)
    (hin : ∀ c ∈ s.ram, s.config.ramBase ≤ c.1 ∧ c.1 < s.config.ramEnd)
    (hp : ∀ p, p < s.config.numPins → legalFunc s.config (s.pinFunc p) = true) :
    t.Shaped ∧ t.ram.wf = true ∧ (∀ c ∈ t.ram, t.config.ramBase ≤ c.1 ∧ c.1 < t.config.ramEnd) ∧
      ∀ p, p < t.config.numPins → legalFunc t.config (t.pinFunc p) = true := by
  rcases memWrite_cases s a w v with ⟨hr, h'⟩ | ⟨-, r, u, -, hw, h'⟩ | ⟨-, h'⟩ | ⟨-, -, h'⟩ <;> rw [h'] at h <;> cases h
  · refine ⟨⟨hs.configOk, hs.pins, hs.levelsA, hs.levelsB, hs.flags⟩, Memory.wf_writeWidth hwf _ _ _,
      fun c hc => ?_, hp⟩
    rcases Memory.mem_writeWidth hc with hc | hc
    · have := hr.1
      have := hr.2
      have : s.config.ramEnd = s.config.ramBase + s.config.ramSize := rfl
      exact ⟨by show s.config.ramBase ≤ c.1; omega, by show c.1 < s.config.ramEnd; omega⟩
    · exact hin c hc
  · have hram := (ioWrite_only hw).ram
    have hcfg := (ioWrite_only hw).config
    exact ⟨ioWrite_shaped hw hs, by rw [hram]; exact hwf, by rw [hram, hcfg]; exact hin, ioWrite_pinsLegal hw hp⟩

/-! ### The registers of the I/O window -/

/-- A register the configuration has: its pin or slice is below the count. -/
def IoReg.exists (c : Config) : IoReg → Prop
  | .gpioCtrl p => p < c.numPins
  | .pwmCc slice => slice < c.numSlices
  | .pwmEn | .timeRawH | .timeRawL => True

/-- The address of a register as a number, and as a word (R253, R260, R269). -/
def natAddrOf (c : Config) : IoReg → Nat
  | .gpioCtrl p => c.gpioBase + c.gpioOff p
  | .pwmCc slice => c.pwmBase + c.pwmOff slice
  | .pwmEn => c.pwmBase + c.pwmEnOff
  | .timeRawH => c.timerBase + c.timerRawhOff
  | .timeRawL => c.timerBase + c.timerRawlOff

def addrOf (c : Config) (r : IoReg) : Word := BitVec.ofNat 32 (natAddrOf c r)

theorem isRegisterAddr_iff (c : Config) (a : Word) : isRegisterAddr c a ↔ ∃ r : IoReg, r.exists c ∧ a = addrOf c r := by
  constructor
  · rintro (⟨p, hp, rfl⟩ | ⟨s, hs, rfl⟩ | rfl | rfl | rfl)
    exacts [⟨.gpioCtrl p, hp, rfl⟩, ⟨.pwmCc s, hs, rfl⟩, ⟨.pwmEn, trivial, rfl⟩, ⟨.timeRawH, trivial, rfl⟩,
      ⟨.timeRawL, trivial, rfl⟩]
  · rintro ⟨r, hr, rfl⟩
    cases r with
    | gpioCtrl p => exact .inl ⟨p, hr, rfl⟩
    | pwmCc s => exact .inr (.inl ⟨s, hr, rfl⟩)
    | pwmEn => exact .inr (.inr (.inl rfl))
    | timeRawH => exact .inr (.inr (.inr (.inl rfl)))
    | timeRawL => exact .inr (.inr (.inr (.inr rfl)))

/-- A register's address fits a word. -/
theorem toNat_addrOf {c : Config} (hc : c.wf = true) {r : IoReg} (hr : r.exists c) :
    (addrOf c r).toNat = natAddrOf c r := by
  have f := Config.facts hc
  have := f.ioFits
  have := f.gpioInside
  have := f.pwmInside
  have := f.timerInside
  have : natAddrOf c r < 2 ^ 32 := by
    cases r with
    | gpioCtrl p =>
      have := f.gpioOff p hr
      show c.gpioBase + c.gpioOff p < 2 ^ 32
      omega
    | pwmCc s =>
      have := f.pwmOff s hr
      show c.pwmBase + c.pwmOff s < 2 ^ 32
      omega
    | pwmEn =>
      have := f.pwmEn
      show c.pwmBase + c.pwmEnOff < 2 ^ 32
      omega
    | timeRawH =>
      have := f.timerH
      show c.timerBase + c.timerRawhOff < 2 ^ 32
      omega
    | timeRawL =>
      have := f.timerL
      show c.timerBase + c.timerRawlOff < 2 ^ 32
      omega
  exact (BitVec.toNat_ofNat _ _).trans (Nat.mod_eq_of_lt this)

/-- The pin and the slice at an offset are the ones whose register is there. -/
theorem pinAt_gpioOff {c : Config} (hc : c.wf = true) {p : Nat} (hp : p < c.numPins) :
    pinAt c (c.gpioOff p) = some p := by
  cases h : pinAt c (c.gpioOff p) with
  | none =>
    have := List.find?_eq_none.1 h p (List.mem_range.2 hp)
    simp at this
  | some q =>
    have h1 := List.mem_range.1 (List.mem_of_find?_eq_some h)
    have h2 : c.gpioOff q = c.gpioOff p := by simpa using List.find?_some h
    rw [(Config.facts hc).gpioOffInj q p h1 hp h2]

theorem sliceAt_pwmOff {c : Config} (hc : c.wf = true) {n : Nat} (hn : n < c.numSlices) :
    sliceAt c (c.pwmOff n) = some n := by
  cases h : sliceAt c (c.pwmOff n) with
  | none =>
    have := List.find?_eq_none.1 h n (List.mem_range.2 hn)
    simp at this
  | some q =>
    have h1 := List.mem_range.1 (List.mem_of_find?_eq_some h)
    have h2 : c.pwmOff q = c.pwmOff n := by simpa using List.find?_some h
    rw [(Config.facts hc).pwmOffInj q n h1 hn h2]

/-- Each register is found at its address. -/
theorem ioRegAt_natAddrOf {c : Config} (hc : c.wf = true) {r : IoReg} (hr : r.exists c) :
    ioRegAt c (natAddrOf c r) = some r := by
  have f := Config.facts hc
  have := f.gpioPwm
  have := f.gpioTimer
  have := f.pwmTimer
  cases r with
  | gpioCtrl p =>
    have := f.gpioOff p hr
    have hs : subWindowOf c (natAddrOf c (.gpioCtrl p)) = some .gpio :=
      if_pos ⟨Nat.le_add_right _ _, by show c.gpioBase + c.gpioOff p < _; omega⟩
    unfold ioRegAt
    rw [hs]
    show (pinAt c (c.gpioBase + c.gpioOff p - c.gpioBase)).map IoReg.gpioCtrl = _
    rw [Nat.add_sub_cancel_left, pinAt_gpioOff hc hr]
    rfl
  | pwmCc n =>
    have := f.pwmOff n hr
    have hs : subWindowOf c (natAddrOf c (.pwmCc n)) = some .pwm :=
      (if_neg (by show ¬(_ ≤ c.pwmBase + c.pwmOff n ∧ c.pwmBase + c.pwmOff n < _); omega)).trans
        (if_pos ⟨Nat.le_add_right _ _, by show c.pwmBase + c.pwmOff n < _; omega⟩)
    unfold ioRegAt
    rw [hs]
    show (if c.pwmBase + c.pwmOff n - c.pwmBase = c.pwmEnOff then some IoReg.pwmEn
      else (sliceAt c (c.pwmBase + c.pwmOff n - c.pwmBase)).map IoReg.pwmCc) = _
    rw [Nat.add_sub_cancel_left, if_neg (f.pwmOff n hr).2.2, sliceAt_pwmOff hc hr]
    rfl
  | pwmEn =>
    have := f.pwmEn
    have hs : subWindowOf c (natAddrOf c .pwmEn) = some .pwm :=
      (if_neg (by show ¬(_ ≤ c.pwmBase + c.pwmEnOff ∧ c.pwmBase + c.pwmEnOff < _); omega)).trans
        (if_pos ⟨Nat.le_add_right _ _, by show c.pwmBase + c.pwmEnOff < _; omega⟩)
    unfold ioRegAt
    rw [hs]
    exact if_pos (Nat.add_sub_cancel_left _ _)
  | timeRawH =>
    have := f.timerH
    have hs : subWindowOf c (natAddrOf c .timeRawH) = some .timer :=
      (if_neg (by show ¬(_ ≤ c.timerBase + c.timerRawhOff ∧ c.timerBase + c.timerRawhOff < _); omega)).trans
        ((if_neg (by show ¬(_ ≤ c.timerBase + c.timerRawhOff ∧ c.timerBase + c.timerRawhOff < _); omega)).trans
          (if_pos ⟨Nat.le_add_right _ _, by show c.timerBase + c.timerRawhOff < _; omega⟩))
    unfold ioRegAt
    rw [hs]
    exact if_pos (Nat.add_sub_cancel_left _ _)
  | timeRawL =>
    have := f.timerL
    have := f.timerApart
    have hs : subWindowOf c (natAddrOf c .timeRawL) = some .timer :=
      (if_neg (by show ¬(_ ≤ c.timerBase + c.timerRawlOff ∧ c.timerBase + c.timerRawlOff < _); omega)).trans
        ((if_neg (by show ¬(_ ≤ c.timerBase + c.timerRawlOff ∧ c.timerBase + c.timerRawlOff < _); omega)).trans
          (if_pos ⟨Nat.le_add_right _ _, by show c.timerBase + c.timerRawlOff < _; omega⟩))
    unfold ioRegAt
    rw [hs]
    exact (if_neg (by show ¬c.timerBase + c.timerRawlOff - c.timerBase = _; omega)).trans
      (if_pos (Nat.add_sub_cancel_left _ _))

/-- An aligned word access at a register's address reaches it. -/
theorem ioRegister_addrOf {c : Config} (hc : c.wf = true) {r : IoReg} (hr : r.exists c)
    (ha : (addrOf c r).toNat % 4 = 0) : ioRegister c (addrOf c r).toNat .word = some r := by
  refine (if_pos ⟨rfl, ha⟩).trans ?_
  rw [toNat_addrOf hc hr]
  exact ioRegAt_natAddrOf hc hr

/-- And no register is reached anywhere else. -/
theorem eq_addrOf_of_ioRegister {c : Config} {a : Word} {w : Width} {r : IoReg}
    (h : ioRegister c a.toNat w = some r) : w = .word ∧ a.toNat % 4 = 0 ∧ r.exists c ∧ a = addrOf c r := by
  unfold ioRegister at h
  split at h
  case isFalse => cases h
  case isTrue hw =>
  suffices hx : r.exists c ∧ a.toNat = natAddrOf c r from
    ⟨hw.1, hw.2, hx.1, BitVec.eq_of_toNat_eq (by
      rw [addrOf, BitVec.toNat_ofNat, ← hx.2]
      exact (Nat.mod_eq_of_lt a.isLt).symm)⟩
  have hsub : subWindowOf c a.toNat = some .gpio ∧ c.gpioBase ≤ a.toNat ∨
      subWindowOf c a.toNat = some .pwm ∧ c.pwmBase ≤ a.toNat ∨
      subWindowOf c a.toNat = some .timer ∧ c.timerBase ≤ a.toNat ∨ subWindowOf c a.toNat = none := by
    unfold subWindowOf
    split
    · next h => exact .inl ⟨rfl, h.1⟩
    · split
      · next h => exact .inr (.inl ⟨rfl, h.1⟩)
      · split
        · next h => exact .inr (.inr (.inl ⟨rfl, h.1⟩))
        · exact .inr (.inr (.inr rfl))
  unfold ioRegAt at h
  rcases hsub with ⟨hs, hb⟩ | ⟨hs, hb⟩ | ⟨hs, hb⟩ | hs <;> rw [hs] at h <;> simp only at h
  · obtain ⟨p, hp, rfl⟩ := Option.map_eq_some_iff.1 h
    have h2 : c.gpioOff p = a.toNat - c.gpioBase := by simpa using List.find?_some hp
    exact ⟨List.mem_range.1 (List.mem_of_find?_eq_some hp), by show a.toNat = c.gpioBase + c.gpioOff p; omega⟩
  · split at h
    · next he =>
      cases h
      exact ⟨trivial, by show a.toNat = c.pwmBase + c.pwmEnOff; omega⟩
    · obtain ⟨n, hn, rfl⟩ := Option.map_eq_some_iff.1 h
      have h2 : c.pwmOff n = a.toNat - c.pwmBase := by simpa using List.find?_some hn
      exact ⟨List.mem_range.1 (List.mem_of_find?_eq_some hn), by show a.toNat = c.pwmBase + c.pwmOff n; omega⟩
  · split at h
    · next he =>
      cases h
      exact ⟨trivial, by show a.toNat = c.timerBase + c.timerRawhOff; omega⟩
    · split at h
      · next he =>
        cases h
        exact ⟨trivial, by show a.toNat = c.timerBase + c.timerRawlOff; omega⟩
      · cases h
  · cases h

/-- A reachable register is read and written at its address. -/
theorem memRead_register (s : State) (hc : s.config.wf = true) {r : IoReg} (hr : r.exists s.config)
    (ha : Reachable s.config (addrOf s.config r)) : memRead s (addrOf s.config r) .word = .ok (ioRead s r) := by
  rw [memRead_io s hc ha.2, ioRegister_addrOf hc hr ha.1]

theorem memWrite_register (s : State) (v : Word) (hc : s.config.wf = true) {r : IoReg} (hr : r.exists s.config)
    (ha : Reachable s.config (addrOf s.config r)) :
    memWrite s (addrOf s.config r) .word v = match ioWrite s r v with
      | some t => .ok t
      | none => .error ⟨.unimplementedPeripheral, addrOf s.config r⟩ := by
  rw [memWrite_io s v hc ha.2, ioRegister_addrOf hc hr ha.1]
  rfl

/-- At the default configuration every register is reachable. -/
theorem reachable_defaultConfig (r : IoReg) (hr : r.exists defaultConfig) :
    Reachable defaultConfig (addrOf defaultConfig r) := by
  have hp : ∀ p : Fin 30, Reachable defaultConfig (addrOf defaultConfig (.gpioCtrl p.val)) := by
    unfold Reachable insideIo
    decide
  have hs : ∀ n : Fin 12, Reachable defaultConfig (addrOf defaultConfig (.pwmCc n.val)) := by
    unfold Reachable insideIo
    decide
  cases r with
  | gpioCtrl p => exact hp ⟨p, hr⟩
  | pwmCc n => exact hs ⟨n, hr⟩
  | pwmEn => unfold Reachable insideIo; decide
  | timeRawH => unfold Reachable insideIo; decide
  | timeRawL => unfold Reachable insideIo; decide

end Sys2Proof.Machine
end

