-- ==== Sys2Proof/Laws/Ops.lean ====
section
/-! SUPPORT. The shapes of an instruction's effect: what each completes with, and what exec can answer at all, said
once. -/

namespace Sys2Proof.Machine

theorem completed_complete (s : State) (next : Word) : Completed s (s.complete next) next := by
  constructor <;> rfl

theorem samePeripherals_refl (s : State) : SamePeripherals s s := by
  constructor <;> rfl

/-- The shape `x[rd] <- v`, then an end at `next`, completes so. -/
theorem completesWriting_of {i : Instr} {s : State} {rd : Reg} {v next : Word}
    (h : exec i s = .next ((s.writeReg rd v).complete next)) : CompletesWriting i s rd v next := by
  refine ⟨_, h, ?_, fun r hr => ?_, fun a => ?_, ?_, ?_⟩
  · exact readReg_writeReg_same s rd v
  · exact readReg_writeReg_other s v hr
  · simp
  · constructor <;> simp
  · constructor <;> simp [ticked]

/-- The shape of a branch completes so. -/
theorem completesJumping_of {i : Instr} {s : State} {next : Word} (h : exec i s = .next (s.complete next)) :
    CompletesJumping i s next :=
  ⟨_, h, fun _ => rfl, fun _ => rfl, by constructor <;> rfl, completed_complete s next⟩

/-- A load whose read is accepted completes so. -/
theorem loadFrom_ok {i : Instr} {rd : Reg} {ea : Word} {w : Width} {extend : Word → Word} {s : State} {v : Word}
    (h : memRead s ea w = .ok v) : loadFrom i rd ea w extend s = .next ((s.writeReg rd (extend v)).complete s.pcPlus4) := by
  unfold loadFrom
  rw [h]
  rfl

theorem loadFrom_error {i : Instr} {rd : Reg} {ea : Word} {w : Width} {extend : Word → Word} {s : State} {e : BusFault}
    (h : memRead s ea w = .error e) : loadFrom i rd ea w extend s = .next (s.executeFault e i) := by
  unfold loadFrom
  rw [h]

theorem storeTo_ok {i : Instr} {ea : Word} {w : Width} {v : Word} {s t : State} (h : memWrite s ea w v = .ok t) :
    storeTo i ea w v s = .next (t.complete s.pcPlus4) := by
  unfold storeTo
  rw [h]

theorem storeTo_error {i : Instr} {ea : Word} {w : Width} {v : Word} {s : State} {e : BusFault}
    (h : memWrite s ea w v = .error e) : storeTo i ea w v s = .next (s.executeFault e i) := by
  unfold storeTo
  rw [h]

/-- The k-th byte of a word. -/
theorem toNat_extractByte (v : Word) (k : Nat) : (v.extractLsb' (8 * k) 8).toNat = v.toNat / 256 ^ k % 256 := by
  rw [BitVec.extractLsb'_toNat, Nat.shiftRight_eq_div_pow, Nat.pow_mul]

/-- A store into RAM completes with its bytes stored and everything else unchanged. -/
theorem completesStoring_of {i : Instr} {s : State} {ea : Word} {w : Width} {v : Word}
    (h : exec i s = storeTo i ea w v s) (hr : insideRam s.config ea w) : CompletesStoring i s ea w.bytes v := by
  refine ⟨_, h.trans (storeTo_ok (memWrite_ram s v hr)), fun k hk => ?_, fun a ha => ?_, fun _ => rfl, ?_, ?_⟩
  · show ((s.ram.writeWidth ea.toNat v w).read (ea.toNat + k)).toNat = _
    rw [Memory.read_writeWidth, if_pos ⟨by omega, by omega⟩, Nat.add_sub_cancel_left, toNat_extractByte]
  · show (s.ram.writeWidth ea.toNat v w).read a = _
    rw [Memory.read_writeWidth, if_neg (by omega)]
  · constructor <;> rfl
  · constructor <;> rfl

/-! ### What exec can answer -/

/-- Everything an instruction can do at `s`: write one register and go on, go on, store and go on, take the fault of its
data access, or halt. Each case says the shape of the next state. -/
inductive Effect (i : Instr) (s : State) : State → Prop where
  | writes (rd : Reg) (v next : Word) (h : isStore i → False) (hf : accessFault s i = none)
      (hn : ¬assignsPc s i → next = s.pc + 4#32) (he : i ≠ .ebreak) : Effect i s ((s.writeReg rd v).complete next)
  | stores (a : Word) (w : Width) (v : Word) (t : State) (h : isStore i) (hw : memWrite s a w v = .ok t)
      (hf : accessFault s i = none) : Effect i s (t.complete (s.pc + 4#32))
  | faults (e : BusFault) (h : accessFault s i = some e) : Effect i s (s.executeFault e i)
  | halts (h : i = .ebreak) : Effect i s s.halt

theorem effect_next {i : Instr} {s : State} {next : Word} (h : isStore i → False) (hf : accessFault s i = none)
    (hn : ¬assignsPc s i → next = s.pc + 4#32) (he : i ≠ .ebreak) : Effect i s (s.complete next) := by
  have := Effect.writes (i := i) (s := s) 0 0#32 next h hf hn he
  rwa [writeReg_zero] at this

theorem effect_load {i : Instr} {s : State} {rd : Reg} {ea : Word} {w : Width} {extend : Word → Word}
    (hx : exec i s = loadFrom i rd ea w extend s) (hd : dataAccess s i = some (ea, w, none)) (h : isStore i → False)
    (he : i ≠ .ebreak) : ∃ t, exec i s = .next t ∧ Effect i s t := by
  cases hm : memRead s ea w with
  | ok v =>
    refine ⟨_, hx.trans (loadFrom_ok hm), .writes _ _ _ h ?_ (fun _ => rfl) he⟩
    simp only [accessFault, hd, hm]
  | error e =>
    refine ⟨_, hx.trans (loadFrom_error hm), .faults _ ?_⟩
    simp only [accessFault, hd, hm]

theorem effect_store {i : Instr} {s : State} {ea : Word} {w : Width} {v : Word}
    (hx : exec i s = storeTo i ea w v s) (hd : dataAccess s i = some (ea, w, some v)) (h : isStore i) :
    ∃ t, exec i s = .next t ∧ Effect i s t := by
  cases hm : memWrite s ea w v with
  | ok t =>
    refine ⟨_, hx.trans (storeTo_ok hm), .stores ea w v t h hm ?_⟩
    simp only [accessFault, hd, hm]
  | error e =>
    refine ⟨_, hx.trans (storeTo_error hm), .faults _ ?_⟩
    simp only [accessFault, hd, hm]

/-- Every instruction answers a next state, of one of the shapes of Effect. -/
theorem exec_effect (i : Instr) (s : State) : ∃ t, exec i s = .next t ∧ Effect i s t := by
  cases i with
  | lui rd imm => exact ⟨_, rfl, .writes _ _ _ id rfl (fun _ => rfl) nofun⟩
  | auipc rd imm => exact ⟨_, rfl, .writes _ _ _ id rfl (fun _ => rfl) nofun⟩
  | addi rd rs1 imm => exact ⟨_, rfl, .writes _ _ _ id rfl (fun _ => rfl) nofun⟩
  | slti rd rs1 imm => exact ⟨_, rfl, .writes _ _ _ id rfl (fun _ => rfl) nofun⟩
  | sltiu rd rs1 imm => exact ⟨_, rfl, .writes _ _ _ id rfl (fun _ => rfl) nofun⟩
  | xori rd rs1 imm => exact ⟨_, rfl, .writes _ _ _ id rfl (fun _ => rfl) nofun⟩
  | ori rd rs1 imm => exact ⟨_, rfl, .writes _ _ _ id rfl (fun _ => rfl) nofun⟩
  | andi rd rs1 imm => exact ⟨_, rfl, .writes _ _ _ id rfl (fun _ => rfl) nofun⟩
  | slli rd rs1 shamt => exact ⟨_, rfl, .writes _ _ _ id rfl (fun _ => rfl) nofun⟩
  | srli rd rs1 shamt => exact ⟨_, rfl, .writes _ _ _ id rfl (fun _ => rfl) nofun⟩
  | srai rd rs1 shamt => exact ⟨_, rfl, .writes _ _ _ id rfl (fun _ => rfl) nofun⟩
  | add rd rs1 rs2 => exact ⟨_, rfl, .writes _ _ _ id rfl (fun _ => rfl) nofun⟩
  | sub rd rs1 rs2 => exact ⟨_, rfl, .writes _ _ _ id rfl (fun _ => rfl) nofun⟩
  | sll rd rs1 rs2 => exact ⟨_, rfl, .writes _ _ _ id rfl (fun _ => rfl) nofun⟩
  | slt rd rs1 rs2 => exact ⟨_, rfl, .writes _ _ _ id rfl (fun _ => rfl) nofun⟩
  | sltu rd rs1 rs2 => exact ⟨_, rfl, .writes _ _ _ id rfl (fun _ => rfl) nofun⟩
  | xor rd rs1 rs2 => exact ⟨_, rfl, .writes _ _ _ id rfl (fun _ => rfl) nofun⟩
  | srl rd rs1 rs2 => exact ⟨_, rfl, .writes _ _ _ id rfl (fun _ => rfl) nofun⟩
  | sra rd rs1 rs2 => exact ⟨_, rfl, .writes _ _ _ id rfl (fun _ => rfl) nofun⟩
  | or rd rs1 rs2 => exact ⟨_, rfl, .writes _ _ _ id rfl (fun _ => rfl) nofun⟩
  | and rd rs1 rs2 => exact ⟨_, rfl, .writes _ _ _ id rfl (fun _ => rfl) nofun⟩
  | mul rd rs1 rs2 => exact ⟨_, rfl, .writes _ _ _ id rfl (fun _ => rfl) nofun⟩
  | mulh rd rs1 rs2 => exact ⟨_, rfl, .writes _ _ _ id rfl (fun _ => rfl) nofun⟩
  | mulhsu rd rs1 rs2 => exact ⟨_, rfl, .writes _ _ _ id rfl (fun _ => rfl) nofun⟩
  | mulhu rd rs1 rs2 => exact ⟨_, rfl, .writes _ _ _ id rfl (fun _ => rfl) nofun⟩
  | div rd rs1 rs2 => exact ⟨_, rfl, .writes _ _ _ id rfl (fun _ => rfl) nofun⟩
  | divu rd rs1 rs2 => exact ⟨_, rfl, .writes _ _ _ id rfl (fun _ => rfl) nofun⟩
  | rem rd rs1 rs2 => exact ⟨_, rfl, .writes _ _ _ id rfl (fun _ => rfl) nofun⟩
  | remu rd rs1 rs2 => exact ⟨_, rfl, .writes _ _ _ id rfl (fun _ => rfl) nofun⟩
  | jal rd offset => exact ⟨_, rfl, .writes _ _ _ id rfl (fun h => absurd trivial h) nofun⟩
  | jalr rd rs1 imm => exact ⟨_, rfl, .writes _ _ _ id rfl (fun h => absurd trivial h) nofun⟩
  | beq rs1 rs2 offset => exact ⟨_, rfl, effect_next id rfl (fun h => if_neg (by simpa [lessSigned, lessUnsigned, assignsPc] using h)) nofun⟩
  | bne rs1 rs2 offset => exact ⟨_, rfl, effect_next id rfl (fun h => if_neg (by simpa [lessSigned, lessUnsigned, assignsPc] using h)) nofun⟩
  | blt rs1 rs2 offset => exact ⟨_, rfl, effect_next id rfl (fun h => if_neg (by simpa [lessSigned, lessUnsigned, assignsPc] using h)) nofun⟩
  | bge rs1 rs2 offset => exact ⟨_, rfl, effect_next id rfl (fun h => if_neg (by simpa [lessSigned, lessUnsigned, assignsPc] using h)) nofun⟩
  | bltu rs1 rs2 offset => exact ⟨_, rfl, effect_next id rfl (fun h => if_neg (by simpa [lessSigned, lessUnsigned, assignsPc] using h)) nofun⟩
  | bgeu rs1 rs2 offset => exact ⟨_, rfl, effect_next id rfl (fun h => if_neg (by simpa [lessSigned, lessUnsigned, assignsPc] using h)) nofun⟩
  | lb rd rs1 imm => exact effect_load rfl rfl id nofun
  | lh rd rs1 imm => exact effect_load rfl rfl id nofun
  | lw rd rs1 imm => exact effect_load rfl rfl id nofun
  | lbu rd rs1 imm => exact effect_load rfl rfl id nofun
  | lhu rd rs1 imm => exact effect_load rfl rfl id nofun
  | sb rs2 rs1 imm => exact effect_store rfl rfl trivial
  | sh rs2 rs1 imm => exact effect_store rfl rfl trivial
  | sw rs2 rs1 imm => exact effect_store rfl rfl trivial
  | ebreak => exact ⟨_, rfl, .halts rfl⟩

end Sys2Proof.Machine
end

