-- ==== Sys2Proof/Laws/Step.lean ====
section
/-! SUPPORT. Everything one step can do, said once, and the word placed for the next fetch. -/

namespace Sys2Proof.Machine

theorem step_not_running {s : State} (h : s.mode ≠ .running) : step s = .next s := by
  unfold step
  cases hm : s.mode with
  | running => exact absurd hm h
  | halted => rfl
  | faulted => rfl

theorem step_fetch_error {s : State} {e : BusFault} (h : s.mode = .running) (hf : fetch s = .error e) :
    step s = .next (s.fetchFault e) := by
  unfold step
  rw [h, hf]

theorem step_decode_error {s : State} {w : Word} {r : Reject} (h : s.mode = .running) (hf : fetch s = .ok w)
    (hd : decodeWord w = .error r) : step s = .next (s.decodeFault w) := by
  unfold step
  rw [h, hf]
  simp only [hd]

theorem step_decode_ok {s : State} {w : Word} {i : Instr} (h : s.mode = .running) (hf : fetch s = .ok w)
    (hd : decodeWord w = .ok i) : step s = exec i s := by
  unfold step
  rw [h, hf]
  simp only [hd]

/-- One step: nothing, a fault of the fetch, a decode fault, or an instruction with one of its effects. -/
inductive StepTo (s : State) : State → Prop where
  | stays (h : s.mode ≠ .running) : StepTo s s
  | fetchFaults (h : s.mode = .running) (e : BusFault) (hf : fetch s = .error e) : StepTo s (s.fetchFault e)
  | decodeFaults (h : s.mode = .running) (w : Word) (r : Reject) (hf : fetch s = .ok w)
      (hd : decodeWord w = .error r) : StepTo s (s.decodeFault w)
  | runs (h : s.mode = .running) (w : Word) (i : Instr) (t : State) (hf : fetch s = .ok w)
      (hd : decodeWord w = .ok i) (hx : exec i s = .next t) (he : Effect i s t) : StepTo s t

/-- A step answers a next state, and one of the four. -/
theorem step_to (s : State) : ∃ t, step s = .next t ∧ StepTo s t := by
  by_cases h : s.mode = .running
  · cases hf : fetch s with
    | error e => exact ⟨_, step_fetch_error h hf, .fetchFaults h e hf⟩
    | ok w =>
      cases hd : decodeWord w with
      | error r => exact ⟨_, step_decode_error h hf hd, .decodeFaults h w r hf hd⟩
      | ok i =>
        obtain ⟨t, hx, he⟩ := exec_effect i s
        exact ⟨t, (step_decode_ok h hf hd).trans hx, .runs h w i t hf hd hx he⟩
  · exact ⟨s, step_not_running h, .stays h⟩

theorem stepTo_of {s t : State} (h : step s = .next t) : StepTo s t := by
  obtain ⟨u, hu, hs⟩ := step_to s
  rw [hu] at h
  cases h
  exact hs

/-- No instruction and no step changes the configuration record (R20). -/
theorem Effect.config {i : Instr} {s t : State} (h : Effect i s t) : t.config = s.config := by
  cases h with
  | writes rd v next => simp
  | stores a w v u _ hw => exact (memWrite_only hw).1
  | faults e => rfl
  | halts => rfl

theorem step_config {s t : State} (h : step s = .next t) : t.config = s.config := by
  cases stepTo_of h with
  | stays => rfl
  | fetchFaults => rfl
  | decodeFaults => rfl
  | runs _ w i _ _ _ _ he => exact he.config

/-! ### A fault in Execute -/

/-- A data access that is refused names its own address. -/
theorem accessFault_addr {s : State} {i : Instr} {e : BusFault} (h : accessFault s i = some e) :
    ∃ ea w v, dataAccess s i = some (ea, w, v) ∧ e.addr = ea := by
  unfold accessFault at h
  split at h
  · cases h
  · next ea w hd =>
    cases hm : memRead s ea w with
    | ok v => rw [hm] at h; cases h
    | error e' => rw [hm] at h; cases h; exact ⟨ea, w, none, hd, memRead_error_addr hm⟩
  · next ea w v hd =>
    cases hm : memWrite s ea w v with
    | ok v => rw [hm] at h; cases h
    | error e' => rw [hm] at h; cases h; exact ⟨ea, w, some v, hd, memWrite_error_addr hm⟩

/-! ### The word placed for the next fetch -/

/-- The slot is in RAM wherever the pc's four bytes or `LOAD_ADDR`'s are: always, at the default configuration. -/
theorem insideRam_fetchSlot {c : Config} {pc : Word}
    (h : insideRam c pc .word ∨ insideRam c (BitVec.ofNat 32 c.loadAddr) .word) : insideRam c (fetchSlot c pc) .word := by
  unfold fetchSlot
  split
  · next ha =>
    rcases admit_ok ha with ⟨-, hi⟩ | ⟨hr, -⟩
    · exact hi
    · cases hr
  · next ha =>
    rcases h with h | h
    · exact absurd (admit_ram h) ha
    · exact h

theorem insideRam_loadAddr_default : insideRam defaultConfig (BitVec.ofNat 32 defaultConfig.loadAddr) .word := by
  unfold insideRam
  decide

/-- The next step fetches exactly the placed word. -/
theorem fetch_withFetchWord (s : State) (nbits w : Nat)
    (h : insideRam s.config s.pc .word ∨ insideRam s.config (BitVec.ofNat 32 s.config.loadAddr) .word) :
    fetch (s.withFetchWord nbits w) = .ok (BitVec.ofNat 32 (w % 2 ^ nbits)) := by
  refine (memRead_ram (s.withFetchWord nbits w) (insideRam_fetchSlot h)).trans ?_
  exact congrArg Except.ok (Memory.readWidth_writeWidth_word s.ram _ _)

/-- So the very next step runs its instruction. -/
theorem step_withFetchWord (s : State) (nbits w : Nat) {i : Instr}
    (hs : insideRam s.config s.pc .word ∨ insideRam s.config (BitVec.ofNat 32 s.config.loadAddr) .word)
    (h : decodeWord (BitVec.ofNat 32 (w % 2 ^ nbits)) = .ok i) :
    step (s.withFetchWord nbits w) = exec i (s.withFetchWord nbits w) :=
  step_decode_ok rfl (fetch_withFetchWord s nbits w hs) h

end Sys2Proof.Machine
end

