-- ==== Sys2Proof/Laws/Controller.lean ====
section
/-! SUPPORT. The host's operations: what load can answer, the wait operation, and that the step count of a run decides
nothing a step does. -/

namespace Sys2Proof.Machine

/-! ### load -/

theorem load_ok {c : Config} {image : List Byte} {entry : Word} {s : State} (h : load c image entry = .ok s) :
    s = State.atReset c entry (Memory.ofImage c.loadAddr image) ∧ c.loadAddr + image.length ≤ c.ramEnd ∧
      c.ramBase ≤ entry.toNat ∧ entry.toNat + 4 ≤ c.ramEnd := by
  unfold load at h
  split at h
  · cases h
  · split at h
    · next h' => cases h; exact ⟨rfl, by omega, h'.1, h'.2⟩
    · cases h

theorem load_of_fits {c : Config} {image : List Byte} {entry : Word} (h : c.loadAddr + image.length ≤ c.ramEnd)
    (h1 : c.ramBase ≤ entry.toNat) (h2 : entry.toNat + 4 ≤ c.ramEnd) :
    load c image entry = .ok (State.atReset c entry (Memory.ofImage c.loadAddr image)) := by
  unfold load
  exact (if_neg (by omega)).trans (if_pos ⟨h1, h2⟩)

/-- A record is checked by name or admitted, exactly by its well-formedness (R8). -/
theorem check_ok_iff (c : Config) : c.check = .ok c ↔ c.wf = true := by
  unfold Config.check Config.wf
  cases h : ConfigClause.all.find? (fun k => !k.holds c) with
  | none => simpa [List.find?_eq_none] using h
  | some k =>
    have h1 := List.mem_of_find?_eq_some h
    have h2 := List.find?_some h
    simp only [reduceCtorEq, false_iff, List.all_eq_true]
    intro hall
    simp [hall k h1] at h2

theorem check_ok {c d : Config} (h : c.check = .ok d) : d = c ∧ c.wf = true := by
  have hd : d = c := by
    unfold Config.check at h
    split at h
    · cases h
    · exact (Except.ok.inj h).symm
  exact ⟨hd, (check_ok_iff c).1 (hd ▸ h)⟩

/-- What session creation can answer with a session: an admitted record, and what load gives. -/
theorem createSession_ok_iff {c : Config} {image : List Byte} {entry : Word} {s : State} :
    createSession c image entry = .ok s ↔ c.wf = true ∧ load c image entry = .ok s := by
  unfold createSession
  cases hc : c.check with
  | error k =>
    simp only [reduceCtorEq, false_iff]
    rintro ⟨hw, -⟩
    rw [(check_ok_iff c).2 hw] at hc
    cases hc
  | ok d =>
    obtain ⟨rfl, hw⟩ := check_ok hc
    cases hl : load d image entry <;> simp [hl, hw]

theorem readReg_atReset (c : Config) (entry : Word) (ram : Memory) (r : Reg) :
    (State.atReset c entry ram).readReg r = 0#32 := by
  unfold State.readReg
  split
  · rfl
  · simp [State.atReset]

theorem pinFunc_atReset (c : Config) (entry : Word) (ram : Memory) (p : Nat) :
    (State.atReset c entry ram).pinFunc p = c.nullCode := by
  simp only [State.pinFunc, State.atReset, List.getD_eq_getElem?_getD, List.getElem?_replicate]
  split <;> rfl

theorem shaped_atReset {c : Config} (hc : c.wf = true) (entry : Word) (ram : Memory) :
    (State.atReset c entry ram).Shaped :=
  ⟨hc, List.length_replicate, List.length_replicate, List.length_replicate, List.length_replicate⟩

/-! ### TimerWaitUntil -/

theorem timerWaitUntil_eq (s : State) (target : BitVec 64) :
    timerWaitUntil s target = { s with timer := if s.timer < target then target else s.timer } := by
  unfold timerWaitUntil
  split <;> rfl

/-! ### The step count -/

/-- A state with another step count. -/
def State.withCycles (s : State) (n : Nat) : State := { s with cycles := n }

@[simp] theorem withCycles_config (s : State) (n : Nat) : (s.withCycles n).config = s.config := rfl

theorem withCycles_writeReg (s : State) (n : Nat) (r : Reg) (v : Word) :
    (s.withCycles n).writeReg r v = (s.writeReg r v).withCycles n := by
  unfold State.writeReg
  split <;> rfl

theorem memRead_withCycles (s : State) (n : Nat) (a : Word) (w : Width) :
    memRead (s.withCycles n) a w = memRead s a w :=
  memRead_congr rfl rfl ⟨rfl, rfl, rfl, rfl⟩ rfl a w

theorem ioWrite_withCycles (s : State) (n : Nat) (r : IoReg) (v : Word) :
    ioWrite (s.withCycles n) r v = (ioWrite s r v).map (·.withCycles n) := by
  cases r with
  | gpioCtrl p => simp only [ioWrite, gpioWrite, withCycles_config, apply_ite (Option.map _)]; rfl
  | pwmCc slice =>
    simp only [ioWrite, levelWrite, show pwmAvailable (s.withCycles n) slice = pwmAvailable s slice from rfl]
    split <;> rfl
  | pwmEn => rfl
  | timeRawH => rfl
  | timeRawL => rfl

theorem memWrite_withCycles (s : State) (n : Nat) (a : Word) (w : Width) (v : Word) :
    memWrite (s.withCycles n) a w v = (memWrite s a w v).map (·.withCycles n) := by
  simp only [memWrite, ioWrite_withCycles, withCycles_config]
  cases admission s.config a w with
  | error e => rfl
  | ok r =>
    cases r with
    | ram => rfl
    | io =>
      simp only
      cases ioRegister s.config a.toNat w with
      | none => rfl
      | some r => cases h : ioWrite s r v <;> simp [h, Except.map]

theorem writeAndAdvance_withCycles (s : State) (n : Nat) (rd : Reg) (v : Word) {t : State}
    (h : writeAndAdvance rd v s = .next t) : writeAndAdvance rd v (s.withCycles n) = .next (t.withCycles n) := by
  cases h
  simp only [writeAndAdvance, withCycles_writeReg]
  rfl

theorem linkAndJump_withCycles (s : State) (n : Nat) (rd : Reg) (target : Word) {t : State}
    (h : linkAndJump rd target s = .next t) : linkAndJump rd target (s.withCycles n) = .next (t.withCycles n) := by
  cases h
  simp only [linkAndJump, withCycles_writeReg]
  rfl

theorem loadFrom_withCycles (s : State) (n : Nat) (i : Instr) (rd : Reg) (ea : Word) (w : Width) (f : Word → Word)
    {t : State} (h : loadFrom i rd ea w f s = .next t) :
    loadFrom i rd ea w f (s.withCycles n) = .next (t.withCycles n) := by
  unfold loadFrom at *
  rw [memRead_withCycles]
  cases hm : memRead s ea w with
  | ok v => rw [hm] at h; exact writeAndAdvance_withCycles _ _ _ _ h
  | error e => rw [hm] at h; cases h; rfl

theorem storeTo_withCycles (s : State) (n : Nat) (i : Instr) (ea : Word) (w : Width) (v : Word) {t : State}
    (h : storeTo i ea w v s = .next t) : storeTo i ea w v (s.withCycles n) = .next (t.withCycles n) := by
  unfold storeTo at *
  rw [memWrite_withCycles]
  cases hm : memWrite s ea w v with
  | ok u => rw [hm] at h; cases h; rfl
  | error e => rw [hm] at h; cases h; rfl

/-- No instruction reads or changes the step count. -/
theorem exec_withCycles (i : Instr) (s : State) (n : Nat) {t : State} (h : exec i s = .next t) :
    exec i (s.withCycles n) = .next (t.withCycles n) := by
  cases i
  case jal => exact linkAndJump_withCycles _ _ _ _ h
  case jalr => exact linkAndJump_withCycles _ _ _ _ h
  case lb => exact loadFrom_withCycles _ _ _ _ _ _ _ h
  case lh => exact loadFrom_withCycles _ _ _ _ _ _ _ h
  case lw => exact loadFrom_withCycles _ _ _ _ _ _ _ h
  case lbu => exact loadFrom_withCycles _ _ _ _ _ _ _ h
  case lhu => exact loadFrom_withCycles _ _ _ _ _ _ _ h
  case sb => exact storeTo_withCycles _ _ _ _ _ _ h
  case sh => exact storeTo_withCycles _ _ _ _ _ _ h
  case sw => exact storeTo_withCycles _ _ _ _ _ _ h
  case beq => cases h; rfl
  case bne => cases h; rfl
  case blt => cases h; rfl
  case bge => cases h; rfl
  case bltu => cases h; rfl
  case bgeu => cases h; rfl
  case ebreak => cases h; rfl
  all_goals exact writeAndAdvance_withCycles _ _ _ _ h

theorem fetch_withCycles (s : State) (n : Nat) : fetch (s.withCycles n) = fetch s := memRead_withCycles _ _ _ _

end Sys2Proof.Machine
end

