-- ==== Sys2Proof/Laws/Encoding.lean ====
section
/-! SUPPORT. The formats of R102: each bit of an encoded word, the fields read back from it, and the decoder's fields in
the plain arithmetic of R9. -/

namespace Sys2Proof

open Sys2Proof.Machine

/-! ### The bits of an encoded word -/

theorem getLsbD_encodeR (f7 : BitVec 7) (rs2 rs1 : Reg) (f3 : BitVec 3) (rd : Reg) (op : BitVec 7) (i : Nat) :
    (encodeR f7 rs2 rs1 f3 rd op).getLsbD i =
      if i < 7 then op.getLsbD i else if i < 12 then (regBits rd).getLsbD (i - 7)
      else if i < 15 then f3.getLsbD (i - 12) else if i < 20 then (regBits rs1).getLsbD (i - 15)
      else if i < 25 then (regBits rs2).getLsbD (i - 20) else f7.getLsbD (i - 25) := by
  show BitVec.getLsbD (w := 7 + 5 + 5 + 3 + 5 + 7) (f7 ++ regBits rs2 ++ regBits rs1 ++ f3 ++ regBits rd ++ op) i = _
  simp only [BitVec.getLsbD_append, Nat.sub_sub]
  grind

theorem getLsbD_encodeShift (f7 : BitVec 7) (sh : BitVec 5) (rs1 : Reg) (f3 : BitVec 3) (rd : Reg) (op : BitVec 7)
    (i : Nat) :
    (encodeShift f7 sh rs1 f3 rd op).getLsbD i =
      if i < 7 then op.getLsbD i else if i < 12 then (regBits rd).getLsbD (i - 7)
      else if i < 15 then f3.getLsbD (i - 12) else if i < 20 then (regBits rs1).getLsbD (i - 15)
      else if i < 25 then sh.getLsbD (i - 20) else f7.getLsbD (i - 25) := by
  show BitVec.getLsbD (w := 7 + 5 + 5 + 3 + 5 + 7) (f7 ++ sh ++ regBits rs1 ++ f3 ++ regBits rd ++ op) i = _
  simp only [BitVec.getLsbD_append, Nat.sub_sub]
  grind

theorem getLsbD_encodeI (imm : BitVec 12) (rs1 : Reg) (f3 : BitVec 3) (rd : Reg) (op : BitVec 7) (i : Nat) :
    (encodeI imm rs1 f3 rd op).getLsbD i =
      if i < 7 then op.getLsbD i else if i < 12 then (regBits rd).getLsbD (i - 7)
      else if i < 15 then f3.getLsbD (i - 12) else if i < 20 then (regBits rs1).getLsbD (i - 15)
      else imm.getLsbD (i - 20) := by
  show BitVec.getLsbD (w := 12 + 5 + 3 + 5 + 7) (imm ++ regBits rs1 ++ f3 ++ regBits rd ++ op) i = _
  simp only [BitVec.getLsbD_append, Nat.sub_sub]
  grind

theorem getLsbD_encodeS (imm : BitVec 12) (rs2 rs1 : Reg) (f3 : BitVec 3) (op : BitVec 7) (i : Nat) :
    (encodeS imm rs2 rs1 f3 op).getLsbD i =
      if i < 7 then op.getLsbD i else if i < 12 then imm.getLsbD (i - 7)
      else if i < 15 then f3.getLsbD (i - 12) else if i < 20 then (regBits rs1).getLsbD (i - 15)
      else if i < 25 then (regBits rs2).getLsbD (i - 20) else decide (i < 32) && imm.getLsbD (i - 20) := by
  show BitVec.getLsbD (w := 7 + 5 + 5 + 3 + 5 + 7)
    (imm.extractLsb' 5 7 ++ regBits rs2 ++ regBits rs1 ++ f3 ++ imm.extractLsb' 0 5 ++ op) i = _
  simp only [BitVec.getLsbD_append, BitVec.getLsbD_extractLsb', Nat.sub_sub]
  grind

theorem getLsbD_encodeB (imm : BitVec 13) (rs2 rs1 : Reg) (f3 : BitVec 3) (op : BitVec 7) (i : Nat) :
    (encodeB imm rs2 rs1 f3 op).getLsbD i =
      if i < 7 then op.getLsbD i else if i < 8 then imm.getLsbD 11 else if i < 12 then imm.getLsbD (i - 7)
      else if i < 15 then f3.getLsbD (i - 12) else if i < 20 then (regBits rs1).getLsbD (i - 15)
      else if i < 25 then (regBits rs2).getLsbD (i - 20) else if i < 31 then imm.getLsbD (i - 20)
      else decide (i < 32) && imm.getLsbD 12 := by
  show BitVec.getLsbD (w := 1 + 6 + 5 + 5 + 3 + 4 + 1 + 7)
    (imm.extractLsb' 12 1 ++ imm.extractLsb' 5 6 ++ regBits rs2 ++ regBits rs1 ++ f3 ++
      imm.extractLsb' 1 4 ++ imm.extractLsb' 11 1 ++ op) i = _
  simp only [BitVec.getLsbD_append, BitVec.getLsbD_extractLsb', Nat.sub_sub]
  grind

theorem getLsbD_encodeU (imm : BitVec 20) (rd : Reg) (op : BitVec 7) (i : Nat) :
    (encodeU imm rd op).getLsbD i =
      if i < 7 then op.getLsbD i else if i < 12 then (regBits rd).getLsbD (i - 7) else imm.getLsbD (i - 12) := by
  show BitVec.getLsbD (w := 20 + 5 + 7) (imm ++ regBits rd ++ op) i = _
  simp only [BitVec.getLsbD_append, Nat.sub_sub]
  grind

theorem getLsbD_encodeJ (imm : BitVec 21) (rd : Reg) (op : BitVec 7) (i : Nat) :
    (encodeJ imm rd op).getLsbD i =
      if i < 7 then op.getLsbD i else if i < 12 then (regBits rd).getLsbD (i - 7)
      else if i < 20 then imm.getLsbD i else if i < 21 then imm.getLsbD 11
      else if i < 31 then imm.getLsbD (i - 20) else decide (i < 32) && imm.getLsbD 20 := by
  show BitVec.getLsbD (w := 1 + 10 + 1 + 8 + 5 + 7)
    (imm.extractLsb' 20 1 ++ imm.extractLsb' 1 10 ++ imm.extractLsb' 11 1 ++ imm.extractLsb' 12 8 ++ regBits rd ++ op) i = _
  simp only [BitVec.getLsbD_append, BitVec.getLsbD_extractLsb', Nat.sub_sub]
  grind

/-! ### The fields of an encoded word -/

/-- A register field whose five bits are those of `r` reads as `r`. -/
theorem toFin_extract_of_bits {w : Word} {lo : Nat} {r : Reg}
    (h : ∀ i, i < 5 → w.getLsbD (lo + i) = (regBits r).getLsbD i) : (w.extractLsb' lo 5).toFin = r := by
  have : w.extractLsb' lo 5 = regBits r := by
    apply BitVec.eq_of_getLsbD_eq
    intro i hi
    simp [hi, h i hi]
  rw [this]
  rfl

@[simp] theorem opcodeOf_encodeR (f7 : BitVec 7) (rs2 rs1 : Reg) (f3 : BitVec 3) (rd : Reg) (op : BitVec 7) :
    opcodeOf (encodeR f7 rs2 rs1 f3 rd op) = op := by
  apply BitVec.eq_of_getLsbD_eq
  intro i hi
  simp only [opcodeOf, BitVec.getLsbD_extractLsb', getLsbD_encodeR]
  grind

@[simp] theorem rdOf_encodeR (f7 : BitVec 7) (rs2 rs1 : Reg) (f3 : BitVec 3) (rd : Reg) (op : BitVec 7) :
    rdOf (encodeR f7 rs2 rs1 f3 rd op) = rd := by
  refine toFin_extract_of_bits fun i hi => ?_
  rw [getLsbD_encodeR]
  grind

@[simp] theorem funct3Of_encodeR (f7 : BitVec 7) (rs2 rs1 : Reg) (f3 : BitVec 3) (rd : Reg) (op : BitVec 7) :
    funct3Of (encodeR f7 rs2 rs1 f3 rd op) = f3 := by
  apply BitVec.eq_of_getLsbD_eq
  intro i hi
  simp only [funct3Of, BitVec.getLsbD_extractLsb', getLsbD_encodeR]
  grind

@[simp] theorem rs1Of_encodeR (f7 : BitVec 7) (rs2 rs1 : Reg) (f3 : BitVec 3) (rd : Reg) (op : BitVec 7) :
    rs1Of (encodeR f7 rs2 rs1 f3 rd op) = rs1 := by
  refine toFin_extract_of_bits fun i hi => ?_
  rw [getLsbD_encodeR]
  grind

@[simp] theorem rs2Of_encodeR (f7 : BitVec 7) (rs2 rs1 : Reg) (f3 : BitVec 3) (rd : Reg) (op : BitVec 7) :
    rs2Of (encodeR f7 rs2 rs1 f3 rd op) = rs2 := by
  refine toFin_extract_of_bits fun i hi => ?_
  rw [getLsbD_encodeR]
  grind

@[simp] theorem funct7Of_encodeR (f7 : BitVec 7) (rs2 rs1 : Reg) (f3 : BitVec 3) (rd : Reg) (op : BitVec 7) :
    funct7Of (encodeR f7 rs2 rs1 f3 rd op) = f7 := by
  apply BitVec.eq_of_getLsbD_eq
  intro i hi
  simp only [funct7Of, BitVec.getLsbD_extractLsb', getLsbD_encodeR]
  grind

@[simp] theorem opcodeOf_encodeShift (f7 : BitVec 7) (sh : BitVec 5) (rs1 : Reg) (f3 : BitVec 3) (rd : Reg) (op : BitVec 7) :
    opcodeOf (encodeShift f7 sh rs1 f3 rd op) = op := by
  apply BitVec.eq_of_getLsbD_eq
  intro i hi
  simp only [opcodeOf, BitVec.getLsbD_extractLsb', getLsbD_encodeShift]
  grind

@[simp] theorem rdOf_encodeShift (f7 : BitVec 7) (sh : BitVec 5) (rs1 : Reg) (f3 : BitVec 3) (rd : Reg) (op : BitVec 7) :
    rdOf (encodeShift f7 sh rs1 f3 rd op) = rd := by
  refine toFin_extract_of_bits fun i hi => ?_
  rw [getLsbD_encodeShift]
  grind

@[simp] theorem funct3Of_encodeShift (f7 : BitVec 7) (sh : BitVec 5) (rs1 : Reg) (f3 : BitVec 3) (rd : Reg) (op : BitVec 7) :
    funct3Of (encodeShift f7 sh rs1 f3 rd op) = f3 := by
  apply BitVec.eq_of_getLsbD_eq
  intro i hi
  simp only [funct3Of, BitVec.getLsbD_extractLsb', getLsbD_encodeShift]
  grind

@[simp] theorem rs1Of_encodeShift (f7 : BitVec 7) (sh : BitVec 5) (rs1 : Reg) (f3 : BitVec 3) (rd : Reg) (op : BitVec 7) :
    rs1Of (encodeShift f7 sh rs1 f3 rd op) = rs1 := by
  refine toFin_extract_of_bits fun i hi => ?_
  rw [getLsbD_encodeShift]
  grind

@[simp] theorem shamtOf_encodeShift (f7 : BitVec 7) (sh : BitVec 5) (rs1 : Reg) (f3 : BitVec 3) (rd : Reg) (op : BitVec 7) :
    shamtOf (encodeShift f7 sh rs1 f3 rd op) = sh := by
  apply BitVec.eq_of_getLsbD_eq
  intro i hi
  simp only [shamtOf, BitVec.getLsbD_extractLsb', getLsbD_encodeShift]
  grind

@[simp] theorem funct7Of_encodeShift (f7 : BitVec 7) (sh : BitVec 5) (rs1 : Reg) (f3 : BitVec 3) (rd : Reg) (op : BitVec 7) :
    funct7Of (encodeShift f7 sh rs1 f3 rd op) = f7 := by
  apply BitVec.eq_of_getLsbD_eq
  intro i hi
  simp only [funct7Of, BitVec.getLsbD_extractLsb', getLsbD_encodeShift]
  grind

@[simp] theorem opcodeOf_encodeI (imm : BitVec 12) (rs1 : Reg) (f3 : BitVec 3) (rd : Reg) (op : BitVec 7) :
    opcodeOf (encodeI imm rs1 f3 rd op) = op := by
  apply BitVec.eq_of_getLsbD_eq
  intro i hi
  simp only [opcodeOf, BitVec.getLsbD_extractLsb', getLsbD_encodeI]
  grind

@[simp] theorem rdOf_encodeI (imm : BitVec 12) (rs1 : Reg) (f3 : BitVec 3) (rd : Reg) (op : BitVec 7) :
    rdOf (encodeI imm rs1 f3 rd op) = rd := by
  refine toFin_extract_of_bits fun i hi => ?_
  rw [getLsbD_encodeI]
  grind

@[simp] theorem funct3Of_encodeI (imm : BitVec 12) (rs1 : Reg) (f3 : BitVec 3) (rd : Reg) (op : BitVec 7) :
    funct3Of (encodeI imm rs1 f3 rd op) = f3 := by
  apply BitVec.eq_of_getLsbD_eq
  intro i hi
  simp only [funct3Of, BitVec.getLsbD_extractLsb', getLsbD_encodeI]
  grind

@[simp] theorem rs1Of_encodeI (imm : BitVec 12) (rs1 : Reg) (f3 : BitVec 3) (rd : Reg) (op : BitVec 7) :
    rs1Of (encodeI imm rs1 f3 rd op) = rs1 := by
  refine toFin_extract_of_bits fun i hi => ?_
  rw [getLsbD_encodeI]
  grind

@[simp] theorem immIOf_encodeI (imm : BitVec 12) (rs1 : Reg) (f3 : BitVec 3) (rd : Reg) (op : BitVec 7) :
    immIOf (encodeI imm rs1 f3 rd op) = imm := by
  apply BitVec.eq_of_getLsbD_eq
  intro i hi
  simp only [immIOf, BitVec.getLsbD_extractLsb', getLsbD_encodeI]
  grind

@[simp] theorem opcodeOf_encodeS (imm : BitVec 12) (rs2 rs1 : Reg) (f3 : BitVec 3) (op : BitVec 7) :
    opcodeOf (encodeS imm rs2 rs1 f3 op) = op := by
  apply BitVec.eq_of_getLsbD_eq
  intro i hi
  simp only [opcodeOf, BitVec.getLsbD_extractLsb', getLsbD_encodeS]
  grind

@[simp] theorem funct3Of_encodeS (imm : BitVec 12) (rs2 rs1 : Reg) (f3 : BitVec 3) (op : BitVec 7) :
    funct3Of (encodeS imm rs2 rs1 f3 op) = f3 := by
  apply BitVec.eq_of_getLsbD_eq
  intro i hi
  simp only [funct3Of, BitVec.getLsbD_extractLsb', getLsbD_encodeS]
  grind

@[simp] theorem rs1Of_encodeS (imm : BitVec 12) (rs2 rs1 : Reg) (f3 : BitVec 3) (op : BitVec 7) :
    rs1Of (encodeS imm rs2 rs1 f3 op) = rs1 := by
  refine toFin_extract_of_bits fun i hi => ?_
  rw [getLsbD_encodeS]
  grind

@[simp] theorem rs2Of_encodeS (imm : BitVec 12) (rs2 rs1 : Reg) (f3 : BitVec 3) (op : BitVec 7) :
    rs2Of (encodeS imm rs2 rs1 f3 op) = rs2 := by
  refine toFin_extract_of_bits fun i hi => ?_
  rw [getLsbD_encodeS]
  grind

@[simp] theorem immSOf_encodeS (imm : BitVec 12) (rs2 rs1 : Reg) (f3 : BitVec 3) (op : BitVec 7) :
    immSOf (encodeS imm rs2 rs1 f3 op) = imm := by
  apply BitVec.eq_of_getLsbD_eq
  intro i hi
  simp only [immSOf, BitVec.getLsbD_append, BitVec.getLsbD_extractLsb', getLsbD_encodeS]
  grind

@[simp] theorem opcodeOf_encodeB (imm : BitVec 13) (rs2 rs1 : Reg) (f3 : BitVec 3) (op : BitVec 7) :
    opcodeOf (encodeB imm rs2 rs1 f3 op) = op := by
  apply BitVec.eq_of_getLsbD_eq
  intro i hi
  simp only [opcodeOf, BitVec.getLsbD_extractLsb', getLsbD_encodeB]
  grind

@[simp] theorem funct3Of_encodeB (imm : BitVec 13) (rs2 rs1 : Reg) (f3 : BitVec 3) (op : BitVec 7) :
    funct3Of (encodeB imm rs2 rs1 f3 op) = f3 := by
  apply BitVec.eq_of_getLsbD_eq
  intro i hi
  simp only [funct3Of, BitVec.getLsbD_extractLsb', getLsbD_encodeB]
  grind

@[simp] theorem rs1Of_encodeB (imm : BitVec 13) (rs2 rs1 : Reg) (f3 : BitVec 3) (op : BitVec 7) :
    rs1Of (encodeB imm rs2 rs1 f3 op) = rs1 := by
  refine toFin_extract_of_bits fun i hi => ?_
  rw [getLsbD_encodeB]
  grind

@[simp] theorem rs2Of_encodeB (imm : BitVec 13) (rs2 rs1 : Reg) (f3 : BitVec 3) (op : BitVec 7) :
    rs2Of (encodeB imm rs2 rs1 f3 op) = rs2 := by
  refine toFin_extract_of_bits fun i hi => ?_
  rw [getLsbD_encodeB]
  grind

@[simp] theorem immBOf_encodeB (imm : BitVec 13) (rs2 rs1 : Reg) (f3 : BitVec 3) (op : BitVec 7) (h : evenOffset imm = true) :
    immBOf (encodeB imm rs2 rs1 f3 op) = imm := by
  have h0 : imm[0] = false := by simpa [evenOffset] using h
  apply BitVec.eq_of_getLsbD_eq
  intro i hi
  simp only [immBOf, BitVec.getLsbD_append, BitVec.getLsbD_extractLsb', getLsbD_encodeB]
  interval_cases i <;> simp [h0]

@[simp] theorem opcodeOf_encodeU (imm : BitVec 20) (rd : Reg) (op : BitVec 7) :
    opcodeOf (encodeU imm rd op) = op := by
  apply BitVec.eq_of_getLsbD_eq
  intro i hi
  simp only [opcodeOf, BitVec.getLsbD_extractLsb', getLsbD_encodeU]
  grind

@[simp] theorem rdOf_encodeU (imm : BitVec 20) (rd : Reg) (op : BitVec 7) :
    rdOf (encodeU imm rd op) = rd := by
  refine toFin_extract_of_bits fun i hi => ?_
  rw [getLsbD_encodeU]
  grind

@[simp] theorem immUOf_encodeU (imm : BitVec 20) (rd : Reg) (op : BitVec 7) :
    immUOf (encodeU imm rd op) = imm := by
  apply BitVec.eq_of_getLsbD_eq
  intro i hi
  simp only [immUOf, BitVec.getLsbD_extractLsb', getLsbD_encodeU]
  grind

@[simp] theorem opcodeOf_encodeJ (imm : BitVec 21) (rd : Reg) (op : BitVec 7) :
    opcodeOf (encodeJ imm rd op) = op := by
  apply BitVec.eq_of_getLsbD_eq
  intro i hi
  simp only [opcodeOf, BitVec.getLsbD_extractLsb', getLsbD_encodeJ]
  grind

@[simp] theorem rdOf_encodeJ (imm : BitVec 21) (rd : Reg) (op : BitVec 7) :
    rdOf (encodeJ imm rd op) = rd := by
  refine toFin_extract_of_bits fun i hi => ?_
  rw [getLsbD_encodeJ]
  grind

@[simp] theorem immJOf_encodeJ (imm : BitVec 21) (rd : Reg) (op : BitVec 7) (h : evenOffset imm = true) :
    immJOf (encodeJ imm rd op) = imm := by
  have h0 : imm[0] = false := by simpa [evenOffset] using h
  apply BitVec.eq_of_getLsbD_eq
  intro i hi
  simp only [immJOf, BitVec.getLsbD_append, BitVec.getLsbD_extractLsb', getLsbD_encodeJ]
  interval_cases i <;> simp [h0]

/-! ### The decoder's fields in the arithmetic of R9 -/

theorem toNat_extractLsb'_eq_bits (w : Word) (hi lo n : Nat) (h : hi + 1 = lo + n) (hn : 0 < n) :
    (w.extractLsb' lo n).toNat = bits w hi lo := by
  rw [BitVec.extractLsb'_toNat, Nat.shiftRight_eq_div_pow, bits]
  congr 2
  omega

theorem bits_lt (w : Word) (hi lo : Nat) : bits w hi lo < 2 ^ (hi - lo + 1) := Nat.mod_lt _ (Nat.two_pow_pos _)

theorem regField_eq (w : Word) (lo : Nat) : (w.extractLsb' lo 5).toFin = regField w lo := by
  apply Fin.ext
  show (w.extractLsb' lo 5).toNat = bits w (lo + 4) lo % 32
  have h := bits_lt w (lo + 4) lo
  rw [show lo + 4 - lo + 1 = 5 by omega] at h
  rw [toNat_extractLsb'_eq_bits w (lo + 4) lo 5 (by omega) (by omega)]
  exact (Nat.mod_eq_of_lt h).symm

theorem rdOf_eq (w : Word) : rdOf w = regField w 7 := regField_eq w 7
theorem rs1Of_eq (w : Word) : rs1Of w = regField w 15 := regField_eq w 15
theorem rs2Of_eq (w : Word) : rs2Of w = regField w 20 := regField_eq w 20

theorem ofNat_bits (w : Word) (hi lo n : Nat) (h : hi + 1 = lo + n) (hn : 0 < n) :
    w.extractLsb' lo n = BitVec.ofNat n (bits w hi lo) := by
  rw [← toNat_extractLsb'_eq_bits w hi lo n h hn, BitVec.ofNat_toNat, BitVec.setWidth_eq]

theorem immIOf_eq (w : Word) : immIOf w = fieldI w := ofNat_bits w 31 20 12 rfl (by omega)
theorem immUOf_eq (w : Word) : immUOf w = fieldU w := ofNat_bits w 31 12 20 rfl (by omega)
theorem shamtOf_eq (w : Word) : shamtOf w = fieldShamt w := ofNat_bits w 24 20 5 rfl (by omega)

theorem toNat_append_eq {n m : Nat} (x : BitVec n) (y : BitVec m) : (x ++ y).toNat = x.toNat * 2 ^ m + y.toNat := by
  rw [BitVec.toNat_append, ← Nat.shiftLeft_add_eq_or_of_lt y.isLt, Nat.shiftLeft_eq]

theorem immSOf_eq (w : Word) : immSOf w = fieldS w := by
  apply BitVec.eq_of_toNat_eq
  have h : (immSOf w).toNat = bits w 31 25 * 2 ^ 5 + bits w 11 7 := by
    unfold immSOf
    rw [toNat_append_eq, toNat_extractLsb'_eq_bits _ 31 25 7 rfl (by omega),
      toNat_extractLsb'_eq_bits _ 11 7 5 rfl (by omega)]
  rw [fieldS, BitVec.toNat_ofNat, ← h, Nat.mod_eq_of_lt (immSOf w).isLt]

theorem immBOf_eq (w : Word) : immBOf w = fieldB w := by
  apply BitVec.eq_of_toNat_eq
  have h : (immBOf w).toNat =
      bits w 31 31 * 2 ^ 12 + bits w 7 7 * 2 ^ 11 + bits w 30 25 * 2 ^ 5 + bits w 11 8 * 2 := by
    unfold immBOf
    simp only [toNat_append_eq]
    rw [toNat_extractLsb'_eq_bits _ 31 31 1 rfl (by omega), toNat_extractLsb'_eq_bits _ 7 7 1 rfl (by omega),
      toNat_extractLsb'_eq_bits _ 30 25 6 rfl (by omega), toNat_extractLsb'_eq_bits _ 11 8 4 rfl (by omega)]
    simp only [BitVec.toNat_ofNat]
    omega
  rw [fieldB, BitVec.toNat_ofNat, ← h, Nat.mod_eq_of_lt (immBOf w).isLt]

theorem immJOf_eq (w : Word) : immJOf w = fieldJ w := by
  apply BitVec.eq_of_toNat_eq
  have h : (immJOf w).toNat =
      bits w 31 31 * 2 ^ 20 + bits w 19 12 * 2 ^ 12 + bits w 20 20 * 2 ^ 11 + bits w 30 21 * 2 := by
    unfold immJOf
    simp only [toNat_append_eq]
    rw [toNat_extractLsb'_eq_bits _ 31 31 1 rfl (by omega), toNat_extractLsb'_eq_bits _ 19 12 8 rfl (by omega),
      toNat_extractLsb'_eq_bits _ 20 20 1 rfl (by omega), toNat_extractLsb'_eq_bits _ 30 21 10 rfl (by omega)]
    simp only [BitVec.toNat_ofNat]
    omega
  rw [fieldJ, BitVec.toNat_ofNat, ← h, Nat.mod_eq_of_lt (immJOf w).isLt]

theorem opcodeOf_toNat (w : Word) : (opcodeOf w).toNat = bits w 6 0 :=
  toNat_extractLsb'_eq_bits w 6 0 7 rfl (by omega)
theorem funct3Of_toNat (w : Word) : (funct3Of w).toNat = bits w 14 12 :=
  toNat_extractLsb'_eq_bits w 14 12 3 rfl (by omega)
theorem funct7Of_toNat (w : Word) : (funct7Of w).toNat = bits w 31 25 :=
  toNat_extractLsb'_eq_bits w 31 25 7 rfl (by omega)

/-! ### Masks of the opcode table (R105) -/

/-- Two words agree under a mask exactly when every bit the mask has agrees. -/
theorem and_eq_iff {w mask pattern : Word} (hp : pattern &&& mask = pattern) :
    w &&& mask = pattern ↔ ∀ i, i < 32 → mask.getLsbD i = true → w.getLsbD i = pattern.getLsbD i := by
  constructor
  · rintro rfl i hi hm
    simp [hm]
  · intro h
    apply BitVec.eq_of_getLsbD_eq
    intro i hi
    have hpi : (pattern.getLsbD i && mask.getLsbD i) = pattern.getLsbD i := by
      rw [← BitVec.getLsbD_and, hp]
    rw [BitVec.getLsbD_and]
    cases hm : mask.getLsbD i with
    | true => simp [h i hi hm]
    | false => rw [← hpi, hm]; simp

/-- A field of a word is a given value exactly when its bits are. -/
theorem extractLsb'_eq_iff (w : Word) (lo n : Nat) (v : BitVec n) :
    w.extractLsb' lo n = v ↔ ∀ i, i < n → w.getLsbD (lo + i) = v.getLsbD i := by
  constructor
  · rintro rfl i hi
    simp [hi]
  · intro h
    apply BitVec.eq_of_getLsbD_eq
    intro i hi
    simp [hi, h i hi]

/-- The rows whose mask is the major opcode. -/
theorem and_opcode_iff {w pattern : Word} (hp : pattern &&& 0x7F#32 = pattern) :
    w &&& 0x7F#32 = pattern ↔ opcodeOf w = opcodeOf pattern := by
  rw [and_eq_iff hp, opcodeOf, extractLsb'_eq_iff]
  constructor
  · intro h i hi
    simp only [opcodeOf, BitVec.getLsbD_extractLsb', hi, decide_true, Bool.true_and]
    refine h _ (by omega) ?_
    interval_cases i <;> rfl
  · intro h i hi hm
    have h7 : i < 7 := by
      by_contra hge
      have : ∀ j, 7 ≤ j → j < 32 → (0x7F#32).getLsbD j = false := by decide
      rw [this i (by omega) hi] at hm
      cases hm
    have := h i h7
    simpa [opcodeOf, h7] using this

/-- The rows whose mask is the major opcode and funct3. -/
theorem and_funct3_iff {w pattern : Word} (hp : pattern &&& 0x707F#32 = pattern) :
    w &&& 0x707F#32 = pattern ↔ opcodeOf w = opcodeOf pattern ∧ funct3Of w = funct3Of pattern := by
  rw [and_eq_iff hp, opcodeOf, extractLsb'_eq_iff, funct3Of, extractLsb'_eq_iff]
  constructor
  · intro h
    constructor <;> intro i hi
    · simp only [opcodeOf, BitVec.getLsbD_extractLsb', hi, decide_true, Bool.true_and]
      refine h _ (by omega) ?_
      interval_cases i <;> rfl
    · simp only [funct3Of, BitVec.getLsbD_extractLsb', hi, decide_true, Bool.true_and]
      refine h _ (by omega) ?_
      interval_cases i <;> rfl
  · rintro ⟨h1, h2⟩ i hi hm
    have hin : i < 7 ∨ 12 ≤ i ∧ i < 15 := by
      by_contra hge
      have : ∀ j, j < 32 → ¬(j < 7 ∨ 12 ≤ j ∧ j < 15) → (0x707F#32).getLsbD j = false := by decide
      rw [this i hi hge] at hm
      cases hm
    rcases hin with h7 | ⟨ha, hb⟩
    · simpa [opcodeOf, h7] using h1 i h7
    · obtain ⟨d, rfl⟩ := Nat.exists_eq_add_of_le ha
      have hd : d < 3 := by omega
      simpa [funct3Of, hd] using h2 d hd

/-- The rows whose mask is the major opcode, funct3 and funct7. -/
theorem and_funct7_iff {w pattern : Word} (hp : pattern &&& 0xFE00707F#32 = pattern) :
    w &&& 0xFE00707F#32 = pattern ↔
      opcodeOf w = opcodeOf pattern ∧ funct3Of w = funct3Of pattern ∧ funct7Of w = funct7Of pattern := by
  rw [and_eq_iff hp, opcodeOf, extractLsb'_eq_iff, funct3Of, extractLsb'_eq_iff, funct7Of, extractLsb'_eq_iff]
  constructor
  · intro h
    refine ⟨?_, ?_, ?_⟩ <;> intro i hi
    · simp only [opcodeOf, BitVec.getLsbD_extractLsb', hi, decide_true, Bool.true_and]
      refine h _ (by omega) ?_
      interval_cases i <;> rfl
    · simp only [funct3Of, BitVec.getLsbD_extractLsb', hi, decide_true, Bool.true_and]
      refine h _ (by omega) ?_
      interval_cases i <;> rfl
    · simp only [funct7Of, BitVec.getLsbD_extractLsb', hi, decide_true, Bool.true_and]
      refine h _ (by omega) ?_
      interval_cases i <;> rfl
  · rintro ⟨h1, h2, h3⟩ i hi hm
    have hin : i < 7 ∨ (12 ≤ i ∧ i < 15) ∨ 25 ≤ i := by
      by_contra hge
      have : ∀ j, j < 32 → ¬(j < 7 ∨ (12 ≤ j ∧ j < 15) ∨ 25 ≤ j) → (0xFE00707F#32).getLsbD j = false := by decide
      rw [this i hi hge] at hm
      cases hm
    rcases hin with h7 | ⟨ha, hb⟩ | ha
    · simpa [opcodeOf, h7] using h1 i h7
    · obtain ⟨d, rfl⟩ := Nat.exists_eq_add_of_le ha
      have hd : d < 3 := by omega
      simpa [funct3Of, hd] using h2 d hd
    · obtain ⟨d, rfl⟩ := Nat.exists_eq_add_of_le ha
      have hd : d < 7 := by omega
      simpa [funct7Of, hd] using h3 d hd

end Sys2Proof
end

