-- ==== Sys2Proof/Laws/PerInstr.lean ====
section
/-! SUPPORT. Statements made for every instruction, one lemma a constructor. -/

namespace Sys2Proof.Laws

/-- Bits 1:0 of the word of every instruction are 0b11 (30_encoding.md R100). -/
def LowBits.Statement (i : Instr) : Prop := (encode i).extractLsb' 0 2 = 0b11#2

/-- The low two bits of a word are those of its major opcode. -/
theorem low_of_opcode {w : Word} {op : BitVec 7} (h : opcodeOf w = op) (hop : op.extractLsb' 0 2 = 0b11#2) :
    w.extractLsb' 0 2 = 0b11#2 := by
  rw [← hop, ← h, opcodeOf]
  apply BitVec.eq_of_getLsbD_eq
  intro i hi
  simp [hi]

namespace LowBits

theorem lui (rd : Reg) (imm : BitVec 20) : Statement (.lui rd imm) :=
  low_of_opcode (opcodeOf_encodeU _ _ _) (by decide)
theorem auipc (rd : Reg) (imm : BitVec 20) : Statement (.auipc rd imm) :=
  low_of_opcode (opcodeOf_encodeU _ _ _) (by decide)
theorem addi (rd rs1 : Reg) (imm : BitVec 12) : Statement (.addi rd rs1 imm) :=
  low_of_opcode (opcodeOf_encodeI _ _ _ _ _) (by decide)
theorem slti (rd rs1 : Reg) (imm : BitVec 12) : Statement (.slti rd rs1 imm) :=
  low_of_opcode (opcodeOf_encodeI _ _ _ _ _) (by decide)
theorem sltiu (rd rs1 : Reg) (imm : BitVec 12) : Statement (.sltiu rd rs1 imm) :=
  low_of_opcode (opcodeOf_encodeI _ _ _ _ _) (by decide)
theorem xori (rd rs1 : Reg) (imm : BitVec 12) : Statement (.xori rd rs1 imm) :=
  low_of_opcode (opcodeOf_encodeI _ _ _ _ _) (by decide)
theorem ori (rd rs1 : Reg) (imm : BitVec 12) : Statement (.ori rd rs1 imm) :=
  low_of_opcode (opcodeOf_encodeI _ _ _ _ _) (by decide)
theorem andi (rd rs1 : Reg) (imm : BitVec 12) : Statement (.andi rd rs1 imm) :=
  low_of_opcode (opcodeOf_encodeI _ _ _ _ _) (by decide)
theorem slli (rd rs1 : Reg) (shamt : BitVec 5) : Statement (.slli rd rs1 shamt) :=
  low_of_opcode (opcodeOf_encodeShift _ _ _ _ _ _) (by decide)
theorem srli (rd rs1 : Reg) (shamt : BitVec 5) : Statement (.srli rd rs1 shamt) :=
  low_of_opcode (opcodeOf_encodeShift _ _ _ _ _ _) (by decide)
theorem srai (rd rs1 : Reg) (shamt : BitVec 5) : Statement (.srai rd rs1 shamt) :=
  low_of_opcode (opcodeOf_encodeShift _ _ _ _ _ _) (by decide)
theorem add (rd rs1 rs2 : Reg) : Statement (.add rd rs1 rs2) :=
  low_of_opcode (opcodeOf_encodeR _ _ _ _ _ _) (by decide)
theorem sub (rd rs1 rs2 : Reg) : Statement (.sub rd rs1 rs2) :=
  low_of_opcode (opcodeOf_encodeR _ _ _ _ _ _) (by decide)
theorem sll (rd rs1 rs2 : Reg) : Statement (.sll rd rs1 rs2) :=
  low_of_opcode (opcodeOf_encodeR _ _ _ _ _ _) (by decide)
theorem slt (rd rs1 rs2 : Reg) : Statement (.slt rd rs1 rs2) :=
  low_of_opcode (opcodeOf_encodeR _ _ _ _ _ _) (by decide)
theorem sltu (rd rs1 rs2 : Reg) : Statement (.sltu rd rs1 rs2) :=
  low_of_opcode (opcodeOf_encodeR _ _ _ _ _ _) (by decide)
theorem xor (rd rs1 rs2 : Reg) : Statement (.xor rd rs1 rs2) :=
  low_of_opcode (opcodeOf_encodeR _ _ _ _ _ _) (by decide)
theorem srl (rd rs1 rs2 : Reg) : Statement (.srl rd rs1 rs2) :=
  low_of_opcode (opcodeOf_encodeR _ _ _ _ _ _) (by decide)
theorem sra (rd rs1 rs2 : Reg) : Statement (.sra rd rs1 rs2) :=
  low_of_opcode (opcodeOf_encodeR _ _ _ _ _ _) (by decide)
theorem or (rd rs1 rs2 : Reg) : Statement (.or rd rs1 rs2) :=
  low_of_opcode (opcodeOf_encodeR _ _ _ _ _ _) (by decide)
theorem and (rd rs1 rs2 : Reg) : Statement (.and rd rs1 rs2) :=
  low_of_opcode (opcodeOf_encodeR _ _ _ _ _ _) (by decide)
theorem mul (rd rs1 rs2 : Reg) : Statement (.mul rd rs1 rs2) :=
  low_of_opcode (opcodeOf_encodeR _ _ _ _ _ _) (by decide)
theorem mulh (rd rs1 rs2 : Reg) : Statement (.mulh rd rs1 rs2) :=
  low_of_opcode (opcodeOf_encodeR _ _ _ _ _ _) (by decide)
theorem mulhsu (rd rs1 rs2 : Reg) : Statement (.mulhsu rd rs1 rs2) :=
  low_of_opcode (opcodeOf_encodeR _ _ _ _ _ _) (by decide)
theorem mulhu (rd rs1 rs2 : Reg) : Statement (.mulhu rd rs1 rs2) :=
  low_of_opcode (opcodeOf_encodeR _ _ _ _ _ _) (by decide)
theorem div (rd rs1 rs2 : Reg) : Statement (.div rd rs1 rs2) :=
  low_of_opcode (opcodeOf_encodeR _ _ _ _ _ _) (by decide)
theorem divu (rd rs1 rs2 : Reg) : Statement (.divu rd rs1 rs2) :=
  low_of_opcode (opcodeOf_encodeR _ _ _ _ _ _) (by decide)
theorem rem (rd rs1 rs2 : Reg) : Statement (.rem rd rs1 rs2) :=
  low_of_opcode (opcodeOf_encodeR _ _ _ _ _ _) (by decide)
theorem remu (rd rs1 rs2 : Reg) : Statement (.remu rd rs1 rs2) :=
  low_of_opcode (opcodeOf_encodeR _ _ _ _ _ _) (by decide)
theorem jal (rd : Reg) (offset : BitVec 21) : Statement (.jal rd offset) :=
  low_of_opcode (opcodeOf_encodeJ _ _ _) (by decide)
theorem jalr (rd rs1 : Reg) (imm : BitVec 12) : Statement (.jalr rd rs1 imm) :=
  low_of_opcode (opcodeOf_encodeI _ _ _ _ _) (by decide)
theorem beq (rs1 rs2 : Reg) (offset : BitVec 13) : Statement (.beq rs1 rs2 offset) :=
  low_of_opcode (opcodeOf_encodeB _ _ _ _ _) (by decide)
theorem bne (rs1 rs2 : Reg) (offset : BitVec 13) : Statement (.bne rs1 rs2 offset) :=
  low_of_opcode (opcodeOf_encodeB _ _ _ _ _) (by decide)
theorem blt (rs1 rs2 : Reg) (offset : BitVec 13) : Statement (.blt rs1 rs2 offset) :=
  low_of_opcode (opcodeOf_encodeB _ _ _ _ _) (by decide)
theorem bge (rs1 rs2 : Reg) (offset : BitVec 13) : Statement (.bge rs1 rs2 offset) :=
  low_of_opcode (opcodeOf_encodeB _ _ _ _ _) (by decide)
theorem bltu (rs1 rs2 : Reg) (offset : BitVec 13) : Statement (.bltu rs1 rs2 offset) :=
  low_of_opcode (opcodeOf_encodeB _ _ _ _ _) (by decide)
theorem bgeu (rs1 rs2 : Reg) (offset : BitVec 13) : Statement (.bgeu rs1 rs2 offset) :=
  low_of_opcode (opcodeOf_encodeB _ _ _ _ _) (by decide)
theorem lb (rd rs1 : Reg) (imm : BitVec 12) : Statement (.lb rd rs1 imm) :=
  low_of_opcode (opcodeOf_encodeI _ _ _ _ _) (by decide)
theorem lh (rd rs1 : Reg) (imm : BitVec 12) : Statement (.lh rd rs1 imm) :=
  low_of_opcode (opcodeOf_encodeI _ _ _ _ _) (by decide)
theorem lw (rd rs1 : Reg) (imm : BitVec 12) : Statement (.lw rd rs1 imm) :=
  low_of_opcode (opcodeOf_encodeI _ _ _ _ _) (by decide)
theorem lbu (rd rs1 : Reg) (imm : BitVec 12) : Statement (.lbu rd rs1 imm) :=
  low_of_opcode (opcodeOf_encodeI _ _ _ _ _) (by decide)
theorem lhu (rd rs1 : Reg) (imm : BitVec 12) : Statement (.lhu rd rs1 imm) :=
  low_of_opcode (opcodeOf_encodeI _ _ _ _ _) (by decide)
theorem sb (rs2 rs1 : Reg) (imm : BitVec 12) : Statement (.sb rs2 rs1 imm) :=
  low_of_opcode (opcodeOf_encodeS _ _ _ _ _) (by decide)
theorem sh (rs2 rs1 : Reg) (imm : BitVec 12) : Statement (.sh rs2 rs1 imm) :=
  low_of_opcode (opcodeOf_encodeS _ _ _ _ _) (by decide)
theorem sw (rs2 rs1 : Reg) (imm : BitVec 12) : Statement (.sw rs2 rs1 imm) :=
  low_of_opcode (opcodeOf_encodeS _ _ _ _ _) (by decide)
theorem ebreak : Statement .ebreak := by
  unfold Statement
  decide

end LowBits

end Sys2Proof.Laws
end

