-- ==== Sys2Proof/Tests/Slice0.lean ====
section
/-! SUPPORT. The model's own tests. Expected results are the spec's: the encodings of 30_encoding.md, the vectors of
95_test_vectors.md, or a hand calculation from the cited rule. -/

namespace Sys2Proof.Tests

open Sys2Proof Sys2Proof.Machine

/-! ### Helpers: a small state with a word under the pc, and what one step leaves -/

/-- Reset with these registers written, and this word where the next step fetches. -/
def start (regs : List (Reg × Word)) (w : Nat) : State :=
  (regs.foldl (fun s p => s.writeReg p.1 p.2) State.reset).withFetchWord 32 w

/-- The same with the pc elsewhere in RAM. -/
def startAt (pc : Word) (regs : List (Reg × Word)) (w : Nat) : State :=
  let s : State := regs.foldl (fun s p => s.writeReg p.1 p.2) State.reset
  ({ s with pc := pc }).withFetchWord 32 w

/-- A view of the state after one step. -/
def after {α : Type} (s : State) (view : State → α) : Option α :=
  match step s with
  | .next t => some (view t)
  | .fault _ => none
  | .refused _ => none

/-- One register, the pc and the timer. -/
def regPcTimer (r : Reg) (t : State) : Word × Word × BitVec 64 := (t.readReg r, t.pc, t.timer)

/-- The mode and the record. -/
def faultOf (t : State) : Mode × Option FaultRecord := (t.mode, t.fault)

/-- The eight bytes of 95_test_vectors.md section 2.4. -/
def eightBytes (t : State) : List Byte := (List.range 8).map (fun k => t.ram.read (0x20001000 + k))

/-- The memory of section 2.4, with t1 (x6) and a0 (x10) given. -/
def bytesAt (t1 a0 : Word) (w : Nat) : State :=
  let s := start [(6, t1), (10, a0)] w
  { s with ram := (s.ram.writeWidth 0x20001000 0x8899AABB .word).writeWidth 0x20001004 0x11223344 .word }

/-- The state after one step, the state itself where there is none. -/
def stepped (s : State) : State :=
  match step s with
  | .next t => t
  | .fault _ => s
  | .refused _ => s

theorem step_stepped (s : State) : step s = .next (stepped s) := by
  obtain ⟨t, h, -⟩ := step_to s
  rw [stepped, h]

/-! ### WellFormed: an ill-formed term for each check, refused -/


theorem test_wf_jal_odd_offset_refused :
    Instr.wf (.jal 1 3) = false := by decide

theorem test_wf_beq_odd_offset_refused :
    Instr.wf (.beq 1 2 5) = false := by decide

theorem test_wf_bne_odd_offset_refused :
    Instr.wf (.bne 1 2 5) = false := by decide

theorem test_wf_blt_odd_offset_refused :
    Instr.wf (.blt 1 2 5) = false := by decide

theorem test_wf_bge_odd_offset_refused :
    Instr.wf (.bge 1 2 5) = false := by decide

theorem test_wf_bltu_odd_offset_refused :
    Instr.wf (.bltu 1 2 5) = false := by decide

theorem test_wf_bgeu_odd_offset_refused :
    Instr.wf (.bgeu 1 2 5) = false := by decide

theorem test_wf_jal_even_offset :
    Instr.wf (.jal 1 0x1FFFFE) = true := by decide

/-! Configurations: one that breaks each clause of 00_scope.md R8, refused by that clause. -/


theorem test_config_regions_past_2_32_refused :
    (ConfigClause.all.find? (fun k => !k.holds { defaultConfig with ioSize := 0xC0000001 })) = some .regionsFit ∧
      Config.wf { defaultConfig with ioSize := 0xC0000001 } = false := by decide

theorem test_config_regions_overlap_refused :
    (ConfigClause.all.find? (fun k => !k.holds { defaultConfig with ramSize := 0x20000001 })) = some .regionsDisjoint ∧
      Config.wf { defaultConfig with ramSize := 0x20000001 } = false := by decide

theorem test_config_sub_windows_overlap_refused :
    (ConfigClause.all.find? (fun k => !k.holds { defaultConfig with pwmBase := 0x40028FFC })) = some .subWindows ∧
      Config.wf { defaultConfig with pwmBase := 0x40028FFC } = false := by decide

theorem test_config_sub_window_outside_io_refused :
    (ConfigClause.all.find? (fun k => !k.holds { defaultConfig with timerBase := 0x4FFFF004 })) = some .subWindows ∧
      Config.wf { defaultConfig with timerBase := 0x4FFFF004 } = false := by decide

theorem test_config_offset_not_multiple_of_4_refused :
    (ConfigClause.all.find? (fun k => !k.holds { defaultConfig with timerRawhOff := 0x26 })) = some .offsets ∧
      Config.wf { defaultConfig with timerRawhOff := 0x26 } = false := by decide

theorem test_config_table_without_a_pin_refused :
    (ConfigClause.all.find? (fun k => !k.holds { defaultConfig with numPins := 31 })) = some .offsets ∧
      Config.wf { defaultConfig with numPins := 31 } = false := by decide

theorem test_config_two_registers_at_one_offset_refused :
    (ConfigClause.all.find? (fun k => !k.holds { defaultConfig with pwmEnOff := 0x0C })) = some .offsets ∧
      Config.wf { defaultConfig with pwmEnOff := 0x0C } = false := by decide

theorem test_config_load_addr_outside_ram_refused :
    (ConfigClause.all.find? (fun k => !k.holds { defaultConfig with loadAddr := 0x20082000 })) = some .loadAddrInRam ∧
      Config.wf { defaultConfig with loadAddr := 0x20082000 } = false := by decide

theorem test_config_function_codes_equal_refused :
    (ConfigClause.all.find? (fun k => !k.holds { defaultConfig with funcDio := 4 })) = some .funcCodes ∧
      Config.wf { defaultConfig with funcDio := 4 } = false := by decide

theorem test_config_function_code_of_6_bits_refused :
    (ConfigClause.all.find? (fun k => !k.holds { defaultConfig with funcNull := 32 })) = some .funcCodes ∧
      Config.wf { defaultConfig with funcNull := 32 } = false := by decide

theorem test_config_no_tick_refused :
    (ConfigClause.all.find? (fun k => !k.holds { defaultConfig with ticksPerInstr := 0 })) = some .counts ∧
      Config.wf { defaultConfig with ticksPerInstr := 0 } = false := by decide

theorem test_config_xlen_64_refused :
    (ConfigClause.all.find? (fun k => !k.holds { defaultConfig with xlen := 64 })) = some .widths ∧
      Config.wf { defaultConfig with xlen := 64 } = false := by decide

theorem test_config_refusal_names_its_clause :
    Config.check { defaultConfig with ticksPerInstr := 0 } = .error .counts := rfl

/-! Memories that are not in the canonical form, refused. -/


theorem test_memory_descending_refused :
    Memory.wf [(2, 1#8), (1, 1#8)] = false := by decide

theorem test_memory_repeated_refused :
    Memory.wf [(1, 1#8), (1, 2#8)] = false := by decide

theorem test_memory_unlisted_byte_refused :
    Memory.wf [(1, 0#8)] = false := by decide

theorem test_memory_canonical :
    Memory.wf [(1, 1#8), (2, 1#8)] = true := by decide

/-! ### Decode: a word of every row, its bits written out from the formats R102, the immediates R103 and the opcode
table R105. Registers: rd = 21, rs1 = 13, rs2 = 26; no two fields of a word hold the same bits. -/


theorem test_decode_lui :
    decodeTableWord 32 0b10101011110011011110_10101_0110111 = some (.lui 21 0xABCDE) := by decide

theorem test_decode_auipc :
    decodeTableWord 32 0b01101011110011011110_10101_0010111 = some (.auipc 21 0x6BCDE) := by decide

theorem test_decode_addi :
    decodeTableWord 32 0b101001010011_01101_000_10101_0010011 = some (.addi 21 13 0xA53) := by decide

theorem test_decode_slti :
    decodeTableWord 32 0b101001010011_01101_010_10101_0010011 = some (.slti 21 13 0xA53) := by decide

theorem test_decode_sltiu :
    decodeTableWord 32 0b101001010011_01101_011_10101_0010011 = some (.sltiu 21 13 0xA53) := by decide

theorem test_decode_xori :
    decodeTableWord 32 0b101001010011_01101_100_10101_0010011 = some (.xori 21 13 0xA53) := by decide

theorem test_decode_ori :
    decodeTableWord 32 0b101001010011_01101_110_10101_0010011 = some (.ori 21 13 0xA53) := by decide

theorem test_decode_andi :
    decodeTableWord 32 0b101001010011_01101_111_10101_0010011 = some (.andi 21 13 0xA53) := by decide

theorem test_decode_slli :
    decodeTableWord 32 0b0000000_11010_01101_001_10101_0010011 = some (.slli 21 13 26) := by decide

theorem test_decode_srli :
    decodeTableWord 32 0b0000000_11010_01101_101_10101_0010011 = some (.srli 21 13 26) := by decide

theorem test_decode_srai :
    decodeTableWord 32 0b0100000_11010_01101_101_10101_0010011 = some (.srai 21 13 26) := by decide

theorem test_decode_add :
    decodeTableWord 32 0b0000000_11010_01101_000_10101_0110011 = some (.add 21 13 26) := by decide

theorem test_decode_sub :
    decodeTableWord 32 0b0100000_11010_01101_000_10101_0110011 = some (.sub 21 13 26) := by decide

theorem test_decode_sll :
    decodeTableWord 32 0b0000000_11010_01101_001_10101_0110011 = some (.sll 21 13 26) := by decide

theorem test_decode_slt :
    decodeTableWord 32 0b0000000_11010_01101_010_10101_0110011 = some (.slt 21 13 26) := by decide

theorem test_decode_sltu :
    decodeTableWord 32 0b0000000_11010_01101_011_10101_0110011 = some (.sltu 21 13 26) := by decide

theorem test_decode_xor :
    decodeTableWord 32 0b0000000_11010_01101_100_10101_0110011 = some (.xor 21 13 26) := by decide

theorem test_decode_srl :
    decodeTableWord 32 0b0000000_11010_01101_101_10101_0110011 = some (.srl 21 13 26) := by decide

theorem test_decode_sra :
    decodeTableWord 32 0b0100000_11010_01101_101_10101_0110011 = some (.sra 21 13 26) := by decide

theorem test_decode_or :
    decodeTableWord 32 0b0000000_11010_01101_110_10101_0110011 = some (.or 21 13 26) := by decide

theorem test_decode_and :
    decodeTableWord 32 0b0000000_11010_01101_111_10101_0110011 = some (.and 21 13 26) := by decide

theorem test_decode_mul :
    decodeTableWord 32 0b0000001_11010_01101_000_10101_0110011 = some (.mul 21 13 26) := by decide

theorem test_decode_mulh :
    decodeTableWord 32 0b0000001_11010_01101_001_10101_0110011 = some (.mulh 21 13 26) := by decide

theorem test_decode_mulhsu :
    decodeTableWord 32 0b0000001_11010_01101_010_10101_0110011 = some (.mulhsu 21 13 26) := by decide

theorem test_decode_mulhu :
    decodeTableWord 32 0b0000001_11010_01101_011_10101_0110011 = some (.mulhu 21 13 26) := by decide

theorem test_decode_div :
    decodeTableWord 32 0b0000001_11010_01101_100_10101_0110011 = some (.div 21 13 26) := by decide

theorem test_decode_divu :
    decodeTableWord 32 0b0000001_11010_01101_101_10101_0110011 = some (.divu 21 13 26) := by decide

theorem test_decode_rem :
    decodeTableWord 32 0b0000001_11010_01101_110_10101_0110011 = some (.rem 21 13 26) := by decide

theorem test_decode_remu :
    decodeTableWord 32 0b0000001_11010_01101_111_10101_0110011 = some (.remu 21 13 26) := by decide

theorem test_decode_jal :
    decodeTableWord 32 0b1_1010011011_0_00101010_10101_1101111 = some (.jal 21 0x12A536) := by decide

theorem test_decode_jalr :
    decodeTableWord 32 0b101001010011_01101_000_10101_1100111 = some (.jalr 21 13 0xA53) := by decide

theorem test_decode_beq :
    decodeTableWord 32 0b1_101001_11010_01101_000_1011_0_1100011 = some (.beq 13 26 0x1536) := by decide

theorem test_decode_bne :
    decodeTableWord 32 0b1_101001_11010_01101_001_1011_0_1100011 = some (.bne 13 26 0x1536) := by decide

theorem test_decode_blt :
    decodeTableWord 32 0b1_101001_11010_01101_100_1011_0_1100011 = some (.blt 13 26 0x1536) := by decide

theorem test_decode_bge :
    decodeTableWord 32 0b1_101001_11010_01101_101_1011_0_1100011 = some (.bge 13 26 0x1536) := by decide

theorem test_decode_bltu :
    decodeTableWord 32 0b1_101001_11010_01101_110_1011_0_1100011 = some (.bltu 13 26 0x1536) := by decide

theorem test_decode_bgeu :
    decodeTableWord 32 0b1_101001_11010_01101_111_1011_0_1100011 = some (.bgeu 13 26 0x1536) := by decide

theorem test_decode_branch_offset_bit_11 :
    decodeTableWord 32 0b0_000000_11010_01101_000_0000_1_1100011 = some (.beq 13 26 0x0800) := by decide

theorem test_decode_jal_offset_bit_11 :
    decodeTableWord 32 0b0_0000000000_1_00000000_10101_1101111 = some (.jal 21 0x000800) := by decide

theorem test_decode_lb :
    decodeTableWord 32 0b101001010011_01101_000_10101_0000011 = some (.lb 21 13 0xA53) := by decide

theorem test_decode_lh :
    decodeTableWord 32 0b101001010011_01101_001_10101_0000011 = some (.lh 21 13 0xA53) := by decide

theorem test_decode_lw :
    decodeTableWord 32 0b101001010011_01101_010_10101_0000011 = some (.lw 21 13 0xA53) := by decide

theorem test_decode_lbu :
    decodeTableWord 32 0b101001010011_01101_100_10101_0000011 = some (.lbu 21 13 0xA53) := by decide

theorem test_decode_lhu :
    decodeTableWord 32 0b101001010011_01101_101_10101_0000011 = some (.lhu 21 13 0xA53) := by decide

theorem test_decode_sb :
    decodeTableWord 32 0b1010010_11010_01101_000_10011_0100011 = some (.sb 26 13 0xA53) := by decide

theorem test_decode_sh :
    decodeTableWord 32 0b1010010_11010_01101_001_10011_0100011 = some (.sh 26 13 0xA53) := by decide

theorem test_decode_sw :
    decodeTableWord 32 0b1010010_11010_01101_010_10011_0100011 = some (.sw 26 13 0xA53) := by decide

theorem test_decode_ebreak :
    decodeTableWord 32 0b000000000001_00000_000_00000_1110011 = some .ebreak := by decide

theorem test_decode_keeps_the_bytes_after :
    decode [0x13, 0x05, 0xA0, 0x02, 0x73] = .ok (.addi 10 0 42, [0x73]) := rfl

theorem test_decode_three_bytes_refused :
    decode [0x13, 0x05, 0xA0] = .error .shortInput := rfl

/-! The words of 95_test_vectors.md section 2.5, refused by name. -/


theorem test_reject_not_32_bit :
    ([0x00000000, 0x00000001, 0x00004501] : List Word).all
      (fun w => match decodeWord w with | .error r => r == .notThirtyTwoBit | .ok _ => false) = true := by decide

theorem test_reject_major_opcode :
    ([0xFFFFFFFF, 0x0FF0000F, 0x0000100F, 0x0000002F, 0x00000007, 0x00000053, 0x0000001B, 0x0000003B, 0x00000057, 0x0000007F] : List Word).all
      (fun w => match decodeWord w with | .error r => r == .majorOpcode | .ok _ => false) = true := by decide

theorem test_reject_system :
    ([0x00000073, 0x00200073, 0x001000F3, 0x00108073, 0x30200073, 0x10500073, 0xC0002573] : List Word).all
      (fun w => match decodeWord w with | .error r => r == .systemWord | .ok _ => false) = true := by decide

theorem test_reject_jalr_funct3 :
    ([0x00001067] : List Word).all
      (fun w => match decodeWord w with | .error r => r == .jalrFunct3 | .ok _ => false) = true := by decide

theorem test_reject_branch_funct3 :
    ([0x00002063, 0x00003063] : List Word).all
      (fun w => match decodeWord w with | .error r => r == .branchFunct3 | .ok _ => false) = true := by decide

theorem test_reject_load_funct3 :
    ([0x00003003, 0x00006003, 0x00007003] : List Word).all
      (fun w => match decodeWord w with | .error r => r == .loadFunct3 | .ok _ => false) = true := by decide

theorem test_reject_store_funct3 :
    ([0x00003023, 0x00007023] : List Word).all
      (fun w => match decodeWord w with | .error r => r == .storeFunct3 | .ok _ => false) = true := by decide

theorem test_reject_reserved_shift :
    ([0x02059513, 0x4205D513, 0x40059513, 0x2005D513] : List Word).all
      (fun w => match decodeWord w with | .error r => r == .shiftFunct7 | .ok _ => false) = true := by decide

theorem test_reject_op_funct7 :
    ([0x40C59533, 0x40C5A533, 0x04C58533, 0x22C58533] : List Word).all
      (fun w => match decodeWord w with | .error r => r == .opFunct7 | .ok _ => false) = true := by decide

/-! ### One step, 95_test_vectors.md sections 2.1 and 2.2 (a0 = x10, a1 = x11, a2 = x12) -/


theorem test_lui_top :
    after (start [] 0xFFFFF537) (regPcTimer 10) = some (0xFFFFF000, 0x20000004, 1) := by decide

theorem test_lui_x0_discards :
    after (start [] 0x12345037) (regPcTimer 0) = some (0x00000000, 0x20000004, 1) := by decide

theorem test_auipc_wraps_below :
    after (startAt 0x20000010 [] 0xFFFFF517) (regPcTimer 10) = some (0x1FFFF010, 0x20000014, 1) := by decide

theorem test_addi_wraps :
    after (start [(11, 0x7FFFFFFF)] 0x7FF58513) (regPcTimer 10) = some (0x800007FE, 0x20000004, 1) := by decide

theorem test_addi_minus_one :
    after (start [] 0xFFF58513) (regPcTimer 10) = some (0xFFFFFFFF, 0x20000004, 1) := by decide

theorem test_slti_negative :
    after (start [(11, 0x80000000)] 0xFFF5A513) (regPcTimer 10) = some (0x00000001, 0x20000004, 1) := by decide

theorem test_slti_equal :
    after (start [] 0x0005A513) (regPcTimer 10) = some (0x00000000, 0x20000004, 1) := by decide

theorem test_sltiu_immediate_extended :
    after (start [(11, 0xFFFFFFFE)] 0xFFF5B513) (regPcTimer 10) = some (0x00000001, 0x20000004, 1) := by decide

theorem test_sltiu_equal :
    after (start [(11, 0xFFFFFFFF)] 0xFFF5B513) (regPcTimer 10) = some (0x00000000, 0x20000004, 1) := by decide

theorem test_xori_inverts :
    after (start [(11, 0x12345678)] 0xFFF5C513) (regPcTimer 10) = some (0xEDCBA987, 0x20000004, 1) := by decide

theorem test_ori_extends :
    after (start [(11, 0xFF)] 0x8005E513) (regPcTimer 10) = some (0xFFFFF8FF, 0x20000004, 1) := by decide

theorem test_andi_extends :
    after (start [(11, 0x12345678)] 0xFF05F513) (regPcTimer 10) = some (0x12345670, 0x20000004, 1) := by decide

theorem test_slli_31 :
    after (start [(11, 0x3)] 0x01F59513) (regPcTimer 10) = some (0x80000000, 0x20000004, 1) := by decide

theorem test_srli_31 :
    after (start [(11, 0x80000000)] 0x01F5D513) (regPcTimer 10) = some (0x00000001, 0x20000004, 1) := by decide

theorem test_srai_31 :
    after (start [(11, 0x80000000)] 0x41F5D513) (regPcTimer 10) = some (0xFFFFFFFF, 0x20000004, 1) := by decide

theorem test_srai_positive :
    after (start [(11, 0x7FFFFFFF)] 0x4045D513) (regPcTimer 10) = some (0x07FFFFFF, 0x20000004, 1) := by decide

theorem test_add_wraps :
    after (start [(11, 0xFFFFFFFF), (12, 0x1)] 0x00C58533) (regPcTimer 10) = some (0x00000000, 0x20000004, 1) := by decide

theorem test_sub_borrows :
    after (start [(11, 0x0), (12, 0x1)] 0x40C58533) (regPcTimer 10) = some (0xFFFFFFFF, 0x20000004, 1) := by decide

theorem test_sll_uses_five_bits :
    after (start [(11, 0x1), (12, 0x3F)] 0x00C59533) (regPcTimer 10) = some (0x80000000, 0x20000004, 1) := by decide

theorem test_sll_by_32_is_by_0 :
    after (start [(11, 0x1), (12, 0x20)] 0x00C59533) (regPcTimer 10) = some (0x00000001, 0x20000004, 1) := by decide

theorem test_srl_uses_five_bits :
    after (start [(11, 0xFFFFFFFF), (12, 0x24)] 0x00C5D533) (regPcTimer 10) = some (0x0FFFFFFF, 0x20000004, 1) := by decide

theorem test_sra_uses_five_bits :
    after (start [(11, 0xF0000000), (12, 0xFFFFFFFC)] 0x40C5D533) (regPcTimer 10) = some (0xFFFFFFFF, 0x20000004, 1) := by decide

theorem test_slt_signed :
    after (start [(11, 0x80000000), (12, 0x7FFFFFFF)] 0x00C5A533) (regPcTimer 10) = some (0x00000001, 0x20000004, 1) := by decide

theorem test_sltu_unsigned :
    after (start [(11, 0x80000000), (12, 0x7FFFFFFF)] 0x00C5B533) (regPcTimer 10) = some (0x00000000, 0x20000004, 1) := by decide

theorem test_xor :
    after (start [(11, 0xFF00FF00), (12, 0xFF00FF0)] 0x00C5C533) (regPcTimer 10) = some (0xF0F0F0F0, 0x20000004, 1) := by decide

theorem test_or :
    after (start [(11, 0xFF00FF00), (12, 0xFF00FF0)] 0x00C5E533) (regPcTimer 10) = some (0xFFF0FFF0, 0x20000004, 1) := by decide

theorem test_and :
    after (start [(11, 0xFF00FF00), (12, 0xFF00FF0)] 0x00C5F533) (regPcTimer 10) = some (0x0F000F00, 0x20000004, 1) := by decide

theorem test_mul_overflow_case :
    after (start [(11, 0x1C8CFC00), (12, 0xD)] 0x02C58533) (regPcTimer 10) = some (0x7328CC00, 0x20000004, 1) := by decide

theorem test_mul_minus_one_squared :
    after (start [(11, 0xFFFFFFFF), (12, 0xFFFFFFFF)] 0x02C58533) (regPcTimer 10) = some (0x00000001, 0x20000004, 1) := by decide

theorem test_mulh_minus_one_squared :
    after (start [(11, 0xFFFFFFFF), (12, 0xFFFFFFFF)] 0x02C59533) (regPcTimer 10) = some (0x00000000, 0x20000004, 1) := by decide

theorem test_mulh_mixed :
    after (start [(11, 0x80000000), (12, 0x7FFFFFFF)] 0x02C59533) (regPcTimer 10) = some (0xC0000000, 0x20000004, 1) := by decide

theorem test_mulhsu_negative :
    after (start [(11, 0xFFFFFFFF), (12, 0xFFFFFFFF)] 0x02C5A533) (regPcTimer 10) = some (0xFFFFFFFF, 0x20000004, 1) := by decide

theorem test_mulhsu_positive :
    after (start [(11, 0x7FFFFFFF), (12, 0xFFFFFFFF)] 0x02C5A533) (regPcTimer 10) = some (0x7FFFFFFE, 0x20000004, 1) := by decide

theorem test_mulhu :
    after (start [(11, 0xFFFFFFFF), (12, 0xFFFFFFFF)] 0x02C5B533) (regPcTimer 10) = some (0xFFFFFFFE, 0x20000004, 1) := by decide

theorem test_div_toward_zero :
    after (start [(11, 0xFFFFFFF9), (12, 0x2)] 0x02C5C533) (regPcTimer 10) = some (0xFFFFFFFD, 0x20000004, 1) := by decide

theorem test_div_overflow_case :
    after (start [(11, 0x80000000), (12, 0xFFFFFFFF)] 0x02C5C533) (regPcTimer 10) = some (0x80000000, 0x20000004, 1) := by decide

theorem test_divu :
    after (start [(11, 0xFFFFFFF9), (12, 0x2)] 0x02C5D533) (regPcTimer 10) = some (0x7FFFFFFC, 0x20000004, 1) := by decide

theorem test_divu_by_zero :
    after (start [(11, 0x7), (12, 0x0)] 0x02C5D533) (regPcTimer 10) = some (0xFFFFFFFF, 0x20000004, 1) := by decide

theorem test_rem_sign_of_dividend :
    after (start [(11, 0xFFFFFFF9), (12, 0x2)] 0x02C5E533) (regPcTimer 10) = some (0xFFFFFFFF, 0x20000004, 1) := by decide

theorem test_rem_by_zero :
    after (start [(11, 0xFFFFFFF9), (12, 0x0)] 0x02C5E533) (regPcTimer 10) = some (0xFFFFFFF9, 0x20000004, 1) := by decide

theorem test_remu :
    after (start [(11, 0xFFFFFFF9), (12, 0x2)] 0x02C5F533) (regPcTimer 10) = some (0x00000001, 0x20000004, 1) := by decide

theorem test_remu_no_overflow_case :
    after (start [(11, 0x80000000), (12, 0xFFFFFFFF)] 0x02C5F533) (regPcTimer 10) = some (0x80000000, 0x20000004, 1) := by decide

theorem test_add_x0_discards :
    after (start [(11, 0x1), (12, 0x2)] 0x00C58033) (regPcTimer 0) = some (0x00000000, 0x20000004, 1) := by decide

/-! ### Control transfer, section 2.3 -/


theorem test_jal_forward :
    after (startAt 0x20000100 [] 0x001000EF) (regPcTimer 1) = some (0x20000104, 0x20000900, 1) := by decide

theorem test_jal_leaves_ram :
    after (startAt 0x20000100 [] 0x800000EF) (regPcTimer 1) = some (0x20000104, 0x1FF00100, 1) := by decide

theorem test_jalr_old_base_bit_0 :
    after (startAt 0x20000100 [(1, 0x20000201)] 0x000080E7) (regPcTimer 1) =
      some (0x20000104, 0x20000200, 1) := by decide

theorem test_jalr_wraps :
    after (startAt 0x20000100 [(10, 0x400)] 0x800500E7) (regPcTimer 1) = some (0x20000104, 0xFFFFFC00, 1) := by decide

theorem test_beq_back_4096 :
    after (startAt 0x20002000 [] 0x80000063) (regPcTimer 0) = some (0, 0x20001000, 1) := by decide

theorem test_bne_forward_4094 :
    after (startAt 0x20000100 [(10, 1)] 0x7E051FE3) (regPcTimer 0) = some (0, 0x200010FE, 1) := by decide

/-- The row of the branch truth table of section 2.3: the pc after a branch by 16, for its three operand pairs. -/
def branchRow (w : Nat) : List (Option Word) :=
  [(5, 5), (0xFFFFFFFF, 1), (1, 0xFFFFFFFF)].map
    (fun p => after (startAt 0x20000100 [(10, p.1), (11, p.2)] w) (fun t => t.pc))


theorem test_beq_truth_table :
    branchRow 0x00B50863 =
      [some 0x20000110, some 0x20000104, some 0x20000104] := by decide

theorem test_bne_truth_table :
    branchRow 0x00B51863 =
      [some 0x20000104, some 0x20000110, some 0x20000110] := by decide

theorem test_blt_truth_table :
    branchRow 0x00B54863 =
      [some 0x20000104, some 0x20000110, some 0x20000104] := by decide

theorem test_bge_truth_table :
    branchRow 0x00B55863 =
      [some 0x20000110, some 0x20000104, some 0x20000110] := by decide

theorem test_bltu_truth_table :
    branchRow 0x00B56863 =
      [some 0x20000104, some 0x20000104, some 0x20000110] := by decide

theorem test_bgeu_truth_table :
    branchRow 0x00B57863 =
      [some 0x20000110, some 0x20000110, some 0x20000104] := by decide

/-! ### Loads and stores, section 2.4 -/


theorem test_lb_negative :
    after (bytesAt 0x20001000 0 0x00130503) (regPcTimer 10) = some (0xFFFFFFAA, 0x20000004, 1) := by decide

theorem test_lb_positive :
    after (bytesAt 0x20001000 0 0x00730503) (regPcTimer 10) = some (0x00000011, 0x20000004, 1) := by decide

theorem test_lh_negative :
    after (bytesAt 0x20001000 0 0x00231503) (regPcTimer 10) = some (0xFFFF8899, 0x20000004, 1) := by decide

theorem test_lh_odd_address :
    after (bytesAt 0x20001000 0 0x00131503) (regPcTimer 10) = some (0xFFFF99AA, 0x20000004, 1) := by decide

theorem test_lw_crosses_words :
    after (bytesAt 0x20001000 0 0x00232503) (regPcTimer 10) = some (0x33448899, 0x20000004, 1) := by decide

theorem test_lw_base_is_destination :
    after (bytesAt 0x20001000 0 0x00032303) (regPcTimer 6) = some (0x8899AABB, 0x20000004, 1) := by decide

theorem test_lbu :
    after (bytesAt 0x20001000 0 0x00234503) (regPcTimer 10) = some (0x00000099, 0x20000004, 1) := by decide

theorem test_lbu_last_byte_of_ram :
    after (bytesAt 0x20081FFF 0 0x00034503) (regPcTimer 10) = some (0x00000000, 0x20000004, 1) := by decide

theorem test_lhu :
    after (bytesAt 0x20001000 0 0x00235503) (regPcTimer 10) = some (0x00008899, 0x20000004, 1) := by decide

theorem test_lhu_odd_address :
    after (bytesAt 0x20001000 0 0x00335503) (regPcTimer 10) = some (0x00004488, 0x20000004, 1) := by decide

theorem test_sb :
    after (bytesAt 0x20001000 0x12345678 0x00A300A3) eightBytes =
      some [0xBB, 0x78, 0x99, 0x88, 0x44, 0x33, 0x22, 0x11] := by decide

theorem test_sb_last :
    after (bytesAt 0x20001000 0xFFFFFF00 0x00A303A3) eightBytes =
      some [0xBB, 0xAA, 0x99, 0x88, 0x44, 0x33, 0x22, 0x00] := by decide

theorem test_sh_odd_address :
    after (bytesAt 0x20001000 0x12345678 0x00A310A3) eightBytes =
      some [0xBB, 0x78, 0x56, 0x88, 0x44, 0x33, 0x22, 0x11] := by decide

theorem test_sh :
    after (bytesAt 0x20001000 0x12345678 0x00A31123) eightBytes =
      some [0xBB, 0xAA, 0x78, 0x56, 0x44, 0x33, 0x22, 0x11] := by decide

theorem test_sw_crosses_words :
    after (bytesAt 0x20001000 0x12345678 0x00A32123) eightBytes =
      some [0xBB, 0xAA, 0x78, 0x56, 0x34, 0x12, 0x22, 0x11] := by decide

/-- The record of a bus fault in Execute at the reset entry. -/
def busRecord (k : BusFaultKind) (a w : Word) : Mode × Option FaultRecord :=
  (.faulted, some ⟨.bus k, 0x20000000, some a, some w⟩)


/-- The accesses of section 2.4 that fault: the word, the base, the kind and the address. -/
def faultingAccesses : List (Nat × Word × BusFaultKind × Word) :=
  [(0x00035503, 0x20081FFF, .outOfBounds, 0x20081FFF), (0x00032503, 0x4FFFFFFE, .outOfBounds, 0x4FFFFFFE),
   (0x00032503, 0x4FFFFFFC, .unimplementedPeripheral, 0x4FFFFFFC), (0x00032503, 0xFFFFFFFE, .outOfBounds, 0xFFFFFFFE),
   (0x00032503, 0x3FFFFFFE, .outOfBounds, 0x3FFFFFFE), (0x00032003, 0x50000000, .outOfBounds, 0x50000000),
   (0xFFF30503, 0x20000000, .outOfBounds, 0x1FFFFFFF), (0x00A30023, 0x20082000, .outOfBounds, 0x20082000),
   (0x00A31023, 0x20081FFF, .outOfBounds, 0x20081FFF), (0x00A32023, 0x20081FFD, .outOfBounds, 0x20081FFD)]


theorem test_faulting_accesses :
    faultingAccesses.all (fun c => after (bytesAt c.2.1 0x12345678 c.1) faultOf ==
      some (busRecord c.2.2.1 c.2.2.2 (BitVec.ofNat 32 c.1))) = true := by decide

theorem test_refused_store_changes_nothing :
    after (bytesAt 0x20081FFD 0x12345678 0x00A32023)
      (fun t => (t.ram.read 0x20081FFD, t.ram.read 0x20081FFE, t.timer, t.pc)) = some (0, 0, 0, 0x20000000) := by decide

/-! ### EBREAK, decode faults and the fetch -/


theorem test_ebreak_halts :
    after (start [] 0x00100073) (fun t => (faultOf t, t.pc, t.timer)) =
      some ((.halted, none), 0x20000000, 0) := by decide

theorem test_ecall_decode_fault :
    after (start [] 0x00000073) (fun t => (faultOf t, t.pc, t.timer)) =
      some ((.faulted, some ⟨.decode, 0x20000000, none, some 0x73⟩), 0x20000000, 0) := by decide

theorem test_fetch_from_timer_decode_fault :
    after { State.reset with pc := 0x400B0028, timer := 2 } faultOf =
      some (.faulted, some ⟨.decode, 0x400B0028, none, some 2⟩) := by decide

theorem test_fetch_unmapped_io :
    after { State.reset with pc := 0x40000000 } faultOf =
      some (.faulted, some ⟨.bus .unimplementedPeripheral, 0x40000000, some 0x40000000, none⟩) := by decide

theorem test_fetch_at_zero :
    after { State.reset with pc := 0 } faultOf =
      some (.faulted, some ⟨.bus .outOfBounds, 0, some 0, none⟩) := by decide

theorem test_fetch_unaligned :
    after (startAt 0x20000006 [] 0x02A00513) (regPcTimer 10) = some (42, 0x2000000A, 1) := by decide

/-! ### The bus and the peripherals, section 2.6 -/

/-- The value of a 4-byte bus read. -/
def readWord (s : State) (a : Word) : Option Word := match memRead s a .word with | .ok v => some v | .error _ => none

/-- The state after a list of accepted 4-byte bus writes, none where one is refused. -/
def writes (s : State) : List (Word × Word) → Option State
  | [] => some s
  | (a, v) :: rest => match memWrite s a .word v with | .ok t => writes t rest | .error _ => none

/-- Pins 0 and 1 on PWM, levels of slice 0 set, EN written (source scenario S4). -/
def configured : Option State :=
  writes State.reset [(0x40028004, 4), (0x4002800C, 4), (0x400A800C, 0x00030001), (0x400A80F0, 0xFFFFFFFF)]


theorem test_gpio_reset_reads :
    [0x40028004, 0x400280EC].map (readWord State.reset) = [some 0x1F, some 0x1F] := by decide

theorem test_io_unmapped_reads :
    [0x400280F4, 0x40028000, 0x40028008, 0x400A8000, 0x400A8010, 0x400B0000, 0x400B000C, 0x40000000, 0x40029004,
      0x40028005].all (fun a => readWord State.reset a == none) = true := by decide

theorem test_gpio_codes :
    [4, 5, 31, 0, 6, 0x24, 0x11F].map (fun v => (writes State.reset [(0x40028004, v)]).isSome) =
      [true, true, true, false, false, false, false] := by decide

theorem test_level_needs_a_pin :
    (writes State.reset [(0x400A800C, 1)]).isSome = false ∧
      (writes State.reset [(0x40028004, 4), (0x400A8020, 1)]).isSome = false := by decide

theorem test_levels_and_enable :
    configured.map (fun t => (t.levelA 0, t.levelB 0, readWord t 0x400A800C, readWord t 0x400A80F0)) =
      some (1, 3, some 0x00030001, some 0xFFF) := by decide

theorem test_slice_through_pin_16 :
    (writes State.reset [(0x40028004, 4), (0x400A800C, 1), (0x40028084, 4), (0x40028004, 31), (0x400A800C, 2)]).isSome =
      true := by decide

theorem test_enable_bit_order :
    (writes State.reset [(0x400A80F0, 5)]).map (fun t => (t.sliceEnabled 0, t.sliceEnabled 1, t.sliceEnabled 2,
      readWord t 0x400A80F0)) = some (true, false, true, some 5) := by decide

theorem test_timer_halves :
    [0x400B0028, 0x400B0024].map (readWord { State.reset with timer := 0x1122334455667788 }) =
      [some 0x55667788, some 0x11223344] := by decide

theorem test_timer_read_only :
    (writes State.reset [(0x400B0028, 0)]).isSome = false ∧ (writes State.reset [(0x400B0024, 0)]).isSome = false := by decide

theorem test_timer_wait :
    (timerWaitUntil { State.reset with timer := 5 } 9).timer = 9 ∧
      (timerWaitUntil { State.reset with timer := 5 } 3).timer = 5 := by decide

theorem test_timer_read_before_its_tick :
    after { start [(6, 0x400B0028)] 0x00032503 with timer := 7 } (fun t => (t.readReg 10, t.timer)) = some (7, 8) := by decide

theorem test_sw_to_level_register :
    after { start [(6, 0x400A800C), (10, 0x00030001)] 0x00A32023 with
      gpioFunc := State.reset.gpioFunc.set 0 defaultConfig.pwmCode } (fun t => (t.levelA 0, t.levelB 0, t.mode)) =
      some (1, 3, .running) := by decide

/-! ### The host, section 2.7 -/

/-- The outcome of a run with the pc and the timer it leaves. -/
def ran (n : Nat) (s : State) : Option (RunResult × Word × BitVec 64) :=
  match run n s with
  | .next (r, t) => some (r, t.pc, t.timer)
  | .fault _ => none
  | .refused _ => none


theorem test_run_zero_executes_nothing :
    ran 0 (start [] 0x6F) = some (.cycleLimitExceeded, 0x20000000, 0) := by decide

theorem test_run_loop_hits_the_cap :
    ran 5 (start [] 0x6F) = some (.cycleLimitExceeded, 0x20000000, 5) := by decide

theorem test_run_halts :
    ran 1 (start [] 0x00100073) = some (.halted, 0x20000000, 0) := by decide

theorem test_run_faults :
    ran 9 (start [] 0) = some (.faulted (some ⟨.decode, 0x20000000, none, some 0⟩), 0x20000000, 0) := by decide

theorem test_load_entry_limits :
    [0x20081FFC, 0x20081FFD, 0x1FFFFFFF, 0x20000000].map (fun e => (load defaultConfig [0x13] e).isOk) = [true, false, false, true] := by decide

theorem test_inspect_x0_and_pins :
    (inspect (start [(31, 7)] 0)).x[0] = 0 ∧ (inspect (start [(31, 7)] 0)).x[31] = 7 ∧
      (inspect State.reset).gpio[3]? = some (some .unassigned) := by decide

/-! ### Witnesses: concrete values that meet the hypotheses of each statement of Obligations.lean, one for each clause,
at the boundary of its range -/

theorem insideRam_iff (a : Word) (w : Width) : insideRam defaultConfig a w ↔
    0x20000000 ≤ a.toNat ∧ a.toNat + w.bytes ≤ 0x20082000 := Iff.rfl
theorem insideIo_iff (a : Word) (w : Width) : insideIo defaultConfig a w ↔
    0x40000000 ≤ a.toNat ∧ a.toNat + w.bytes ≤ 0x50000000 := Iff.rfl


theorem witness_ram_first_and_last :
    insideRam defaultConfig 0x20000000 .word ∧ insideRam defaultConfig 0x20081FFC .word ∧ insideRam defaultConfig 0x20081FFE .half ∧ insideRam defaultConfig 0x20081FFF .byte := by
  simp only [insideRam_iff]
  decide

theorem witness_ram_just_outside :
    ¬insideRam defaultConfig 0x20081FFD .word ∧ ¬insideIo defaultConfig 0x20081FFD .word ∧ ¬insideRam defaultConfig 0x1FFFFFFF .byte ∧ ¬insideIo defaultConfig 0x1FFFFFFF .byte ∧
      ¬insideRam defaultConfig 0x4FFFFFFE .word ∧ ¬insideIo defaultConfig 0x4FFFFFFE .word := by
  simp only [insideRam_iff, insideIo_iff]
  decide

theorem witness_io_first_and_last :
    insideIo defaultConfig 0x40000000 .byte ∧ insideIo defaultConfig 0x4FFFFFFC .word ∧ ¬isRegisterAddr defaultConfig 0x4FFFFFFC ∧ ¬isRegisterAddr defaultConfig 0x40028000 ∧
      isRegisterAddr defaultConfig 0x400280EC ∧ isRegisterAddr defaultConfig 0x400A80E8 ∧ isRegisterAddr defaultConfig 0x400A80F0 ∧ isRegisterAddr defaultConfig 0x400B0024 := by
  unfold insideIo isRegisterAddr
  decide

theorem witness_row_and_no_row :
    (0x00C58533#32 &&& 0xFE00707F#32 = 0x00000033#32) ∧ decodeWord 0x00C58533#32 = .ok (.add 10 11 12) ∧
      ∀ row ∈ opcodeTable, ¬((0#32) &&& row.mask = row.pattern) := by
  exact ⟨by decide, rfl, by decide⟩

theorem witness_step_runs_a_row :
    (start [] 0x00C58533).mode = .running ∧ fetch (start [] 0x00C58533) = .ok 0x00C58533#32 := ⟨rfl, rfl⟩

theorem witness_well_formed :
    Instr.wf (.beq 13 26 0x1536) = true ∧ decodeWord (encode (.beq 13 26 0x1536)) = .ok (.beq 13 26 0x1536) := ⟨rfl, rfl⟩

theorem witness_unrecognized_fetch :
    (start [] 0).mode = .running ∧ fetch (start [] 0) = .ok 0#32 ∧ decodeWord 0#32 = .error .notThirtyTwoBit := ⟨rfl, rfl, rfl⟩

theorem witness_unrecognized_classes :
    bits 0x00000002#32 1 0 ≠ 0b11 ∧ bits 0x0000007F#32 6 0 ∉ [0x37, 0x17, 0x6F, 0x67, 0x63, 0x03, 0x23, 0x13, 0x33, 0x73] ∧
      bits 0x00200073#32 6 0 = 0x73 ∧ bits 0x00001067#32 14 12 = 1 ∧ bits 0x00003063#32 14 12 = 3 ∧
      bits 0x00007003#32 14 12 = 7 ∧ bits 0x00003023#32 14 12 = 3 ∧ bits 0x40C59533#32 31 25 = 0b0100000 ∧
      bits 0x40C59533#32 14 12 = 1 ∧ bits 0x02059513#32 31 25 = 1 ∧ bits 0x2005D513#32 31 25 = 0b0010000 := by decide

theorem witness_fetch_at_last_word :
    decode [(startAt 0x20081FFC [] 0x00100073).ram.read 0x20081FFC, (startAt 0x20081FFC [] 0x00100073).ram.read 0x20081FFD,
      (startAt 0x20081FFC [] 0x00100073).ram.read 0x20081FFE, (startAt 0x20081FFC [] 0x00100073).ram.read 0x20081FFF] =
      .ok (.ebreak, []) ∧ (startAt 0x20081FFC [] 0x00100073).pc = 0x20081FFC := ⟨rfl, rfl⟩

theorem witness_fetch_refused :
    fetch { State.reset with pc := 0x4FFFFFFE } = .error ⟨.outOfBounds, 0x4FFFFFFE⟩ ∧
      fetch { State.reset with pc := 0x4FFFFFFC } = .error ⟨.unimplementedPeripheral, 0x4FFFFFFC⟩ := ⟨rfl, rfl⟩

theorem witness_finished_modes :
    (stepped (start [] 0x00100073)).mode = .halted ∧ (stepped (start [] 0)).mode = .faulted := by decide

theorem witness_completed_step :
    step (start [] 0x00C58533) = .next (stepped (start [] 0x00C58533)) ∧ (stepped (start [] 0x00C58533)).mode = .running ∧
      ¬assignsPc (start [] 0x00C58533) (.add 10 11 12) := ⟨step_stepped _, by decide, id⟩

theorem witness_timer_load :
    (start [(6, 0x400B0028)] 0x00032503).readReg 6 + (0 : BitVec 12).signExtend 32 = timeRawLAddr defaultConfig ∧
      (start [(6, 0x400B0024)] 0x00032503).readReg 6 + (0 : BitVec 12).signExtend 32 = timeRawHAddr defaultConfig := by decide

theorem witness_data_access :
    dataAccess (bytesAt 0x20081FFD 0 0x00A32023) (.sw 10 6 0) = some (0x20081FFD, .word, some 0) ∧
      accessFault (bytesAt 0x20081FFD 0 0x00A32023) (.sw 10 6 0) = some ⟨.outOfBounds, 0x20081FFD⟩ ∧
      accessFault (bytesAt 0x20081FFC 0 0x00A32023) (.sw 10 6 0) = none := ⟨rfl, rfl, rfl⟩

theorem witness_data_access_io :
    dataAccess (bytesAt 0x40028004 0 0x00030503) (.lb 10 6 0) = some (0x40028004, .byte, none) ∧
      accessFault (bytesAt 0x40028004 0 0x00030503) (.lb 10 6 0) = some ⟨.unimplementedPeripheral, 0x40028004⟩ ∧
      accessFault (bytesAt 0x40028004 0 0x00032503) (.lw 10 6 0) = none := ⟨rfl, rfl, rfl⟩

theorem witness_data_fault_fetched :
    fetch (bytesAt 0x20081FFD 0 0x00A32023) = .ok 0x00A32023#32 ∧ decodeWord 0x00A32023#32 = .ok (.sw 10 6 0) := ⟨rfl, rfl⟩

theorem witness_shaped : State.reset.Shaped :=
  ⟨by decide, by decide, by decide, by decide, by decide⟩

theorem witness_inv : State.reset.Inv :=
  ⟨witness_shaped, by decide, by decide, by decide, by show Mode.running ≠ .faulted; decide⟩

theorem witness_inv_step : step State.reset = .next (stepped State.reset) ∧ (stepped State.reset).mode = .faulted :=
  ⟨step_stepped _, by decide⟩

theorem witness_load : defaultConfig.wf = true ∧ load defaultConfig [0x13#8] 0x20081FFC#32 =
    .ok (State.atReset defaultConfig 0x20081FFC#32 (Memory.ofImage 0x20000000 [0x13#8])) := ⟨by decide, rfl⟩

theorem witness_load_whole_ram (image : List Byte) (h : image.length = 0x82000) :
    defaultConfig.loadAddr + image.length ≤ defaultConfig.ramBase + defaultConfig.ramSize := by
  rw [h]
  decide

theorem witness_image_sizes : (List.replicate 0x82000 0#8).length = 0x82000 ∧ (List.replicate 0x82001 0#8).length = 0x82001 ∧
    defaultConfig.loadAddr + 0x82001 > defaultConfig.ramBase + defaultConfig.ramSize := by
  simp only [List.length_replicate]
  decide

theorem witness_entry_invalid : ¬insideRam defaultConfig 0x20081FFD#32 .word ∧
    load defaultConfig [] 0x20081FFD#32 = .error .entryInvalid :=
  ⟨witness_ram_just_outside.1, rfl⟩

/-! Another configuration than R7's defaults: a small RAM elsewhere, two pins on slice 0, one slice, other function
codes, another timer base and three ticks an instruction. -/

def otherConfig : Config := { defaultConfig with
  ramBase := 0x1000, ramSize := 0x100, loadAddr := 0x1010, numPins := 2, gpioCtrlOff := [0x10, 0x00], funcPwm := 1
  numSlices := 1, pwmCcOff := [0x20], timerBase := 0x40000000, timerRawlOff := 0x0, ticksPerInstr := 3 }

/-- A session of it with ADDI a0, x0, 42 in its image. -/
def otherSession : State := State.atReset otherConfig 0x1010 (Memory.ofImage 0x1010 [0x13, 0x05, 0xA0, 0x02])


theorem test_other_session_is_created :
    createSession otherConfig [0x13, 0x05, 0xA0, 0x02] 0x1010 = .ok otherSession := rfl

theorem test_other_session_ticks_by_three :
    after otherSession (regPcTimer 10) = some (42, 0x1014, 3) := by decide

theorem test_other_session_registers :
    (writes otherSession [(0x40028000, 1), (0x400A8020, 0x00030001)]).map (fun t => (t.pinFunc 1, t.levelA 0, t.levelB 0,
      readWord t 0x40028000, readWord t 0x40000000)) = some (1, 1, 3, some 1, some 0) := by decide

theorem test_other_session_has_no_default_map :
    readWord otherSession 0x20000000 = none ∧ readWord otherSession 0x40028004 = none ∧
      readWord otherSession 0x400B0028 = none ∧ (writes otherSession [(0x40028010, 4)]).isSome = false := by decide

theorem test_ill_formed_record_creates_no_session :
    createSession { defaultConfig with numPins := 31 } [] 0x20000000 = .error (.config .offsets) ∧
      createSession otherConfig [] 0x20000000 = .error (.load .entryInvalid) := ⟨rfl, rfl⟩

theorem witness_other_config :
    otherConfig.wf = true ∧ otherSession.config = otherConfig ∧ Reachable otherConfig (gpioCtrlAddr otherConfig 1) ∧
      Reachable otherConfig (pwmCcAddr otherConfig 0) ∧ insideRam otherConfig 0x10FC .word := by
  unfold Reachable insideIo insideRam
  decide

theorem witness_reachable :
    Reachable defaultConfig (gpioCtrlAddr defaultConfig 29) ∧ Reachable defaultConfig (pwmCcAddr defaultConfig 11) ∧
      Reachable defaultConfig (pwmEnAddr defaultConfig) ∧ Reachable defaultConfig (timeRawLAddr defaultConfig) ∧
      Reachable defaultConfig (timeRawHAddr defaultConfig) := by
  unfold Reachable insideIo
  decide

theorem witness_shift_words :
    bits 0x02059513#32 6 0 = 0x13 ∧ bits 0x02059513#32 14 12 = 1 ∧ bits 0x02059513#32 31 25 ≠ 0 ∧
      bits 0x2005D513#32 6 0 = 0x13 ∧ bits 0x2005D513#32 14 12 = 5 ∧ bits 0x2005D513#32 31 25 ≠ 0 ∧
      bits 0x2005D513#32 31 25 ≠ 0b0100000 := by decide

theorem witness_divisor :
    (10 : Reg) ≠ 0 ∧ (start [(11, 0x80000000), (12, 0xFFFFFFFF)] 0).readReg 12 ≠ 0#32 := by decide

theorem witness_load_addresses :
    [0x20081FFF, 0x20081FFE, 0x20081FFC, 0x400B0028].map (fun a => (start [(6, a)] 0).readReg 6) =
      ([0x20081FFF, 0x20081FFE, 0x20081FFC, 0x400B0028] : List Word) ∧
      BitVec.ofInt 32 ((0x20081FFC#32).toNat + (0#12).toInt) = 0x20081FFC#32 := by decide

theorem witness_bus_reads :
    memRead State.reset 0x400B0028 .word = .ok 0 ∧ memRead State.reset 0x20082000 .byte = .error ⟨.outOfBounds, 0x20082000⟩ ∧
      memRead State.reset 0x40028004 .half = .error ⟨.unimplementedPeripheral, 0x40028004⟩ := ⟨rfl, rfl, rfl⟩

theorem witness_bus_writes :
    memWrite State.reset 0x20081FFC .word 1 = .ok { State.reset with ram := [(0x20081FFC, 1)] } ∧
      memWrite State.reset 0x400B0028 .word 1 = .error ⟨.unimplementedPeripheral, 0x400B0028⟩ := ⟨rfl, rfl⟩

theorem witness_reads_around_a_store :
    insideRam defaultConfig 0x20001003 .byte ∧ (0x20001002#32).toNat ≤ (0x20001003#32).toNat ∧ (0x20001003#32).toNat + 2 ≤ (0x20001002#32).toNat + 4 ∧
      (0x20001000#32).toNat + 2 ≤ (0x20001002#32).toNat ∧ (0x20001002#32).toNat + 4 ≤ (0x20001006#32).toNat := by
  simp only [insideRam_iff]
  decide

theorem witness_store_to_next_word :
    (start [(6, 0x20000004), (10, 0x13)] 0x00A32023).readReg 6 + (0#12).signExtend 32 =
      (start [(6, 0x20000004), (10, 0x13)] 0x00A32023).pc + 4#32 ∧
      fetch (start [(6, 0x20000004), (10, 0x13)] 0x00A32023) = .ok (encode (.sw 10 6 0)) := ⟨by decide, rfl⟩

theorem witness_no_store :
    decodeWord 0x00C58533#32 = .ok (.add 10 11 12) ∧ ¬isStore (.add 10 11 12) := ⟨rfl, id⟩

theorem witness_gpio_codes :
    (4#32).toNat ∈ [defaultConfig.funcPwm, defaultConfig.funcDio, defaultConfig.funcNull] ∧ (0x24#32).toNat ∉ [defaultConfig.funcPwm, defaultConfig.funcDio, defaultConfig.funcNull] ∧
      gpioCtrlAddr defaultConfig 29 = 0x400280EC#32 ∧
      pwmCcAddr defaultConfig 11 = 0x400A80E8#32 := by decide

/-- Pin 15 on PWM: slice 7 is available, slice 6 is not. -/
def pin15 : State := { State.reset with gpioFunc := State.reset.gpioFunc.set 15 defaultConfig.pwmCode }


theorem witness_configured :
    Configured pin15 7 ∧ ¬Configured pin15 6 ∧ ¬Configured pin15 11 := by
  unfold Configured
  decide

theorem witness_enable_all_ones :
    (match memWrite pin15 (pwmEnAddr defaultConfig) .word 0xFFFFFFFF with
      | .ok t => some (t.sliceEnabled 0, t.sliceEnabled 11) | .error _ => none) = some (true, true) := by decide

theorem witness_pin_written :
    (writes State.reset [(gpioCtrlAddr defaultConfig 15, 4)]).isSome = true ∧
      (writes pin15 [(gpioCtrlAddr defaultConfig 15, 31)]).isSome = true ∧
      ∀ q : Fin 30, q ≠ 15 → q.val / 2 % 8 = 7 → pin15.pinFunc q ≠ defaultConfig.pwmCode := by decide

theorem witness_steps : Steps 1 (start [] 0x6F) (stepped (start [] 0x6F)) ∧ (stepped (start [] 0x6F)).mode = .running :=
  ⟨⟨rfl, _, step_stepped _, rfl⟩, by decide⟩

theorem witness_timer_sum_fits :
    ({ State.reset with timer := 0xFFFFFFFFFFFFFFFE }).timer.toNat + (1 : BitVec 64).toNat < 2 ^ 64 := by decide

theorem witness_ebreak_fetched :
    (start [] 0x00100073).mode = .running ∧ fetch (start [] 0x00100073) = .ok 0x00100073#32 := ⟨rfl, rfl⟩

theorem witness_run_at_cap :
    run 2 (start [] 0x6F) = .next (.cycleLimitExceeded, { stepped (stepped (start [] 0x6F)) with cycles := 0 }) := rfl

end Sys2Proof.Tests
end

/-! The configuration record (R7, R8): each clause in plain arithmetic, and the record a session keeps. -/

namespace Sys2Proof

open Machine (InRange Reachable isRegisterAddr insideIo)

/-! ### The clauses of R8 in plain arithmetic -/

/-- Two ranges that do not overlap by their bounds share no address; the witness of an overlap is the higher base. -/
theorem rangesDisjoint_iff {b n b' n' : Nat} :
    rangesDisjoint b n b' n' = true ↔ ∀ a, ¬(InRange b n a ∧ InRange b' n' a) := by
  simp only [rangesDisjoint, Bool.or_eq_true, beq_iff_eq, decide_eq_true_eq, InRange]
  constructor
  · intro h a
    omega
  · intro h
    have := h (max b b')
    omega

/-- A range is inside another by its bounds when its first and its last address are. -/
theorem rangeInside_iff {b n b' n' : Nat} :
    rangeInside b n b' n' = true ↔ ∀ a, InRange b n a → InRange b' n' a := by
  simp only [rangeInside, Bool.or_eq_true, Bool.and_eq_true, beq_iff_eq, decide_eq_true_eq, InRange]
  constructor
  · intro h a ha
    omega
  · intro h
    have hfirst := h b
    have hlast := h (b + n - 1)
    omega

theorem offsetsOk_iff {size : Nat} {offs : List Nat} :
    offsetsOk size offs = true ↔
      (∀ i, i < offs.length → offs.getD i 0 % 4 = 0 ∧ offs.getD i 0 < size) ∧
      ∀ i j, i < j → j < offs.length → offs.getD i 0 ≠ offs.getD j 0 := by
  constructor
  · intro h
    refine ⟨fun i hi => offsetsOk_getD h hi, fun i j hij hj e => ?_⟩
    exact absurd (offsetsOk_inj h (hij.trans hj) hj e) hij.ne
  · rintro ⟨hin, hne⟩
    simp only [offsetsOk, Bool.and_eq_true, List.all_eq_true, beq_iff_eq, decide_eq_true_eq]
    constructor
    · refine List.forall_mem_iff_getElem.2 fun i hi => ?_
      simpa [hi] using hin i hi
    · refine List.pairwise_iff_getElem.2 fun i j hi hj hij => ?_
      simpa [hi, hj] using hne i j hij hj

/-- One more register: at a multiple of 4, inside, and at none of the other offsets. -/
theorem offsetsOk_cons {size o : Nat} {offs : List Nat} :
    offsetsOk size (o :: offs) = true ↔
      (o % 4 = 0 ∧ o < size) ∧ (∀ i, i < offs.length → offs.getD i 0 ≠ o) ∧ offsetsOk size offs = true := by
  have hmem : o ∉ offs ↔ ∀ i, i < offs.length → offs.getD i 0 ≠ o := by
    rw [← List.forall_mem_ne', List.forall_mem_iff_getElem]
    exact forall₂_congr fun i hi => by rw [List.getD_eq_getElem _ _ hi]
  simp only [← hmem, offsetsOk, List.all_cons, List.nodup_cons, Bool.and_eq_true, beq_iff_eq, decide_eq_true_eq]
  tauto

theorem holds_subWindows_iff (c : Config) :
    ConfigClause.subWindows.holds c = true ↔
      (∀ a, InRange c.gpioBase c.gpioSize a ∨ InRange c.pwmBase c.pwmSize a ∨ InRange c.timerBase c.timerSize a →
        InRange c.ioBase c.ioSize a) ∧
      ∀ a, ¬(InRange c.gpioBase c.gpioSize a ∧ InRange c.pwmBase c.pwmSize a) ∧
        ¬(InRange c.gpioBase c.gpioSize a ∧ InRange c.timerBase c.timerSize a) ∧
        ¬(InRange c.pwmBase c.pwmSize a ∧ InRange c.timerBase c.timerSize a) := by
  simp only [ConfigClause.holds, Bool.and_eq_true, rangeInside_iff, rangesDisjoint_iff, or_imp, forall_and, and_assoc]

theorem holds_offsets_iff (c : Config) :
    ConfigClause.offsets.holds c = true ↔
      (c.gpioCtrlOff.length = c.numPins ∧ c.pwmCcOff.length = c.numSlices) ∧
      (∀ p, p < c.numPins → c.gpioOff p % 4 = 0 ∧ c.gpioOff p < c.gpioSize) ∧
      (∀ p q, p < q → q < c.numPins → c.gpioOff p ≠ c.gpioOff q) ∧
      (c.pwmEnOff % 4 = 0 ∧ c.pwmEnOff < c.pwmSize) ∧
      (∀ n, n < c.numSlices → c.pwmOff n % 4 = 0 ∧ c.pwmOff n < c.pwmSize ∧ c.pwmOff n ≠ c.pwmEnOff) ∧
      (∀ n m, n < m → m < c.numSlices → c.pwmOff n ≠ c.pwmOff m) ∧
      (c.timerRawhOff % 4 = 0 ∧ c.timerRawhOff < c.timerSize) ∧
      (c.timerRawlOff % 4 = 0 ∧ c.timerRawlOff < c.timerSize) ∧ c.timerRawhOff ≠ c.timerRawlOff := by
  have htimer : offsetsOk c.timerSize [c.timerRawhOff, c.timerRawlOff] = true ↔
      (c.timerRawhOff % 4 = 0 ∧ c.timerRawhOff < c.timerSize) ∧
      (c.timerRawlOff % 4 = 0 ∧ c.timerRawlOff < c.timerSize) ∧ c.timerRawhOff ≠ c.timerRawlOff := by
    simp [offsetsOk, and_assoc]
  simp only [ConfigClause.holds, Bool.and_eq_true, beq_iff_eq, htimer]
  rw [and_assoc, and_assoc, offsetsOk_cons]
  refine and_congr_right fun ⟨hpins, hslices⟩ => ?_
  simp only [offsetsOk_iff, hpins, hslices, Config.gpioOff, Config.pwmOff, imp_and, forall_and]
  tauto

theorem wf_iff_clauses_hold (c : Config) :
    c.wf = true ↔ ConfigClause.regionsFit.holds c = true ∧ ConfigClause.regionsDisjoint.holds c = true ∧
      ConfigClause.subWindows.holds c = true ∧ ConfigClause.offsets.holds c = true ∧
      ConfigClause.loadAddrInRam.holds c = true ∧ ConfigClause.funcCodes.holds c = true ∧
      ConfigClause.counts.holds c = true ∧ ConfigClause.widths.holds c = true := by
  simp only [Config.wf, ConfigClause.all, List.all_cons, List.all_nil, Bool.and_true, Bool.and_eq_true]

theorem holds_eq_false_of_check_error {c : Config} {k : ConfigClause} (h : c.check = .error k) :
    k.holds c = false := by
  unfold Config.check at h
  split at h
  · next k' hfound =>
    cases h
    simpa using List.find?_some hfound
  · cases h

theorem wf_defaultConfig : defaultConfig.wf = true := by decide

/-- Settles O19: each clause of R8 by its own equivalence, and `check` by the first clause it finds broken. -/
theorem configurationAdmitted : Obligations.ConfigurationAdmitted := by
  refine ⟨wf_defaultConfig, fun c => ?_, fun c => ⟨Machine.check_ok_iff c, fun k => holds_eq_false_of_check_error⟩⟩
  rw [wf_iff_clauses_hold, holds_subWindows_iff, holds_offsets_iff]
  simp only [ConfigClause.holds, Bool.and_eq_true, decide_eq_true_eq, beq_iff_eq, bne_iff_ne, rangesDisjoint_iff,
    InRange, and_assoc]

/-! ### Where the registers stand -/

/-- The sub-windows begin at a multiple of 4 and their sizes are multiples of 4. R8 asks for neither (log entry 3). -/
structure Config.WindowsAligned (c : Config) : Prop where
  gpio : c.gpioBase % 4 = 0 ∧ c.gpioSize % 4 = 0
  pwm : c.pwmBase % 4 = 0 ∧ c.pwmSize % 4 = 0
  timer : c.timerBase % 4 = 0 ∧ c.timerSize % 4 = 0

/-- A register of an aligned sub-window: the four bytes from its offset stay inside, so its address does not wrap. -/
theorem reachable_of_aligned {c : Config} {base size off : Nat} (hio : c.ioBase + c.ioSize ≤ 2 ^ 32)
    (hwin : base % 4 = 0 ∧ size % 4 = 0) (hin : c.ioBase ≤ base ∧ base + size ≤ c.ioBase + c.ioSize)
    (hoff : off % 4 = 0 ∧ off < size) : Reachable c (BitVec.ofNat 32 (base + off)) := by
  have hval : (BitVec.ofNat 32 (base + off)).toNat = base + off := by
    rw [BitVec.toNat_ofNat]
    exact Nat.mod_eq_of_lt (by omega)
  simp only [Reachable, insideIo, hval, Machine.Width.bytes]
  omega

theorem reachable_of_isRegisterAddr {c : Config} (hf : c.Facts) (hal : c.WindowsAligned) {a : Word}
    (ha : isRegisterAddr c a) : Reachable c a := by
  obtain ⟨p, hp, rfl⟩ | ⟨n, hn, rfl⟩ | rfl | rfl | rfl := ha
  · exact reachable_of_aligned hf.ioFits hal.gpio hf.gpioInside (hf.gpioOff p hp)
  · obtain ⟨halign, hlt, -⟩ := hf.pwmOff n hn
    exact reachable_of_aligned hf.ioFits hal.pwm hf.pwmInside ⟨halign, hlt⟩
  · exact reachable_of_aligned hf.ioFits hal.pwm hf.pwmInside hf.pwmEn
  · exact reachable_of_aligned hf.ioFits hal.timer hf.timerInside hf.timerH
  · exact reachable_of_aligned hf.ioFits hal.timer hf.timerInside hf.timerL

theorem windowsAligned_defaultConfig : defaultConfig.WindowsAligned := ⟨by decide, by decide, by decide⟩

end Sys2Proof

namespace Sys2Proof.Machine

/-! ### The record of a session -/

theorem legalFunc_nullCode (c : Config) : legalFunc c c.nullCode = true := by
  simp [legalFunc]

/-- A session that load creates at a well-formed record meets the invariant: its RAM is the image, which fits. -/
theorem inv_of_load {c : Config} {image : List Byte} {entry : Word} {s : State} (hc : c.wf = true)
    (h : load c image entry = .ok s) : s.Inv := by
  obtain ⟨rfl, hfits, -, -⟩ := load_ok h
  have hload : c.ramBase ≤ c.loadAddr := (Config.facts hc).loadAddr.1
  exact {
    shaped := shaped_atReset hc _ _
    ramCanonical := Memory.wf_ofImage _ _
    ramInRegion := fun cell hcell => by
      obtain ⟨hlo, hhi, -⟩ := Memory.mem_ofImage hcell
      exact ⟨hload.trans hlo, hhi.trans_le hfits⟩
    pinsLegal := fun p _ => (congrArg _ (pinFunc_atReset c entry _ p)).trans (legalFunc_nullCode c)
    recordFits := by simp [recordFits, State.atReset] }

theorem load_isOk_iff {c : Config} {image : List Byte} {entry : Word} :
    (∃ s, load c image entry = .ok s) ↔
      c.loadAddr + image.length ≤ c.ramBase + c.ramSize ∧ insideRam c entry .word := by
  constructor
  · rintro ⟨s, hs⟩
    obtain ⟨-, hfits, hlo, hhi⟩ := load_ok hs
    exact ⟨hfits, hlo, hhi⟩
  · rintro ⟨hfits, hlo, hhi⟩
    exact ⟨_, load_of_fits hfits hlo hhi⟩

theorem timerWaitUntil_config (s : State) (target : BitVec 64) : (timerWaitUntil s target).config = s.config := by
  rw [timerWaitUntil_eq]

theorem runLoop_config {n : Nat} {s t : State} {r : RunResult} (h : runLoop n s = .next (r, t)) :
    t.config = s.config := by
  induction n generalizing s with
  | zero =>
    unfold runLoop at h
    split at h <;> cases h <;> rfl
  | succ n ih =>
    unfold runLoop at h
    split at h
    · cases h; rfl
    · cases h; rfl
    · obtain ⟨u, hu, -⟩ := step_to s
      rw [hu] at h
      have hstep : u.config = s.config := step_config hu
      exact (ih h).trans hstep

theorem run_config {n : Nat} {s t : State} {r : RunResult} (h : run n s = .next (r, t)) : t.config = s.config := by
  unfold run at h
  split at h
  · next hloop =>
    have hconfig := runLoop_config hloop
    cases h
    exact hconfig
  · cases h
  · cases h

/-- Settles O52: R7's defaults by evaluation, session creation by `load`, and the record through every operation. -/
theorem configurationRecord : Obligations.ConfigurationRecord := by
  refine ⟨by decide,
    fun a => reachable_of_isRegisterAddr (Config.facts wf_defaultConfig) windowsAligned_defaultConfig,
    fun c image entry => ?_, fun c image entry s h => ?_, fun s t => step_config,
    fun s a w v t h => (memWrite_only h).1, timerWaitUntil_config, fun n s r t => run_config⟩
  · simp only [createSession_ok_iff, exists_and_left, load_isOk_iff]
  · obtain ⟨hc, hload⟩ := createSession_ok_iff.1 h
    exact ⟨congrArg State.config (load_ok hload).1, inv_of_load hc hload, hload⟩

end Sys2Proof.Machine

/-! A decoded word is the encoding of its instruction (R103, R105): the formats put every field back where it stood. -/

namespace Sys2Proof

/-! ### The formats give a word back from its own fields -/

theorem regBits_extract (w : Word) (lo : Nat) : regBits (w.extractLsb' lo 5).toFin = w.extractLsb' lo 5 := rfl

theorem encodeR_fields {w : Word} {f7 : BitVec 7} {f3 : BitVec 3} {op : BitVec 7} (h7 : funct7Of w = f7)
    (h3 : funct3Of w = f3) (hop : opcodeOf w = op) : encodeR f7 (rs2Of w) (rs1Of w) f3 (rdOf w) op = w := by
  subst h7 h3 hop
  apply BitVec.eq_of_getLsbD_eq
  intro i hi
  simp only [getLsbD_encodeR, opcodeOf, rdOf, funct3Of, rs1Of, rs2Of, funct7Of, regBits_extract,
    BitVec.getLsbD_extractLsb']
  grind

theorem encodeShift_fields {w : Word} {f7 : BitVec 7} {f3 : BitVec 3} {op : BitVec 7} (h7 : funct7Of w = f7)
    (h3 : funct3Of w = f3) (hop : opcodeOf w = op) : encodeShift f7 (shamtOf w) (rs1Of w) f3 (rdOf w) op = w :=
  encodeR_fields h7 h3 hop

theorem encodeI_fields {w : Word} {f3 : BitVec 3} {op : BitVec 7} (h3 : funct3Of w = f3) (hop : opcodeOf w = op) :
    encodeI (immIOf w) (rs1Of w) f3 (rdOf w) op = w := by
  subst h3 hop
  apply BitVec.eq_of_getLsbD_eq
  intro i hi
  simp only [getLsbD_encodeI, opcodeOf, rdOf, funct3Of, rs1Of, immIOf, regBits_extract, BitVec.getLsbD_extractLsb']
  grind

theorem encodeS_fields {w : Word} {f3 : BitVec 3} {op : BitVec 7} (h3 : funct3Of w = f3) (hop : opcodeOf w = op) :
    encodeS (immSOf w) (rs2Of w) (rs1Of w) f3 op = w := by
  subst h3 hop
  apply BitVec.eq_of_getLsbD_eq
  intro i hi
  simp only [getLsbD_encodeS, opcodeOf, funct3Of, rs1Of, rs2Of, immSOf, regBits_extract, BitVec.getLsbD_append,
    BitVec.getLsbD_extractLsb']
  grind

theorem encodeB_fields {w : Word} {f3 : BitVec 3} {op : BitVec 7} (h3 : funct3Of w = f3) (hop : opcodeOf w = op) :
    encodeB (immBOf w) (rs2Of w) (rs1Of w) f3 op = w := by
  subst h3 hop
  apply BitVec.eq_of_getLsbD_eq
  intro i hi
  simp only [getLsbD_encodeB, opcodeOf, funct3Of, rs1Of, rs2Of, immBOf, regBits_extract, BitVec.getLsbD_append,
    BitVec.getLsbD_extractLsb']
  grind

theorem encodeU_fields {w : Word} {op : BitVec 7} (hop : opcodeOf w = op) : encodeU (immUOf w) (rdOf w) op = w := by
  subst hop
  apply BitVec.eq_of_getLsbD_eq
  intro i hi
  simp only [getLsbD_encodeU, opcodeOf, rdOf, immUOf, regBits_extract, BitVec.getLsbD_extractLsb']
  grind

theorem encodeJ_fields {w : Word} {op : BitVec 7} (hop : opcodeOf w = op) : encodeJ (immJOf w) (rdOf w) op = w := by
  subst hop
  apply BitVec.eq_of_getLsbD_eq
  intro i hi
  simp only [getLsbD_encodeJ, opcodeOf, rdOf, immJOf, regBits_extract, BitVec.getLsbD_append,
    BitVec.getLsbD_extractLsb']
  grind

/-! ### The decoder, major opcode by major opcode -/

theorem encode_of_decodeOp {w : Word} {i : Instr} (hop : opcodeOf w = 0b0110011#7) (h : decodeOp w = .ok i) :
    encode i = w := by
  unfold decodeOp at h
  split at h <;> cases h
  all_goals exact encodeR_fields ‹_› ‹_› hop

/-- The one funct3 the other OP-IMM arms leave. -/
theorem funct3_eq_101 {f : BitVec 3} (h0 : f ≠ 0b000#3) (h2 : f ≠ 0b010#3) (h3 : f ≠ 0b011#3) (h4 : f ≠ 0b100#3)
    (h6 : f ≠ 0b110#3) (h7 : f ≠ 0b111#3) (h1 : f ≠ 0b001#3) : f = 0b101#3 := by
  bv_omega

theorem encode_of_decodeOpImm {w : Word} {i : Instr} (hop : opcodeOf w = 0b0010011#7) (h : decodeOpImm w = .ok i) :
    encode i = w := by
  unfold decodeOpImm at h
  split at h
  case h_7 h3 =>
    split at h <;> cases h
    next h7 => exact encodeShift_fields h7 h3 hop
  case h_8 h0 h2 h3 h4 h6 h7 h1 =>
    have h3 := funct3_eq_101 h0 h2 h3 h4 h6 h7 h1
    split at h <;> cases h
    all_goals exact encodeShift_fields ‹_› h3 hop
  all_goals
    cases h
    exact encodeI_fields ‹_› hop

theorem encode_of_decodeBranch {w : Word} {i : Instr} (hop : opcodeOf w = 0b1100011#7) (h : decodeBranch w = .ok i) :
    encode i = w := by
  unfold decodeBranch at h
  split at h <;> cases h
  all_goals exact encodeB_fields ‹_› hop

theorem encode_of_decodeLoad {w : Word} {i : Instr} (hop : opcodeOf w = 0b0000011#7) (h : decodeLoad w = .ok i) :
    encode i = w := by
  unfold decodeLoad at h
  split at h <;> cases h
  all_goals exact encodeI_fields ‹_› hop

theorem encode_of_decodeStore {w : Word} {i : Instr} (hop : opcodeOf w = 0b0100011#7) (h : decodeStore w = .ok i) :
    encode i = w := by
  unfold decodeStore at h
  split at h <;> cases h
  all_goals exact encodeS_fields ‹_› hop

/-- Decoding drops no bit: the word the fault record re-encodes is the word that was fetched (log entry 6). -/
theorem encode_of_decodeWord {w : Word} {i : Instr} (h : decodeWord w = .ok i) : encode i = w := by
  unfold decodeWord at h
  split at h
  case h_1 hop => cases h; exact encodeU_fields hop
  case h_2 hop => cases h; exact encodeU_fields hop
  case h_3 hop => cases h; exact encodeJ_fields hop
  case h_4 hop =>
    split at h <;> cases h
    next h3 => exact encodeI_fields h3 hop
  case h_5 hop => exact encode_of_decodeBranch hop h
  case h_6 hop => exact encode_of_decodeLoad hop h
  case h_7 hop => exact encode_of_decodeStore hop h
  case h_8 hop => exact encode_of_decodeOpImm hop h
  case h_9 hop => exact encode_of_decodeOp hop h
  case h_10 =>
    split at h <;> cases h
    next hw => exact hw.symm
  case h_11 => split at h <;> cases h

theorem decodeWord_eq_ebreak_iff {w : Word} : decodeWord w = .ok .ebreak ↔ w = 0x00100073#32 :=
  ⟨fun h => (encode_of_decodeWord h).symm, by rintro rfl; rfl⟩

end Sys2Proof

/-! The state of a session over a step (10_state.md): how the mode changes, what the fault record holds, the invariant,
and which operations change the registers, the memory, the Peripheral Bank and the timer. -/

namespace Sys2Proof.Machine

/-! ### What an instruction does to the mode -/

@[simp] theorem fetchFault_mode (s : State) (e : BusFault) : (s.fetchFault e).mode = .faulted := rfl
@[simp] theorem decodeFault_mode (s : State) (w : Word) : (s.decodeFault w).mode = .faulted := rfl
@[simp] theorem executeFault_mode (s : State) (e : BusFault) (i : Instr) : (s.executeFault e i).mode = .faulted := rfl
@[simp] theorem not_isStore_ebreak : ¬isStore .ebreak := id
@[simp] theorem accessFault_ebreak (s : State) : accessFault s .ebreak = none := rfl

/-- From Running an instruction completes with one tick, or takes the fault of its data access, or halts: each exactly
when the instruction and its access say so. -/
theorem Effect.outcome {i : Instr} {s t : State} (h : Effect i s t) (hm : s.mode = .running) :
    (accessFault s i = none ∧ i ≠ .ebreak ∧ t.mode = .running ∧ t.timer = ticked s) ∨
    (∃ e, accessFault s i = some e ∧ i ≠ .ebreak ∧ t = s.executeFault e i) ∨
    (accessFault s i = none ∧ i = .ebreak ∧ t = s.halt) := by
  cases h with
  | writes rd v next _ hf _ he => exact .inl ⟨hf, he, by simp [hm], by simp [ticked]⟩
  | stores a w v u hst hw hf =>
    obtain ⟨hcfg, -, -, hmode, -, htimer, -⟩ := memWrite_only hw
    refine .inl ⟨hf, ?_, by simp [hmode, hm], by simp [ticked, hcfg, htimer]⟩
    rintro rfl
    exact not_isStore_ebreak hst
  | faults e hf =>
    refine .inr (.inl ⟨e, hf, ?_, rfl⟩)
    rintro rfl
    cases hf
  | halts he => exact .inr (.inr ⟨he ▸ accessFault_ebreak s, he, rfl⟩)

theorem Effect.mode_eq_halted_iff {i : Instr} {s t : State} (h : Effect i s t) (hm : s.mode = .running) :
    t.mode = .halted ↔ i = .ebreak := by
  rcases h.outcome hm with ⟨-, hi, hr, -⟩ | ⟨e, -, hi, rfl⟩ | ⟨-, hi, rfl⟩ <;> simp [*]

theorem Effect.mode_eq_faulted_iff {i : Instr} {s t : State} (h : Effect i s t) (hm : s.mode = .running) :
    t.mode = .faulted ↔ ∃ e, accessFault s i = some e := by
  rcases h.outcome hm with ⟨hf, -, hr, -⟩ | ⟨e, hf, -, rfl⟩ | ⟨hf, -, rfl⟩ <;> simp [*]

/-- A refused data access is the fault of the instruction (R305). -/
theorem exec_of_accessFault {i : Instr} {s : State} {e : BusFault} (h : accessFault s i = some e)
    (hm : s.mode = .running) : exec i s = .next (s.executeFault e i) := by
  obtain ⟨t, hx, he⟩ := exec_effect i s
  rcases he.outcome hm with ⟨hf, -⟩ | ⟨e', hf, -, rfl⟩ | ⟨hf, -⟩
  · simp [h] at hf
  · rw [h] at hf
    cases hf
    exact hx
  · simp [h] at hf

/-- A step that leaves Running has changed the mode and the fault record, and nothing else (R308). -/
theorem eq_of_step_leaves_running {s t : State} (hm : s.mode = .running) (h : step s = .next t)
    (ht : t.mode ≠ .running) : ∃ mode fault, t = { s with mode := mode, fault := fault } := by
  cases stepTo_of h with
  | stays hn => exact absurd hm hn
  | fetchFaults => exact ⟨_, _, rfl⟩
  | decodeFaults => exact ⟨_, _, rfl⟩
  | runs _ w i _ _ _ _ he =>
    rcases he.outcome hm with ⟨-, -, hr, -⟩ | ⟨e, -, -, rfl⟩ | ⟨-, -, rfl⟩
    · exact absurd hr ht
    · exact ⟨_, _, rfl⟩
    · exact ⟨_, s.fault, rfl⟩

/-- Halted comes from the debug-trap word alone (R240, R26). -/
theorem step_mode_eq_halted_iff {s t : State} (hm : s.mode = .running) (h : step s = .next t) :
    t.mode = .halted ↔ fetch s = .ok 0x00100073#32 := by
  cases stepTo_of h with
  | stays hn => exact absurd hm hn
  | fetchFaults _ e hf => simp [hf]
  | decodeFaults _ w r hf hd =>
    have hw : w ≠ 0x00100073#32 := fun he => by simp [decodeWord_eq_ebreak_iff.2 he] at hd
    simp [hf, hw]
  | runs _ w i _ hf hd _ he =>
    rw [he.mode_eq_halted_iff hm, hf, Except.ok.injEq, ← decodeWord_eq_ebreak_iff, hd, Except.ok.injEq]

/-- Faulted comes from one of the three causes of R304 to R306. -/
theorem step_mode_eq_faulted_iff {s t : State} (hm : s.mode = .running) (h : step s = .next t) :
    t.mode = .faulted ↔ (∃ e, fetch s = .error e) ∨ (∃ w, fetch s = .ok w ∧ Unrecognized w) ∨
      (∃ w i e, fetch s = .ok w ∧ decodeWord w = .ok i ∧ accessFault s i = some e) := by
  cases stepTo_of h with
  | stays hn => exact absurd hm hn
  | fetchFaults _ e hf => simp [hf]
  | decodeFaults _ w r hf hd => simp [hf, hd, Unrecognized]
  | runs _ w i _ hf hd _ he => simp [he.mode_eq_faulted_iff hm, hf, hd, Unrecognized]

/-- Settles O11: the causes of each mode, and the frame of a step that leaves Running. -/
theorem modeChangesArePrecise : Obligations.ModeChangesArePrecise := by
  refine ⟨fun s t hm h => ⟨step_mode_eq_halted_iff hm h, step_mode_eq_faulted_iff hm h, fun ht => ?_⟩,
    fun s t hm h => ?_⟩
  · obtain ⟨mode, fault, rfl⟩ := eq_of_step_leaves_running hm h ht
    exact ⟨fun _ => rfl, fun _ => rfl, ⟨rfl, rfl, rfl, rfl⟩, rfl, rfl, rfl, rfl⟩
  · rw [step_not_running hm] at h
    cases h
    rfl

/-! ### The fault record -/

theorem recordFits_of_no_record {s : State} (hf : s.fault = none) (hm : s.mode ≠ .faulted) : recordFits s := by
  simp [recordFits, hf, hm]

/-- A fetch fault has no word, so R27 asks that its address be the pc. -/
theorem recordFits_fetchFault {s : State} {e : BusFault} (ha : e.addr = s.pc) : recordFits (s.fetchFault e) :=
  ⟨rfl, rfl, rfl, fun _ => congrArg some ha⟩

theorem recordFits_decodeFault (s : State) (w : Word) : recordFits (s.decodeFault w) := ⟨rfl, rfl, rfl, rfl⟩

theorem recordFits_executeFault (s : State) (e : BusFault) (i : Instr) : recordFits (s.executeFault e i) :=
  ⟨rfl, rfl, rfl, nofun⟩

/-- The record is present exactly in mode Faulted. -/
theorem fault_isSome_iff_of_recordFits {s : State} (h : recordFits s) : s.fault.isSome ↔ s.mode = .faulted := by
  unfold recordFits at h
  split at h
  · next hf => simp [hf, h]
  · next r hf => simp [hf, h.1]

theorem fault_eq_none_of_recordFits {s : State} (h : recordFits s) (hm : s.mode ≠ .faulted) : s.fault = none := by
  rw [← Option.not_isSome_iff_eq_none, fault_isSome_iff_of_recordFits h]
  exact hm

/-- A refused fetch names the pc (R70, R304). -/
theorem fetch_error_addr {s : State} {e : BusFault} (h : fetch s = .error e) : e.addr = s.pc := memRead_error_addr h

/-- Settles O12: one clause a cause, the word of an execute fault by `encode_of_decodeWord`. -/
theorem faultRecordFields : Obligations.FaultRecordFields := by
  refine ⟨fun s e hm hf => ?_, fun s w hm hf ⟨r, hd⟩ => step_decode_error hm hf hd, fun s w i e hm hf hd ha => ?_,
    fun s w i hm hf hd ha => ?_, fun s hs => fault_isSome_iff_of_recordFits hs.recordFits, fun s t hm h => ?_⟩
  · rw [step_fetch_error hm hf, State.fetchFault, fetch_error_addr hf]
    rfl
  · obtain ⟨ea, n, v, hacc, rfl⟩ := accessFault_addr ha
    refine ⟨e.addr, n, v, hacc, ?_⟩
    rw [step_decode_ok hm hf hd, exec_of_accessFault ha hm, State.executeFault, encode_of_decodeWord hd]
    rfl
  · obtain ⟨t, hx, he⟩ := exec_effect i s
    refine ⟨t, (step_decode_ok hm hf hd).trans hx, fun ht => ?_⟩
    obtain ⟨e, hsome⟩ := (he.mode_eq_faulted_iff hm).1 ht
    simp [ha] at hsome
  · rw [step_not_running (by simp [hm])] at h
    cases h
    rfl

/-! ### What is left unchanged -/

/-- An instruction that is no store leaves RAM and the tables of the Peripheral Bank as they were. -/
theorem Effect.sameMemory {i : Instr} {s t : State} (h : Effect i s t) (hst : ¬isStore i) :
    t.ram = s.ram ∧ SamePeripherals s t := by
  cases h with
  | writes rd v next => exact ⟨by simp, by constructor <;> simp⟩
  | stores a w v u h => exact absurd h hst
  | faults e => exact ⟨rfl, rfl, rfl, rfl, rfl⟩
  | halts => exact ⟨rfl, rfl, rfl, rfl, rfl⟩

/-- An instruction changes at most its destination register. -/
theorem Effect.readReg_other {i : Instr} {s t : State} (h : Effect i s t) :
    ∃ rd, ∀ r, r ≠ rd → t.readReg r = s.readReg r := by
  cases h with
  | writes rd v next => exact ⟨rd, fun r hr => readReg_writeReg_other s v hr⟩
  | stores a w v u _ hw =>
    obtain ⟨-, hregs, -⟩ := memWrite_only hw
    exact ⟨0, fun r _ => readReg_congr hregs r⟩
  | faults e => exact ⟨0, fun _ _ => rfl⟩
  | halts => exact ⟨0, fun _ _ => rfl⟩

/-- Settles O39: by what a step can do, and of its instruction by `Effect.sameMemory` and `Effect.readReg_other`. -/
theorem onlyStoresChangeMemory : Obligations.OnlyStoresChangeMemory := by
  refine ⟨fun s t h hst => ?_, fun s t h => ?_⟩
  · cases stepTo_of h with
    | stays => exact ⟨rfl, samePeripherals_refl s⟩
    | fetchFaults => exact ⟨rfl, rfl, rfl, rfl, rfl⟩
    | decodeFaults => exact ⟨rfl, rfl, rfl, rfl, rfl⟩
    | runs _ w i _ hf hd _ he => exact he.sameMemory (hst w i hf hd)
  · cases stepTo_of h with
    | stays => exact ⟨0, fun _ _ => rfl⟩
    | fetchFaults => exact ⟨0, fun _ _ => rfl⟩
    | decodeFaults => exact ⟨0, fun _ _ => rfl⟩
    | runs _ w i _ _ _ _ he => exact he.readReg_other

/-! ### The invariant -/

/-- All of the invariant but the fault record is about the configuration, RAM and the tables. -/
theorem inv_of_sameMemory {s t : State} (hs : s.Inv) (hc : t.config = s.config) (hram : t.ram = s.ram)
    (hp : SamePeripherals s t) (hfit : recordFits t) : t.Inv where
  shaped := ⟨hc ▸ hs.shaped.configOk, by rw [hp.gpioFunc, hc, hs.shaped.pins],
    by rw [hp.pwmLevelA, hc, hs.shaped.levelsA], by rw [hp.pwmLevelB, hc, hs.shaped.levelsB],
    by rw [hp.pwmEnabled, hc, hs.shaped.flags]⟩
  ramCanonical := hram ▸ hs.ramCanonical
  ramInRegion := by rw [hram, hc]; exact hs.ramInRegion
  pinsLegal := by
    have hpin : t.pinFunc = s.pinFunc := by
      funext p
      simp only [State.pinFunc, hp.gpioFunc, hc]
    rw [hc, hpin]
    exact hs.pinsLegal
  recordFits := hfit

/-- An accepted bus write in a mode other than Faulted keeps the invariant. -/
theorem inv_of_memWrite {s t : State} {a : Word} {w : Width} {v : Word} (hs : s.Inv) (hm : s.mode ≠ .faulted)
    (h : memWrite s a w v = .ok t) : t.Inv := by
  obtain ⟨hshaped, hcanonical, hregion, hpins⟩ :=
    memWrite_keeps h hs.shaped hs.ramCanonical hs.ramInRegion hs.pinsLegal
  obtain ⟨-, -, -, hmode, hfault, -⟩ := memWrite_only h
  refine ⟨hshaped, hcanonical, hregion, hpins, recordFits_of_no_record ?_ (hmode ▸ hm)⟩
  rw [hfault, fault_eq_none_of_recordFits hs.recordFits hm]

/-- A register write and the end of an instruction keep the invariant in a mode other than Faulted. -/
theorem inv_writeReg_complete {s : State} (hs : s.Inv) (hm : s.mode ≠ .faulted) (rd : Reg) (v next : Word) :
    ((s.writeReg rd v).complete next).Inv := by
  have hfault := fault_eq_none_of_recordFits hs.recordFits hm
  exact inv_of_sameMemory hs (by simp) (by simp) (by constructor <;> simp)
    (recordFits_of_no_record (by simpa using hfault) (by simpa using hm))

theorem Effect.inv {i : Instr} {s t : State} (h : Effect i s t) (hm : s.mode = .running) (hs : s.Inv) : t.Inv := by
  have hnf : s.mode ≠ .faulted := by simp [hm]
  cases h with
  | writes rd v next => exact inv_writeReg_complete hs hnf rd v next
  | stores a w v u _ hw =>
    obtain ⟨-, -, -, hmode, -⟩ := memWrite_only hw
    have hu : u.Inv := inv_of_memWrite hs hnf hw
    simpa using inv_writeReg_complete hu (hmode ▸ hnf) 0 0#32 (s.pc + 4#32)
  | faults e => exact inv_of_sameMemory hs rfl rfl ⟨rfl, rfl, rfl, rfl⟩ (recordFits_executeFault s e i)
  | halts =>
    have hfault := fault_eq_none_of_recordFits hs.recordFits hnf
    exact inv_of_sameMemory hs rfl rfl ⟨rfl, rfl, rfl, rfl⟩ (recordFits_of_no_record hfault nofun)

/-- Settles O14: by what a step can do; a fault writes a record that fits, and everything else keeps the tables. -/
theorem stepKeepsInvariant : Obligations.StepKeepsInvariant := by
  intro s t hs h
  cases stepTo_of h with
  | stays => exact hs
  | fetchFaults _ e hf =>
    exact inv_of_sameMemory hs rfl rfl ⟨rfl, rfl, rfl, rfl⟩ (recordFits_fetchFault (fetch_error_addr hf))
  | decodeFaults _ w => exact inv_of_sameMemory hs rfl rfl ⟨rfl, rfl, rfl, rfl⟩ (recordFits_decodeFault s w)
  | runs hm w i _ _ _ _ he => exact he.inv hm hs

theorem load_default_eq_reset :
    load defaultConfig [] (BitVec.ofNat 32 defaultConfig.loadAddr) = .ok State.reset :=
  load_of_fits (by decide) (by decide) (by decide)

/-- Settles O16: `inv_of_load` for the invariant, and the reset table for the mode. -/
theorem loadedSessionMeetsInvariant : Obligations.LoadedSessionMeetsInvariant := by
  refine ⟨fun c image entry s hc h => ⟨inv_of_load hc h, ?_⟩, load_default_eq_reset⟩
  obtain ⟨rfl, -⟩ := load_ok h
  rfl

/-- Settles O15: reset is a load at the default configuration. -/
theorem resetMeetsInvariant : Obligations.ResetMeetsInvariant :=
  inv_of_load wf_defaultConfig load_default_eq_reset

/-! ### An instruction with destination x0 -/

/-- What an instruction and its twin with destination x0 share when they end in `t` and `u` (R22): all but the
registers and the recorded word. -/
structure SameButRegisters (t u : State) : Prop where
  ram : u.ram = t.ram
  peripherals : SamePeripherals t u
  pc : u.pc = t.pc
  timer : u.timer = t.timer
  mode : u.mode = t.mode
  cycles : u.cycles = t.cycles
  config : u.config = t.config
  record : u.fault.map (fun r => (r.kind, r.pc, r.addr)) = t.fault.map (fun r => (r.kind, r.pc, r.addr))

theorem SameButRegisters.refl (t : State) : SameButRegisters t t :=
  ⟨rfl, samePeripherals_refl t, rfl, rfl, rfl, rfl, rfl, rfl⟩

/-- The instruction `j` does what `i` does at `s`, but writes no register. -/
def WritesNoRegisterLike (s : State) (i j : Instr) : Prop :=
  ∃ t u, exec i s = .next t ∧ exec j s = .next u ∧ (∀ r, u.readReg r = s.readReg r) ∧ SameButRegisters t u

theorem writesNoRegisterLike_of_write {s : State} {i j : Instr} {rd : Reg} {v next : Word}
    (hi : exec i s = .next ((s.writeReg rd v).complete next)) (hj : exec j s = .next ((s.writeReg 0 v).complete next)) :
    WritesNoRegisterLike s i j :=
  ⟨_, _, hi, hj, fun _ => rfl,
    ⟨by simp, by constructor <;> simp, rfl, by simp [ticked], by simp, by simp, by simp, by simp⟩⟩

theorem writesNoRegisterLike_of_load {s : State} {i j : Instr} {rd : Reg} {ea : Word} {w : Width}
    {extend : Word → Word} (hi : exec i s = loadFrom i rd ea w extend s)
    (hj : exec j s = loadFrom j 0 ea w extend s) : WritesNoRegisterLike s i j := by
  cases hm : memRead s ea w with
  | ok v => exact writesNoRegisterLike_of_write (hi.trans (loadFrom_ok hm)) (hj.trans (loadFrom_ok hm))
  | error e =>
    exact ⟨_, _, hi.trans (loadFrom_error hm), hj.trans (loadFrom_error hm), fun _ => rfl,
      ⟨rfl, ⟨rfl, rfl, rfl, rfl⟩, rfl, rfl, rfl, rfl, rfl, rfl⟩⟩

/-- An instruction that writes no register is its own twin. -/
theorem writesNoRegisterLike_self {s t : State} {i : Instr} (hi : exec i s = .next t)
    (hr : ∀ r, t.readReg r = s.readReg r) : WritesNoRegisterLike s i i :=
  ⟨t, t, hi, hi, hr, .refl t⟩

theorem writesNoRegisterLike_self_of_store {s : State} {i : Instr} {ea : Word} {w : Width} {v : Word}
    (hi : exec i s = storeTo i ea w v s) : WritesNoRegisterLike s i i := by
  cases hm : memWrite s ea w v with
  | ok t =>
    obtain ⟨-, hregs, -⟩ := memWrite_only hm
    exact writesNoRegisterLike_self (hi.trans (storeTo_ok hm)) (readReg_congr hregs)
  | error e => exact writesNoRegisterLike_self (hi.trans (storeTo_error hm)) fun _ => rfl

/-- By the shape of the instruction: a load, a store, one without destination, or a register write. -/
theorem withDestZero_writesNoRegister (i : Instr) (s : State) : WritesNoRegisterLike s i (withDestZero i) := by
  cases i
  case lb | lh | lw | lbu | lhu => exact writesNoRegisterLike_of_load rfl rfl
  case sb | sh | sw => exact writesNoRegisterLike_self_of_store rfl
  case beq | bne | blt | bge | bltu | bgeu | ebreak => exact writesNoRegisterLike_self rfl fun _ => rfl
  all_goals exact writesNoRegisterLike_of_write rfl rfl

/-- Settles O20: x0 by the register file's laws, its destination by the shape of the instruction. -/
theorem zeroRegisterHardwired : Obligations.ZeroRegisterHardwired := by
  refine ⟨readReg_zero, writeReg_zero, fun i s => ?_⟩
  obtain ⟨t, u, ht, hu, hregs, hsame⟩ := withDestZero_writesNoRegister i s
  exact ⟨t, u, ht, hu, hregs, hsame.ram, hsame.peripherals, hsame.pc, hsame.timer, hsame.mode, hsame.cycles,
    hsame.config, hsame.record⟩

/-! ### The timer -/

theorem Effect.timer {i : Instr} {s t : State} (h : Effect i s t) (hm : s.mode = .running) :
    t.timer = s.timer ∨ t.timer = ticked s ∧ t.mode = .running := by
  rcases h.outcome hm with ⟨-, -, hr, htick⟩ | ⟨e, -, -, rfl⟩ | ⟨-, -, rfl⟩
  · exact .inr ⟨htick, hr⟩
  · exact .inl rfl
  · exact .inl rfl

theorem toNat_timer_timerWaitUntil (s : State) (target : BitVec 64) :
    (timerWaitUntil s target).timer.toNat = max s.timer.toNat target.toNat := by
  simp only [timerWaitUntil_eq, BitVec.lt_def]
  split <;> omega

/-- Neither timer word is written: an access reaches the register that refuses it, or none (R272, R68). -/
theorem memWrite_timer_refused {s : State} {r : IoReg} (v : Word) (hc : s.config.wf = true)
    (hr : r = .timeRawL ∨ r = .timeRawH) (hin : insideIo s.config (addrOf s.config r) .word) :
    memWrite s (addrOf s.config r) .word v = .error ⟨.unimplementedPeripheral, addrOf s.config r⟩ := by
  have hexists : r.exists s.config := by rcases hr with rfl | rfl <;> trivial
  have hnone : (ioRegister s.config (addrOf s.config r).toNat .word).bind (fun q => ioWrite s q v) = none := by
    rw [Option.bind_eq_none_iff]
    intro q hq
    obtain ⟨-, halign, -⟩ := eq_addrOf_of_ioRegister hq
    rw [ioRegister_addrOf hc hexists halign] at hq
    cases hq
    rcases hr with rfl | rfl <;> rfl
  rw [memWrite_io s v hc hin, hnone]

/-- Settles O46: the tick by what a step can do, the bus and the wait by their own laws. -/
theorem timerChangesOnlyByTickOrWait : Obligations.TimerChangesOnlyByTickOrWait := by
  refine ⟨fun s t h => ?_, fun s a w v t h => ?_, fun s target => ⟨toNat_timer_timerWaitUntil s target, ?_⟩,
    fun s n hn => ?_, fun s a v hc ha hin => ?_⟩
  · cases stepTo_of h with
    | stays => exact .inl rfl
    | fetchFaults => exact .inl rfl
    | decodeFaults => exact .inl rfl
    | runs hm w i _ _ _ _ he => exact (he.timer hm).imp_right fun ⟨htick, hr⟩ => ⟨htick, hm, hr⟩
  · obtain ⟨-, -, -, -, -, htimer, -⟩ := memWrite_only h
    exact htimer
  · rw [timerWaitUntil_eq]
  · rw [toNat_timer_timerWaitUntil, BitVec.toNat_add, Nat.mod_eq_of_lt hn]
    exact Nat.le_max_right _ _
  · rcases ha with rfl | rfl
    · exact memWrite_timer_refused (r := .timeRawL) v hc (.inl rfl) hin
    · exact memWrite_timer_refused (r := .timeRawH) v hc (.inr rfl) hin

end Sys2Proof.Machine

/-! The Memory Bus (20_memory.md): which accesses are refused, RAM in little-endian order at any alignment, and what a
later read or fetch sees of a store. -/

namespace Sys2Proof.Machine

/-! ### Refused accesses (R63, R68, R69) -/

theorem memRead_outOfBounds_iff {s : State} {a : Word} {w : Width} (hc : s.config.wf = true) :
    memRead s a w = .error ⟨.outOfBounds, a⟩ ↔ ¬insideRam s.config a w ∧ ¬insideIo s.config a w := by
  refine ⟨fun h => ?_, fun ⟨hram, hio⟩ => memRead_outside s hram hio⟩
  rcases memRead_cases s a w with ⟨-, h'⟩ | ⟨-, r, -, h'⟩ | ⟨-, -, h'⟩ | ⟨hram, hio, -⟩
  case inr.inr.inr => exact ⟨hram, hio hc⟩
  all_goals simp [h'] at h

theorem memWrite_outOfBounds_iff {s : State} {a : Word} {w : Width} {v : Word} (hc : s.config.wf = true) :
    memWrite s a w v = .error ⟨.outOfBounds, a⟩ ↔ ¬insideRam s.config a w ∧ ¬insideIo s.config a w := by
  refine ⟨fun h => ?_, fun ⟨hram, hio⟩ => memWrite_outside s v hram hio⟩
  rcases memWrite_cases s a w v with ⟨-, h'⟩ | ⟨-, r, t, -, -, h'⟩ | ⟨-, h'⟩ | ⟨hram, hio, -⟩
  case inr.inr.inr => exact ⟨hram, hio hc⟩
  all_goals simp [h'] at h

/-- The one refusal of a read inside the I/O window. -/
theorem memRead_io_error {s : State} {a : Word} {w : Width} {e : BusFault} (hc : s.config.wf = true)
    (hio : insideIo s.config a w) (h : memRead s a w = .error e) : e = ⟨.unimplementedPeripheral, a⟩ := by
  rw [memRead_io s hc hio] at h
  split at h <;> cases h
  rfl

/-- The one refusal of a write inside the I/O window. -/
theorem memWrite_io_error {s : State} {a : Word} {w : Width} {v : Word} {e : BusFault} (hc : s.config.wf = true)
    (hio : insideIo s.config a w) (h : memWrite s a w v = .error e) : e = ⟨.unimplementedPeripheral, a⟩ := by
  rw [memWrite_io s v hc hio] at h
  split at h <;> cases h
  rfl

/-- Settles O35: by what a read and a write can answer. -/
theorem outOfBoundsExactly : Obligations.OutOfBoundsExactly := by
  intro s a w v
  refine ⟨fun h => ⟨⟨_, memRead_ram s h⟩, _, memWrite_ram s v h⟩,
    fun hc => ⟨memRead_outOfBounds_iff hc, memWrite_outOfBounds_iff hc, fun hio e he => ?_⟩⟩
  rcases he with he | he
  · exact memRead_io_error hc hio he
  · exact memWrite_io_error hc hio he

/-- Only an aligned word access at a register's address reaches a register (R68). -/
theorem ioRegister_eq_none {c : Config} {a : Word} {w : Width}
    (h : ¬(w = .word ∧ a.toNat % 4 = 0 ∧ isRegisterAddr c a)) : ioRegister c a.toNat w = none := by
  refine Option.eq_none_iff_forall_ne_some.2 fun r hr => h ?_
  obtain ⟨hw, halign, hexists, ha⟩ := eq_addrOf_of_ioRegister hr
  exact ⟨hw, halign, (isRegisterAddr_iff c a).2 ⟨r, hexists, ha⟩⟩

theorem memRead_unimplemented {s : State} {a : Word} {w : Width} (hc : s.config.wf = true)
    (hio : insideIo s.config a w) (h : ¬(w = .word ∧ a.toNat % 4 = 0 ∧ isRegisterAddr s.config a)) :
    memRead s a w = .error ⟨.unimplementedPeripheral, a⟩ := by
  rw [memRead_io s hc hio, ioRegister_eq_none h]

theorem memRead_isOk_of_isRegisterAddr {s : State} {a : Word} (hc : s.config.wf = true)
    (ha : isRegisterAddr s.config a) (hreach : Reachable s.config a) : ∃ v, memRead s a .word = .ok v := by
  obtain ⟨r, hexists, rfl⟩ := (isRegisterAddr_iff s.config a).1 ha
  exact ⟨_, memRead_register s hc hexists hreach⟩

/-! ### Little-endian order (R66, R67) -/

theorem memRead_ram_leValue {s : State} {a : Word} {w : Width} (h : insideRam s.config a w) :
    ∃ v, memRead s a w = .ok v ∧ v.toNat = leValue s.ram a.toNat w.bytes :=
  ⟨_, memRead_ram s h, Memory.toNat_readWidth s.ram a.toNat w⟩

/-- Settles O7: the fetch is `memRead` at the pc, so each clause is the bus's own law. -/
theorem fetchIsAnOrdinaryRead : Obligations.FetchIsAnOrdinaryRead := by
  refine ⟨fun _ => rfl, fun s => memRead_ram_leValue,
    fun s hc => ⟨memRead_isOk_of_isRegisterAddr hc, fun hio hreg => ?_⟩, fun s => memRead_outside s,
    fun s e hm hf => ?_⟩
  · exact memRead_unimplemented hc hio fun ⟨_, halign, ha⟩ => hreg ⟨ha, halign⟩
  · rw [step_fetch_error hm hf, fetchFault_eq, fetch_error_addr hf]

theorem Memory.toNat_read_writeWidth (m : Memory) {a x : Nat} (v : Word) {w : Width} (hlo : a ≤ x)
    (hhi : x < a + w.bytes) : ((m.writeWidth a v w).read x).toNat = v.toNat / 256 ^ (x - a) % 256 := by
  rw [Memory.read_writeWidth, if_pos ⟨hlo, hhi⟩, toNat_extractByte]

/-- The bytes inside a write are the value's own digits in base 256, from the first one read. -/
theorem leValue_writeWidth (m : Memory) {a b n : Nat} (v : Word) {w : Width} (hlo : a ≤ b)
    (hhi : b + n ≤ a + w.bytes) : leValue (m.writeWidth a v w) b n = v.toNat / 256 ^ (b - a) % 256 ^ n := by
  induction n generalizing b with
  | zero => simp [leValue, Nat.mod_one]
  | succ n ih =>
    have hnext : v.toNat / 256 ^ (b + 1 - a) = v.toNat / 256 ^ (b - a) / 256 := by
      rw [Nat.succ_sub hlo, Nat.pow_succ, Nat.div_div_eq_div_mul]
    rw [leValue, Memory.toNat_read_writeWidth m v hlo (by omega), ih (by omega) (by omega), hnext, Nat.pow_succ',
      Nat.mod_mul]

theorem insideRam_of_within {c : Config} {a b : Word} {w w' : Width} (h : insideRam c a w) (hlo : a.toNat ≤ b.toNat)
    (hhi : b.toNat + w'.bytes ≤ a.toNat + w.bytes) : insideRam c b w' :=
  ⟨h.1.trans hlo, hhi.trans h.2⟩

/-- Settles O36: reads by `Memory.toNat_readWidth`, the written bytes by `leValue_writeWidth`. -/
theorem ramAccessLittleEndianUnaligned : Obligations.RamAccessLittleEndianUnaligned := by
  refine ⟨fun s a w => memRead_ram_leValue, fun s => memRead_ram_leValue, fun s a w v h =>
    ⟨_, memWrite_ram s v h, fun k hk => ?_, fun x hx => ?_, rfl, fun b w' hlo hhi => ?_⟩⟩
  · rw [Memory.toNat_read_writeWidth s.ram v (Nat.le_add_right _ k) (by omega), Nat.add_sub_cancel_left]
  · exact (Memory.read_writeWidth s.ram _ v w x).trans (if_neg (by omega))
  · have hin : insideRam s.config b w' := insideRam_of_within h hlo hhi
    obtain ⟨x, hread, hx⟩ := memRead_ram_leValue (s := { s with ram := s.ram.writeWidth a.toNat v w }) hin
    exact ⟨x, hread, hx.trans (leValue_writeWidth s.ram v hlo hhi)⟩

/-! ### Reads after a store (R80) -/

theorem Memory.readWidth_byte_writeWidth (m : Memory) (a b : Nat) (v : Word) (w : Width) :
    (m.writeWidth a v w).readWidth b .byte =
      if a ≤ b ∧ b < a + w.bytes then BitVec.ofNat 32 (v.toNat / 256 ^ (b - a) % 256) else m.readWidth b .byte := by
  simp only [Memory.readWidth, Memory.read_writeWidth]
  split
  · rw [← toNat_extractByte, BitVec.ofNat_toNat]
  · rfl

theorem eq_of_memWrite_ram {s t : State} {a : Word} {w : Width} {v : Word} (hin : insideRam s.config a w)
    (h : memWrite s a w v = .ok t) : t = { s with ram := s.ram.writeWidth a.toNat v w } := by
  rw [memWrite_ram s v hin] at h
  cases h
  rfl

theorem ram_eq_of_memWrite_io {s t : State} {a : Word} {w : Width} {v : Word} (hc : s.config.wf = true)
    (hio : insideIo s.config a w) (h : memWrite s a w v = .ok t) : t.ram = s.ram := by
  rcases memWrite_cases s a w v with ⟨hram, -⟩ | ⟨-, r, u, -, hw, h'⟩ | ⟨-, h'⟩ | ⟨-, -, h'⟩
  · exact absurd hio (not_insideIo_of_insideRam hc hram)
  · rw [h'] at h
    cases h
    exact (ioWrite_only hw).ram
  · simp [h'] at h
  · simp [h'] at h

/-- A read inside RAM depends on RAM and the configuration only. -/
theorem memRead_ram_congr {s t : State} {a : Word} {w : Width} (hcfg : t.config = s.config) (hram : t.ram = s.ram)
    (h : insideRam s.config a w) : memRead t a w = memRead s a w := by
  rw [memRead_ram s h, memRead_ram t (hcfg ▸ h), hram]

/-- A read inside the I/O window does not depend on RAM. -/
theorem memRead_io_congr {s t : State} {a : Word} {w : Width} (hc : s.config.wf = true) (hcfg : t.config = s.config)
    (hp : SamePeripherals s t) (htimer : t.timer = s.timer) (h : insideIo s.config a w) :
    memRead t a w = memRead s a w := by
  rw [memRead_io s hc h, memRead_io t (hcfg ▸ hc) (hcfg ▸ h), hcfg]
  simp only [ioRead_congr hcfg hp htimer]

/-- Settles O37: a write inside RAM byte by byte, and each region's reads by the part of the state they depend on. -/
theorem laterReadsSeeStores : Obligations.LaterReadsSeeStores := by
  intro s t a w v h
  obtain ⟨hcfg, -⟩ := memWrite_only h
  refine ⟨fun hin b hb => ?_, fun hc hin b w' hb => ?_, fun hc hio b w' hb => ?_⟩
  · have hram : t.ram = s.ram.writeWidth a.toNat v w := by rw [eq_of_memWrite_ram hin h]
    rw [memRead_ram s hb, memRead_ram t (hcfg ▸ hb), hram, Memory.readWidth_byte_writeWidth]
    exact apply_ite Except.ok _ _ _
  · obtain rfl := eq_of_memWrite_ram hin h
    exact memRead_io_congr hc rfl ⟨rfl, rfl, rfl, rfl⟩ rfl hb
  · exact memRead_ram_congr hcfg (ram_eq_of_memWrite_io hc hio h) hb

/-! ### A stored word fetched (R83) -/

theorem decodeWord_encode_sw (rs2 rs1 : Reg) (imm : BitVec 12) :
    decodeWord (encode (.sw rs2 rs1 imm)) = .ok (.sw rs2 rs1 imm) := by
  simp [encode, decodeWord, decodeStore]

theorem fetch_of_ram_eq_writeWidth {u : State} {m : Memory} {v : Word} (hin : insideRam u.config u.pc .word)
    (hram : u.ram = m.writeWidth u.pc.toNat v .word) : fetch u = .ok v := by
  rw [fetch, memRead_ram u hin, hram, Memory.readWidth_writeWidth_word]

/-- Settles O38: the store is the bus write, and the fetch reads back the word just written. -/
theorem storeSeenByNextFetch : Obligations.StoreSeenByNextFetch := by
  intro rs2 rs1 imm s ea hea hin
  have hexec : exec (.sw rs2 rs1 imm) s =
      .next (State.complete { s with ram := s.ram.writeWidth ea.toNat (s.readReg rs2) .word } s.pcPlus4) := by
    subst hea
    exact storeTo_ok (memWrite_ram s (s.readReg rs2) hin)
  refine ⟨_, hexec, fun u hcfg hram hpc => ?_, fun hnext hm hf => ⟨?_, ?_⟩⟩
  · subst hpc
    exact fetch_of_ram_eq_writeWidth (hcfg ▸ hin) hram
  · exact (step_decode_ok hm hf (decodeWord_encode_sw rs2 rs1 imm)).trans hexec
  · subst hnext
    exact fetch_of_ram_eq_writeWidth hin rfl

end Sys2Proof.Machine

/-! Encoding (30_encoding.md): decode and encode are inverse, the decoder is the opcode table R105, and the words outside
the table fault. -/

namespace Sys2Proof.Machine

/-! ### Decoding an encoding (R100 to R105) -/

theorem decodeWord_encode {i : Instr} (h : i.wf = true) : decodeWord (encode i) = .ok i := by
  cases i with
  | lui | auipc => simp [encode, decodeWord]
  | jal rd offset => simp [encode, decodeWord, immJOf_encodeJ offset _ _ h]
  | jalr => simp [encode, decodeWord]
  | addi | slti | sltiu | xori | ori | andi | slli | srli | srai => simp [encode, decodeWord, decodeOpImm]
  | add | sub | sll | slt | sltu | xor | srl | sra | or | and | mul | mulh | mulhsu | mulhu | div | divu | rem | remu =>
    simp [encode, decodeWord, decodeOp]
  | beq _ _ offset | bne _ _ offset | blt _ _ offset | bge _ _ offset | bltu _ _ offset | bgeu _ _ offset =>
    simp [encode, decodeWord, decodeBranch, immBOf_encodeB offset _ _ _ _ h]
  | lb | lh | lw | lbu | lhu => simp [encode, decodeWord, decodeLoad]
  | sb | sh | sw => simp [encode, decodeWord, decodeStore]
  | ebreak => rfl

theorem wordOfBytes_extractLsb' (w : Word) :
    wordOfBytes (w.extractLsb' 0 8) (w.extractLsb' 8 8) (w.extractLsb' 16 8) (w.extractLsb' 24 8) = w := by
  apply BitVec.eq_of_getLsbD_eq
  intro i hi
  simp only [wordOfBytes, BitVec.getLsbD_append, BitVec.getLsbD_extractLsb']
  grind

theorem decode_bytesOfWord_append {w : Word} {i : Instr} (rest : List Byte) (h : decodeWord w = .ok i) :
    decode (bytesOfWord w ++ rest) = .ok (i, rest) := by
  simp only [bytesOfWord, List.cons_append, List.nil_append, decode, wordOfBytes_extractLsb', h]

/-- Settles O2: the four bytes make the word again, and the word of a well-formed instruction decodes to it. -/
theorem decodeOfEncodedBytes : Obligations.DecodeOfEncodedBytes := by
  intro i rest h
  exact decode_bytesOfWord_append rest (decodeWord_encode h)

/-! ### The rows of the opcode table (R105)

A format's constant fields are written as those of the row's own pattern, so that a row is sound as soon as its
constructor is encoded in its format and its pattern lies under its mask. -/

section
variable {e pattern : Word}

theorem matches_of_eq_encodeR {rs2 rs1 rd : Reg} (hp : pattern &&& 0xFE00707F#32 = pattern)
    (he : e = encodeR (funct7Of pattern) rs2 rs1 (funct3Of pattern) rd (opcodeOf pattern)) :
    e &&& 0xFE00707F#32 = pattern := by
  subst he
  exact (and_funct7_iff hp).2 ⟨opcodeOf_encodeR .., funct3Of_encodeR .., funct7Of_encodeR ..⟩

theorem matches_of_eq_encodeShift {shamt : BitVec 5} {rs1 rd : Reg} (hp : pattern &&& 0xFE00707F#32 = pattern)
    (he : e = encodeShift (funct7Of pattern) shamt rs1 (funct3Of pattern) rd (opcodeOf pattern)) :
    e &&& 0xFE00707F#32 = pattern := by
  subst he
  exact (and_funct7_iff hp).2 ⟨opcodeOf_encodeShift .., funct3Of_encodeShift .., funct7Of_encodeShift ..⟩

theorem matches_of_eq_encodeI {imm : BitVec 12} {rs1 rd : Reg} (hp : pattern &&& 0x707F#32 = pattern)
    (he : e = encodeI imm rs1 (funct3Of pattern) rd (opcodeOf pattern)) : e &&& 0x707F#32 = pattern := by
  subst he
  exact (and_funct3_iff hp).2 ⟨opcodeOf_encodeI .., funct3Of_encodeI ..⟩

theorem matches_of_eq_encodeS {imm : BitVec 12} {rs2 rs1 : Reg} (hp : pattern &&& 0x707F#32 = pattern)
    (he : e = encodeS imm rs2 rs1 (funct3Of pattern) (opcodeOf pattern)) : e &&& 0x707F#32 = pattern := by
  subst he
  exact (and_funct3_iff hp).2 ⟨opcodeOf_encodeS .., funct3Of_encodeS ..⟩

theorem matches_of_eq_encodeB {offset : BitVec 13} {rs2 rs1 : Reg} (hp : pattern &&& 0x707F#32 = pattern)
    (he : e = encodeB offset rs2 rs1 (funct3Of pattern) (opcodeOf pattern)) : e &&& 0x707F#32 = pattern := by
  subst he
  exact (and_funct3_iff hp).2 ⟨opcodeOf_encodeB .., funct3Of_encodeB ..⟩

theorem matches_of_eq_encodeU {imm : BitVec 20} {rd : Reg} (hp : pattern &&& 0x7F#32 = pattern)
    (he : e = encodeU imm rd (opcodeOf pattern)) : e &&& 0x7F#32 = pattern := by
  subst he
  exact (and_opcode_iff hp).2 (opcodeOf_encodeU ..)

theorem matches_of_eq_encodeJ {offset : BitVec 21} {rd : Reg} (hp : pattern &&& 0x7F#32 = pattern)
    (he : e = encodeJ offset rd (opcodeOf pattern)) : e &&& 0x7F#32 = pattern := by
  subst he
  exact (and_opcode_iff hp).2 (opcodeOf_encodeJ ..)

end

/-- The table lists its rows in the order of the constructors. -/
theorem exists_row_matches_encode (i : Instr) :
    ∃ r, opcodeTable[i.ctorIdx]? = some r ∧ r.matches (encode i) := by
  cases i with
  | lui | auipc => exact ⟨_, rfl, matches_of_eq_encodeU rfl rfl⟩
  | slli | srli | srai => exact ⟨_, rfl, matches_of_eq_encodeShift rfl rfl⟩
  | addi | slti | sltiu | xori | ori | andi | jalr | lb | lh | lw | lbu | lhu =>
    exact ⟨_, rfl, matches_of_eq_encodeI rfl rfl⟩
  | add | sub | sll | slt | sltu | xor | srl | sra | or | and | mul | mulh | mulhsu | mulhu | div | divu | rem | remu =>
    exact ⟨_, rfl, matches_of_eq_encodeR rfl rfl⟩
  | jal => exact ⟨_, rfl, matches_of_eq_encodeJ rfl rfl⟩
  | beq | bne | blt | bge | bltu | bgeu => exact ⟨_, rfl, matches_of_eq_encodeB rfl rfl⟩
  | sb | sh | sw => exact ⟨_, rfl, matches_of_eq_encodeS rfl rfl⟩
  | ebreak => exact ⟨_, rfl, rfl⟩

/-- The row's builder gives an instruction with an encoding, and gives a word back exactly when it matches. -/
structure Row.Sound (r : Row) : Prop where
  wf : ∀ w, (r.build w).wf = true
  encode_build : ∀ w, encode (r.build w) = w ↔ r.matches w

/-- A sound row is one of the decoder's (R117), since decode and encode are inverse. -/
theorem Row.Sound.isRow {r : Row} (h : r.Sound) : IsRow r.mask r.pattern r.build := by
  intro w
  refine ⟨fun hd => (h.encode_build w).1 (encode_of_decodeWord hd), fun hm => ?_⟩
  calc
    decodeWord w = decodeWord (encode (r.build w)) := by rw [(h.encode_build w).2 hm]
    _ = .ok (r.build w) := decodeWord_encode (h.wf w)

theorem evenOffset_fieldB (w : Word) : evenOffset (fieldB w) = true := by
  rw [← immBOf_eq, evenOffset, immBOf, BitVec.getLsbD_append]
  rfl

theorem evenOffset_fieldJ (w : Word) : evenOffset (fieldJ w) = true := by
  rw [← immJOf_eq, evenOffset, immJOf, BitVec.getLsbD_append]
  rfl

section
variable {pattern : Word}

theorem sound_buildR {c : Reg → Reg → Reg → Instr} (hp : pattern &&& 0xFE00707F#32 = pattern)
    (henc : ∀ rd rs1 rs2,
      encode (c rd rs1 rs2) = encodeR (funct7Of pattern) rs2 rs1 (funct3Of pattern) rd (opcodeOf pattern))
    (hwf : ∀ rd rs1 rs2, (c rd rs1 rs2).wf = true) : Row.Sound ⟨0xFE00707F#32, pattern, buildR c⟩ where
  wf w := hwf ..
  encode_build w := by
    refine ⟨fun h => matches_of_eq_encodeR hp (h.symm.trans (henc ..)), fun hm => ?_⟩
    obtain ⟨hop, h3, h7⟩ := (and_funct7_iff hp).1 hm
    show encode (c _ _ _) = w
    rw [henc, ← rdOf_eq, ← rs1Of_eq, ← rs2Of_eq, encodeR_fields h7 h3 hop]

theorem sound_buildShift {c : Reg → Reg → BitVec 5 → Instr} (hp : pattern &&& 0xFE00707F#32 = pattern)
    (henc : ∀ rd rs1 shamt,
      encode (c rd rs1 shamt) = encodeShift (funct7Of pattern) shamt rs1 (funct3Of pattern) rd (opcodeOf pattern))
    (hwf : ∀ rd rs1 shamt, (c rd rs1 shamt).wf = true) : Row.Sound ⟨0xFE00707F#32, pattern, buildShift c⟩ where
  wf w := hwf ..
  encode_build w := by
    refine ⟨fun h => matches_of_eq_encodeShift hp (h.symm.trans (henc ..)), fun hm => ?_⟩
    obtain ⟨hop, h3, h7⟩ := (and_funct7_iff hp).1 hm
    show encode (c _ _ _) = w
    rw [henc, ← rdOf_eq, ← rs1Of_eq, ← shamtOf_eq, encodeShift_fields h7 h3 hop]

theorem sound_buildI {c : Reg → Reg → BitVec 12 → Instr} (hp : pattern &&& 0x707F#32 = pattern)
    (henc : ∀ rd rs1 imm, encode (c rd rs1 imm) = encodeI imm rs1 (funct3Of pattern) rd (opcodeOf pattern))
    (hwf : ∀ rd rs1 imm, (c rd rs1 imm).wf = true) : Row.Sound ⟨0x707F#32, pattern, buildI c⟩ where
  wf w := hwf ..
  encode_build w := by
    refine ⟨fun h => matches_of_eq_encodeI hp (h.symm.trans (henc ..)), fun hm => ?_⟩
    obtain ⟨hop, h3⟩ := (and_funct3_iff hp).1 hm
    show encode (c _ _ _) = w
    rw [henc, ← rdOf_eq, ← rs1Of_eq, ← immIOf_eq, encodeI_fields h3 hop]

theorem sound_buildS {c : Reg → Reg → BitVec 12 → Instr} (hp : pattern &&& 0x707F#32 = pattern)
    (henc : ∀ rs2 rs1 imm, encode (c rs2 rs1 imm) = encodeS imm rs2 rs1 (funct3Of pattern) (opcodeOf pattern))
    (hwf : ∀ rs2 rs1 imm, (c rs2 rs1 imm).wf = true) : Row.Sound ⟨0x707F#32, pattern, buildS c⟩ where
  wf w := hwf ..
  encode_build w := by
    refine ⟨fun h => matches_of_eq_encodeS hp (h.symm.trans (henc ..)), fun hm => ?_⟩
    obtain ⟨hop, h3⟩ := (and_funct3_iff hp).1 hm
    show encode (c _ _ _) = w
    rw [henc, ← rs2Of_eq, ← rs1Of_eq, ← immSOf_eq, encodeS_fields h3 hop]

theorem sound_buildB {c : Reg → Reg → BitVec 13 → Instr} (hp : pattern &&& 0x707F#32 = pattern)
    (henc : ∀ rs1 rs2 offset, encode (c rs1 rs2 offset) = encodeB offset rs2 rs1 (funct3Of pattern) (opcodeOf pattern))
    (hwf : ∀ rs1 rs2 offset, (c rs1 rs2 offset).wf = evenOffset offset) :
    Row.Sound ⟨0x707F#32, pattern, buildB c⟩ where
  wf w := (hwf ..).trans (evenOffset_fieldB w)
  encode_build w := by
    refine ⟨fun h => matches_of_eq_encodeB hp (h.symm.trans (henc ..)), fun hm => ?_⟩
    obtain ⟨hop, h3⟩ := (and_funct3_iff hp).1 hm
    show encode (c _ _ _) = w
    rw [henc, ← rs1Of_eq, ← rs2Of_eq, ← immBOf_eq, encodeB_fields h3 hop]

theorem sound_buildU {c : Reg → BitVec 20 → Instr} (hp : pattern &&& 0x7F#32 = pattern)
    (henc : ∀ rd imm, encode (c rd imm) = encodeU imm rd (opcodeOf pattern))
    (hwf : ∀ rd imm, (c rd imm).wf = true) : Row.Sound ⟨0x7F#32, pattern, buildU c⟩ where
  wf w := hwf ..
  encode_build w := by
    refine ⟨fun h => matches_of_eq_encodeU hp (h.symm.trans (henc ..)), fun hm => ?_⟩
    show encode (c _ _) = w
    rw [henc, ← rdOf_eq, ← immUOf_eq, encodeU_fields ((and_opcode_iff hp).1 hm)]

theorem sound_buildJ {c : Reg → BitVec 21 → Instr} (hp : pattern &&& 0x7F#32 = pattern)
    (henc : ∀ rd offset, encode (c rd offset) = encodeJ offset rd (opcodeOf pattern))
    (hwf : ∀ rd offset, (c rd offset).wf = evenOffset offset) : Row.Sound ⟨0x7F#32, pattern, buildJ c⟩ where
  wf w := (hwf ..).trans (evenOffset_fieldJ w)
  encode_build w := by
    refine ⟨fun h => matches_of_eq_encodeJ hp (h.symm.trans (henc ..)), fun hm => ?_⟩
    show encode (c _ _) = w
    rw [henc, ← rdOf_eq, ← immJOf_eq, encodeJ_fields ((and_opcode_iff hp).1 hm)]

end

theorem sound_ebreak : Row.Sound ⟨0xFFFFFFFF#32, 0x00100073#32, fun _ => .ebreak⟩ where
  wf _ := rfl
  encode_build w := by
    show 0x00100073#32 = w ↔ w &&& BitVec.allOnes 32 = 0x00100073#32
    rw [BitVec.and_allOnes, eq_comm]

/-- Every row by its format (R102). -/
theorem opcodeTable_sound : ∀ r ∈ opcodeTable, r.Sound := by
  simp only [opcodeTable, upperRows, opImmRows, opRows, mulDivRows, controlRows, memoryRows, systemRows,
    List.cons_append, List.nil_append, List.forall_mem_cons]
  refine ⟨?lui, ?auipc, ?addi, ?slti, ?sltiu, ?xori, ?ori, ?andi, ?slli, ?srli, ?srai,
    ?add, ?sub, ?sll, ?slt, ?sltu, ?xor, ?srl, ?sra, ?or, ?and, ?mul, ?mulh, ?mulhsu, ?mulhu, ?div, ?divu, ?rem, ?remu,
    ?jal, ?jalr, ?beq, ?bne, ?blt, ?bge, ?bltu, ?bgeu, ?lb, ?lh, ?lw, ?lbu, ?lhu, ?sb, ?sh, ?sw,
    sound_ebreak, List.forall_mem_nil _⟩
  case lui | auipc => exact sound_buildU rfl (fun _ _ => rfl) (fun _ _ => rfl)
  case jal => exact sound_buildJ rfl (fun _ _ => rfl) (fun _ _ => rfl)
  case slli | srli | srai => exact sound_buildShift rfl (fun _ _ _ => rfl) (fun _ _ _ => rfl)
  case addi | slti | sltiu | xori | ori | andi | jalr | lb | lh | lw | lbu | lhu =>
    exact sound_buildI rfl (fun _ _ _ => rfl) (fun _ _ _ => rfl)
  case beq | bne | blt | bge | bltu | bgeu => exact sound_buildB rfl (fun _ _ _ => rfl) (fun _ _ _ => rfl)
  case sb | sh | sw => exact sound_buildS rfl (fun _ _ _ => rfl) (fun _ _ _ => rfl)
  all_goals exact sound_buildR rfl (fun _ _ _ => rfl) (fun _ _ _ => rfl)

theorem isRow_of_mem {r : Row} (hr : r ∈ opcodeTable) : IsRow r.mask r.pattern r.build :=
  (opcodeTable_sound r hr).isRow

/-- A decoded word matches the row of its instruction, and the row's builder gives the instruction. -/
theorem exists_row_of_decodeWord {w : Word} {i : Instr} (h : decodeWord w = .ok i) :
    ∃ r ∈ opcodeTable, r.matches w ∧ i = r.build w := by
  obtain ⟨r, hget, hm⟩ := exists_row_matches_encode i
  rw [encode_of_decodeWord h] at hm
  have hr := List.mem_of_getElem? hget
  have hd := (isRow_of_mem hr w).2 hm
  exact ⟨r, hr, hm, Except.ok.inj (h.symm.trans hd)⟩

theorem unrecognized_of_no_row {w : Word} (h : ∀ r ∈ opcodeTable, ¬r.matches w) : Unrecognized w := by
  cases hd : decodeWord w with
  | error e => exact ⟨e, hd⟩
  | ok i =>
    obtain ⟨r, hr, hm, -⟩ := exists_row_of_decodeWord hd
    exact absurd hm (h r hr)

/-- Two patterns that differ under both masks have no word in common. -/
theorem not_matches_both {r r' : Row} (h : r.pattern &&& r'.mask ≠ r'.pattern &&& r.mask) (w : Word) :
    ¬(r.matches w ∧ r'.matches w) := by
  rintro ⟨hm, hm'⟩
  refine h ?_
  rw [← hm, ← hm', BitVec.and_assoc, BitVec.and_assoc, BitVec.and_comm r.mask]

theorem opcodeTable_pairwise :
    opcodeTable.Pairwise (fun r r' => r.pattern &&& r'.mask ≠ r'.pattern &&& r.mask) := by decide

/-- Settles O1: each row is one of the decoder's, each instruction has its row, and no two patterns are compatible. -/
theorem decodeIsTheOpcodeTable : Obligations.DecodeIsTheOpcodeTable := by
  refine ⟨rfl, fun r hr w => (isRow_of_mem hr w).2, fun w i => exists_row_of_decodeWord,
    opcodeTable_pairwise.imp not_matches_both, fun w => unrecognized_of_no_row, ?_⟩
  intro s w hm hf r hr hmatch
  exact step_decode_ok hm hf ((isRow_of_mem hr w).2 hmatch)

/-- Settles O3: the instruction is the one its row builds. -/
theorem decodedWordsReencode : Obligations.DecodedWordsReencode := by
  intro w i h
  obtain ⟨r, hr, -, rfl⟩ := exists_row_of_decodeWord h
  exact ⟨(opcodeTable_sound r hr).wf w, encode_of_decodeWord h⟩

/-! ### Words outside the table (R118, R119) -/

/-- The row's mask has all of bits `hi:lo`. -/
abbrev Row.Fixes (r : Row) (hi lo : Nat) : Prop := bits r.mask hi lo = 2 ^ (hi - lo + 1) - 1

theorem bits_and (v w : Word) (hi lo : Nat) : bits (v &&& w) hi lo = bits v hi lo &&& bits w hi lo := by
  simp only [bits, BitVec.toNat_and, ← Nat.shiftRight_eq_div_pow, Nat.shiftRight_and_distrib, Nat.and_mod_two_pow]

theorem bits_31_0 (w : Word) : bits w 31 0 = w.toNat := by
  rw [bits, pow_zero, Nat.div_one]
  exact Nat.mod_eq_of_lt w.isLt

section
variable {r : Row} {w : Word} {op hi lo : Nat}

/-- A word that matches a row has the pattern's value in every field the mask has whole. -/
theorem Row.Fixes.bits_eq (hf : r.Fixes hi lo) (h : r.matches w) : bits w hi lo = bits r.pattern hi lo := by
  rw [← h, bits_and, hf, Nat.and_two_pow_sub_one_eq_mod, Nat.mod_eq_of_lt (bits_lt w hi lo)]

theorem opcode_eq_of_matches (hr : r ∈ opcodeTable) (h : r.matches w) : bits w 6 0 = bits r.pattern 6 0 :=
  Row.Fixes.bits_eq ((by decide : ∀ r ∈ opcodeTable, r.Fixes 6 0) r hr) h

/-- A field that every row fixes, with a value no row has. -/
theorem no_row_of_field (legal : Nat → Prop)
    (htable : ∀ r ∈ opcodeTable, r.Fixes hi lo ∧ legal (bits r.pattern hi lo))
    (hbad : ¬legal (bits w hi lo)) : ∀ r ∈ opcodeTable, ¬r.matches w := by
  intro r hr hm
  obtain ⟨hf, hl⟩ := htable r hr
  exact hbad (hf.bits_eq hm ▸ hl)

/-- A field that every row of the word's major opcode fixes, with a value none of them has. -/
theorem no_row_of_opcode_field (legal : Nat → Prop)
    (htable : ∀ r ∈ opcodeTable, bits r.pattern 6 0 = op → r.Fixes hi lo ∧ legal (bits r.pattern hi lo))
    (hop : bits w 6 0 = op) (hbad : ¬legal (bits w hi lo)) : ∀ r ∈ opcodeTable, ¬r.matches w := by
  intro r hr hm
  obtain ⟨hf, hl⟩ := htable r hr ((opcode_eq_of_matches hr hm).symm.trans hop)
  exact hbad (hf.bits_eq hm ▸ hl)

/-- A funct7 that no row of the word's major opcode has with the word's funct3, where the rows of that funct3 fix it. -/
theorem no_row_of_funct7 (guard : Nat → Prop) (legal : Nat → Nat → Prop)
    (htable : ∀ r ∈ opcodeTable, bits r.pattern 6 0 = op → r.Fixes 14 12 ∧
      (guard (bits r.pattern 14 12) → r.Fixes 31 25 ∧ legal (bits r.pattern 14 12) (bits r.pattern 31 25)))
    (hop : bits w 6 0 = op) (hg : guard (bits w 14 12)) (hbad : ¬legal (bits w 14 12) (bits w 31 25)) :
    ∀ r ∈ opcodeTable, ¬r.matches w := by
  intro r hr hm
  obtain ⟨h3, h7⟩ := htable r hr ((opcode_eq_of_matches hr hm).symm.trans hop)
  rw [h3.bits_eq hm] at hg hbad
  obtain ⟨hf, hl⟩ := h7 hg
  exact hbad (hf.bits_eq hm ▸ hl)

end

theorem step_of_no_row {s : State} {w : Word} (hm : s.mode = .running) (hf : fetch s = .ok w)
    (h : ∀ r ∈ opcodeTable, ¬r.matches w) : step s = .next (afterFault s .decode none (some w)) := by
  obtain ⟨_, hd⟩ := unrecognized_of_no_row h
  exact step_decode_error hm hf hd

theorem step_afterFault (s : State) (kind : FaultKind) (addr word : Option Word) :
    step (afterFault s kind addr word) = .next (afterFault s kind addr word) :=
  step_not_running Mode.noConfusion

/-- Settles O5: a word no row matches is unrecognized, and each class has a field value that no row of its major opcode
has. -/
theorem unrecognizedWordsFault : Obligations.UnrecognizedWordsFault := by
  refine ⟨fun s w hm hf h => ⟨step_of_no_row hm hf h, step_afterFault ..⟩, ?lowBits, ?majorOpcode, ?system, ?jalr, ?branch,
    ?load, ?store, ?op, ?slli, ?srli⟩
  case lowBits => exact fun w => no_row_of_field (· = 0b11) (by decide)
  case majorOpcode =>
    exact fun w => no_row_of_field (· ∈ [0x37, 0x17, 0x6F, 0x67, 0x63, 0x03, 0x23, 0x13, 0x33, 0x73]) (by decide)
  case system =>
    intro w hop hw
    refine no_row_of_opcode_field (hi := 31) (lo := 0) (· = 0x00100073) (by decide) hop fun h => hw ?_
    exact BitVec.eq_of_toNat_eq ((bits_31_0 w).symm.trans h)
  case jalr => exact fun w => no_row_of_opcode_field (· = 0) (by decide)
  case branch => exact fun w hop h3 => no_row_of_opcode_field (· ∉ [2, 3]) (by decide) hop (not_not_intro h3)
  case load => exact fun w hop h3 => no_row_of_opcode_field (· ∉ [3, 6, 7]) (by decide) hop (not_not_intro h3)
  case store => exact fun w hop h3 => no_row_of_opcode_field (· < 3) (by decide) hop (Nat.not_lt.2 h3)
  case op =>
    exact fun w hop => no_row_of_funct7 (fun _ => True) (fun f3 f7 => f7 = 0 ∨ f7 = 1 ∨ f7 = 0b0100000 ∧ f3 ∈ [0, 5])
      (by decide) hop trivial
  case slli => exact fun w => no_row_of_funct7 (· = 1) (fun _ f7 => f7 = 0) (by decide)
  case srli => exact fun w => no_row_of_funct7 (· = 5) (fun _ f7 => f7 ∈ [0, 0b0100000]) (by decide)

/-! ### Sample words -/

/-- Settles O4: the decoder evaluated on each word. -/
theorem sampleWordsDecode : Obligations.SampleWordsDecode := by
  unfold Obligations.SampleWordsDecode
  decide

end Sys2Proof.Machine

/-! Integer arithmetic (40_integer_arithmetic.md): the value each instruction writes, in plain arithmetic, and the
rule it makes with the instruction's row. -/

namespace Sys2Proof.Machine

/-! ### A rule from its row, its meaning and the value it writes

`g` is the value as the meaning computes it, `f` the value as the rule says it. The table lists its rows in the order
of the constructors, so `ctorIdx` finds an instruction's row. -/

section
variable {mask pattern : Word}

theorem isRow_of_getElem? {n : Nat} {build : Word → Instr} (h : opcodeTable[n]? = some ⟨mask, pattern, build⟩) :
    IsRow mask pattern build :=
  isRow_of_mem (List.mem_of_getElem? h)

theorem completesWriting_of_writeAndAdvance {i : Instr} {s : State} {rd : Reg} {u v : Word} (hval : u = v)
    (h : exec i s = writeAndAdvance rd u s) : CompletesWriting i s rd v (s.pc + 4#32) :=
  hval ▸ completesWriting_of h

theorem ruleR_of {c : Reg → Reg → Reg → Instr} {f g : Word → Word → Word}
    (hrow : opcodeTable[(c 0 0 0).ctorIdx]? = some ⟨mask, pattern, buildR c⟩) (hval : ∀ a b, g a b = f a b)
    (hexec : ∀ rd rs1 rs2 s, exec (c rd rs1 rs2) s = writeAndAdvance rd (g (s.readReg rs1) (s.readReg rs2)) s) :
    RuleR mask pattern c f :=
  ⟨isRow_of_getElem? hrow, fun _ _ _ _ => completesWriting_of_writeAndAdvance (hval ..) (hexec ..)⟩

theorem ruleI_of {c : Reg → Reg → BitVec 12 → Instr} {f : Word → Int → Word} {g : Word → BitVec 12 → Word}
    (hrow : opcodeTable[(c 0 0 0).ctorIdx]? = some ⟨mask, pattern, buildI c⟩)
    (hval : ∀ a imm, g a imm = f a imm.toInt)
    (hexec : ∀ rd rs1 imm s, exec (c rd rs1 imm) s = writeAndAdvance rd (g (s.readReg rs1) imm) s) :
    RuleI mask pattern c f :=
  ⟨isRow_of_getElem? hrow, fun _ _ _ _ => completesWriting_of_writeAndAdvance (hval ..) (hexec ..)⟩

theorem ruleShift_of {c : Reg → Reg → BitVec 5 → Instr} {f g : Word → Nat → Word}
    (hrow : opcodeTable[(c 0 0 0).ctorIdx]? = some ⟨mask, pattern, buildShift c⟩) (hval : ∀ a n, g a n = f a n)
    (hexec : ∀ rd rs1 shamt s, exec (c rd rs1 shamt) s = writeAndAdvance rd (g (s.readReg rs1) shamt.toNat) s) :
    RuleShift mask pattern c f :=
  ⟨isRow_of_getElem? hrow, fun _ _ _ _ => completesWriting_of_writeAndAdvance (hval ..) (hexec ..)⟩

end

/-! ### Operands -/

theorem eq_ofNat_of_toNat_eq {v : Word} {n : Nat} (h : v.toNat = n) : v = BitVec.ofNat 32 n := by
  rw [← h, BitVec.ofNat_toNat, BitVec.setWidth_eq]

theorem sext_eq_ofInt {n : Nat} (v : BitVec n) : sext v = BitVec.ofInt 32 v.toInt := rfl

theorem toInt_sext (imm : BitVec 12) : (sext imm).toInt = imm.toInt := BitVec.toInt_signExtend_of_le (by decide)

/-- A negative immediate, sign-extended and read as unsigned, is its two's complement (R144). -/
theorem toNat_sext (imm : BitVec 12) :
    ((sext imm).toNat : Int) = if imm.toInt < 0 then 2 ^ 32 + imm.toInt else imm.toInt := by
  rw [← toInt_sext, BitVec.toInt_eq_toNat_cond]
  split <;> split <;> omega

theorem upperImm_eq_ofNat (imm : BitVec 20) : upperImm imm = BitVec.ofNat 32 (imm.toNat * 2 ^ 12) := by
  apply eq_ofNat_of_toNat_eq
  rw [upperImm, BitVec.toNat_append, BitVec.toNat_ofNat, Nat.zero_mod, Nat.or_zero, Nat.shiftLeft_eq]

theorem shiftAmount_eq_mod (v : Word) : shiftAmount v = v.toNat % 32 := by
  rw [shiftAmount, BitVec.extractLsb'_toNat, Nat.shiftRight_zero]

/-! ### Results -/

theorem word_add_upperImm (pc : Word) (imm : BitVec 20) :
    pc + upperImm imm = BitVec.ofNat 32 (pc.toNat + imm.toNat * 2 ^ 12) := by
  rw [upperImm_eq_ofNat, BitVec.ofNat_add, BitVec.ofNat_toNat, BitVec.setWidth_eq]

theorem word_add_sext (a : Word) (imm : BitVec 12) : a + sext imm = BitVec.ofInt 32 (a.toInt + imm.toInt) := by
  rw [sext_eq_ofInt, BitVec.ofInt_add, BitVec.ofInt_toInt]

theorem word_add_eq_ofNat (a b : Word) : a + b = BitVec.ofNat 32 (a.toNat + b.toNat) := rfl

theorem word_sub_eq_ofInt (a b : Word) : a - b = BitVec.ofInt 32 (a.toInt - b.toInt) := by
  rw [Int.sub_eq_add_neg, BitVec.ofInt_add, BitVec.ofInt_neg, BitVec.ofInt_toInt, BitVec.ofInt_toInt,
    BitVec.sub_eq_add_neg]

theorem flagWord_lessSigned (a b : Word) : flagWord (lessSigned a b) = if a.toInt < b.toInt then 1#32 else 0#32 := by
  simp [flagWord, lessSigned]

theorem flagWord_lessUnsigned (a b : Word) :
    flagWord (lessUnsigned a b) = if a.toNat < b.toNat then 1#32 else 0#32 := by
  simp [flagWord, lessUnsigned]

theorem flagWord_lessSigned_sext (a : Word) (imm : BitVec 12) :
    flagWord (lessSigned a (sext imm)) = if a.toInt < imm.toInt then 1#32 else 0#32 := by
  rw [flagWord_lessSigned, toInt_sext]

theorem flagWord_lessUnsigned_sext (a : Word) (imm : BitVec 12) :
    flagWord (lessUnsigned a (sext imm)) =
      if (a.toNat : Int) < (if imm.toInt < 0 then 2 ^ 32 + imm.toInt else imm.toInt) then 1#32 else 0#32 := by
  simp only [flagWord_lessUnsigned, ← toNat_sext, Int.ofNat_lt]

theorem word_xor_eq_ofNat (a b : Word) : a ^^^ b = BitVec.ofNat 32 (a.toNat ^^^ b.toNat) :=
  eq_ofNat_of_toNat_eq (BitVec.toNat_xor a b)

theorem word_or_eq_ofNat (a b : Word) : a ||| b = BitVec.ofNat 32 (a.toNat ||| b.toNat) :=
  eq_ofNat_of_toNat_eq (BitVec.toNat_or a b)

theorem word_and_eq_ofNat (a b : Word) : a &&& b = BitVec.ofNat 32 (a.toNat &&& b.toNat) :=
  eq_ofNat_of_toNat_eq (BitVec.toNat_and a b)

theorem word_shiftLeft_eq_ofNat (a : Word) (n : Nat) : a <<< n = BitVec.ofNat 32 (a.toNat * 2 ^ n) := by
  apply BitVec.eq_of_toNat_eq
  rw [BitVec.toNat_shiftLeft, Nat.shiftLeft_eq, BitVec.toNat_ofNat]

theorem word_ushiftRight_eq_ofNat (a : Word) (n : Nat) : a >>> n = BitVec.ofNat 32 (a.toNat / 2 ^ n) := by
  apply eq_ofNat_of_toNat_eq
  rw [BitVec.toNat_ushiftRight, Nat.shiftRight_eq_div_pow]

/-- The arithmetic shift rounds toward minus infinity. -/
theorem word_sshiftRight_eq_ofInt (a : Word) (n : Nat) : a.sshiftRight n = BitVec.ofInt 32 (a.toInt / 2 ^ n) := by
  rw [BitVec.sshiftRight, Int.shiftRight_eq_div_pow, Nat.cast_pow, Nat.cast_ofNat]

/-! ### The rules -/

/-- Settles O21: the upper immediate as a multiple of 2^12. -/
theorem upperImmediateResults : Obligations.UpperImmediateResults := by
  refine ⟨⟨?luiRow, ?lui⟩, ⟨?auipcRow, ?auipc⟩⟩
  case luiRow => exact isRow_of_getElem? (n := (Instr.lui 0 0).ctorIdx) rfl
  case lui => exact fun _ imm _ => completesWriting_of_writeAndAdvance (upperImm_eq_ofNat imm) rfl
  case auipcRow => exact isRow_of_getElem? (n := (Instr.auipc 0 0).ctorIdx) rfl
  case auipc => exact fun _ imm s => completesWriting_of_writeAndAdvance (word_add_upperImm s.pc imm) rfl

/-- Settles O22: addition and subtraction modulo 2^32. -/
theorem addSubtractResults : Obligations.AddSubtractResults := by
  refine ⟨?addi, ?add, ?sub⟩
  case addi => exact ruleI_of rfl word_add_sext fun _ _ _ _ => rfl
  case add => exact ruleR_of rfl word_add_eq_ofNat fun _ _ _ _ => rfl
  case sub => exact ruleR_of rfl word_sub_eq_ofInt fun _ _ _ _ => rfl

/-- Settles O23: the comparisons on the operands' integer values, of the immediate by `toInt_sext` and `toNat_sext`. -/
theorem setLessThanResults : Obligations.SetLessThanResults := by
  refine ⟨?slti, ?sltiu, ?slt, ?sltu⟩
  case slti => exact ruleI_of rfl flagWord_lessSigned_sext fun _ _ _ _ => rfl
  case sltiu => exact ruleI_of rfl flagWord_lessUnsigned_sext fun _ _ _ _ => rfl
  case slt => exact ruleR_of rfl flagWord_lessSigned fun _ _ _ _ => rfl
  case sltu => exact ruleR_of rfl flagWord_lessUnsigned fun _ _ _ _ => rfl

/-- Settles O24: the immediate by `sext_eq_ofInt`, the register forms by the operations on the unsigned values. -/
theorem bitwiseResults : Obligations.BitwiseResults := by
  refine ⟨?xori, ?ori, ?andi, ?xor, ?or, ?and⟩
  case xori => exact ruleI_of rfl (fun a imm => congrArg (a ^^^ ·) (sext_eq_ofInt imm)) fun _ _ _ _ => rfl
  case ori => exact ruleI_of rfl (fun a imm => congrArg (a ||| ·) (sext_eq_ofInt imm)) fun _ _ _ _ => rfl
  case andi => exact ruleI_of rfl (fun a imm => congrArg (a &&& ·) (sext_eq_ofInt imm)) fun _ _ _ _ => rfl
  case xor => exact ruleR_of rfl word_xor_eq_ofNat fun _ _ _ _ => rfl
  case or => exact ruleR_of rfl word_or_eq_ofNat fun _ _ _ _ => rfl
  case and => exact ruleR_of rfl word_and_eq_ofNat fun _ _ _ _ => rfl

/-- Settles O25: shifts by powers of two, and the reserved words among those of O5 that no row matches. -/
theorem immediateShiftResults : Obligations.ImmediateShiftResults := by
  obtain ⟨-, -, -, -, -, -, -, -, -, hslli, hsrli⟩ := unrecognizedWordsFault
  refine ⟨?slli, ?srli, ?srai, ?reservedLeft, ?reservedRight⟩
  case slli => exact ruleShift_of rfl word_shiftLeft_eq_ofNat fun _ _ _ _ => rfl
  case srli => exact ruleShift_of rfl word_ushiftRight_eq_ofNat fun _ _ _ _ => rfl
  case srai => exact ruleShift_of rfl word_sshiftRight_eq_ofInt fun _ _ _ _ => rfl
  case reservedLeft => exact fun w hop h3 h7 => unrecognized_of_no_row (hslli w hop h3 h7)
  case reservedRight =>
    exact fun w hop h3 h0 h20 => unrecognized_of_no_row (hsrli w hop h3 (by simp [h0, h20]))

/-- Settles O26: the shifts of O25 by the low five bits of the second operand. -/
theorem registerShiftResults : Obligations.RegisterShiftResults := by
  unfold Obligations.RegisterShiftResults
  simp only [← shiftAmount_eq_mod]
  refine ⟨?sll, ?srl, ?sra⟩
  case sll => exact ruleR_of rfl (fun a b => word_shiftLeft_eq_ofNat a (shiftAmount b)) fun _ _ _ _ => rfl
  case srl => exact ruleR_of rfl (fun a b => word_ushiftRight_eq_ofNat a (shiftAmount b)) fun _ _ _ _ => rfl
  case sra => exact ruleR_of rfl (fun a b => word_sshiftRight_eq_ofInt a (shiftAmount b)) fun _ _ _ _ => rfl

end Sys2Proof.Machine

/-! Multiplication and division (41_multiply_divide.md): the value each instruction writes, and the identity of quotient
and remainder. -/

namespace Sys2Proof.Machine

/-! ### Products -/

theorem word_mul_eq_ofNat (a b : Word) : a * b = BitVec.ofNat 32 (a.toNat * b.toNat) := BitVec.mul_def

/-- Bits 63:32 of an integer are the upper half of its 64-bit two's complement (R189). -/
theorem highWord_eq_extractLsb' (p : Int) : highWord p = (BitVec.ofInt 64 p).extractLsb' 32 32 := by
  apply BitVec.eq_of_toNat_eq
  rw [highWord, BitVec.extractLsb'_toNat, Nat.shiftRight_eq_div_pow, BitVec.toNat_ofInt, BitVec.toNat_ofInt]
  omega

theorem highWord_unsigned_product (a b : Word) :
    highWord ((a.toNat : Int) * (b.toNat : Int)) = (BitVec.ofNat 64 (a.toNat * b.toNat)).extractLsb' 32 32 := by
  rw [highWord_eq_extractLsb', ← Int.natCast_mul, BitVec.ofInt_natCast]

/-- Settles O27: the upper words by `highWord_eq_extractLsb'`. -/
theorem multiplyResults : Obligations.MultiplyResults := by
  refine ⟨?mul, ?mulh, ?mulhsu, ?mulhu⟩
  case mul => exact ruleR_of rfl word_mul_eq_ofNat fun _ _ _ _ => rfl
  case mulh => exact ruleR_of rfl (fun _ _ => highWord_eq_extractLsb' _) fun _ _ _ _ => rfl
  case mulhsu => exact ruleR_of rfl (fun _ _ => highWord_eq_extractLsb' _) fun _ _ _ _ => rfl
  case mulhu => exact ruleR_of rfl highWord_unsigned_product fun _ _ _ _ => rfl

/-! ### Quotients and remainders -/

theorem word_eq_zero_iff (a : Word) : a = 0#32 ↔ a.toNat = 0 := BitVec.toNat_inj.symm

/-- The one pair of operands whose signed quotient is no 32-bit value (R184). -/
theorem overflow_case_iff (a b : Word) :
    a = 0x80000000#32 ∧ b = 0xFFFFFFFF#32 ↔ a.toInt = -2 ^ 31 ∧ b.toInt = -1 :=
  and_congr BitVec.toInt_inj.symm BitVec.toInt_inj.symm

/-- Settles O28: the model's tests of the corner cases, on words, are the rules' tests on integers. -/
theorem divideResults : Obligations.DivideResults := by
  unfold Obligations.DivideResults
  simp only [← word_eq_zero_iff, ← overflow_case_iff]
  refine ⟨?div, ?divu, ?rem, ?remu⟩
  case div => exact ruleR_of (g := divSigned) rfl (fun _ _ => rfl) fun _ _ _ _ => rfl
  case divu => exact ruleR_of (g := divUnsigned) rfl (fun _ _ => rfl) fun _ _ _ _ => rfl
  case rem => exact ruleR_of (g := remSigned) rfl (fun _ _ => rfl) fun _ _ _ _ => rfl
  case remu => exact ruleR_of (g := remUnsigned) rfl (fun _ _ => rfl) fun _ _ _ _ => rfl

/-! ### The identity of quotient and remainder (R189)

Each remainder is one formula for every divisor: the library's remainder by 0 is the dividend, and the overflow case
is the general one modulo 2^32. So is each quotient, where the divisor is not 0. -/

theorem divSigned_of_ne_zero {a b : Word} (hb : b ≠ 0#32) : divSigned a b = BitVec.ofInt 32 (a.toInt.tdiv b.toInt) := by
  rw [divSigned, if_neg hb]
  split
  case isTrue hover =>
    obtain ⟨rfl, rfl⟩ := hover
    decide
  case isFalse => rfl

theorem remSigned_eq_ofInt_tmod (a b : Word) : remSigned a b = BitVec.ofInt 32 (a.toInt.tmod b.toInt) := by
  rw [remSigned]
  split
  case isTrue hzero => rw [hzero, BitVec.toInt_zero, Int.tmod_zero, BitVec.ofInt_toInt]
  case isFalse =>
    split
    case isTrue hover =>
      obtain ⟨rfl, rfl⟩ := hover
      decide
    case isFalse => rw [lowWord, Int.tmod_def, Int.mul_comm b.toInt]

/-- No signed remainder is lost modulo 2^32. -/
theorem toInt_remSigned (a b : Word) : (remSigned a b).toInt = a.toInt.tmod b.toInt := by
  rw [remSigned_eq_ofInt_tmod, ← BitVec.toInt_srem, BitVec.ofInt_toInt]

theorem divSigned_mul_add_remSigned (a b : Word) : divSigned a b * b + remSigned a b = a := by
  by_cases hb : b = 0#32
  · rw [hb, BitVec.mul_zero, BitVec.zero_add, remSigned, if_pos rfl]
  · calc divSigned a b * b + remSigned a b
        = BitVec.ofInt 32 (a.toInt.tdiv b.toInt) * BitVec.ofInt 32 b.toInt + BitVec.ofInt 32 (a.toInt.tmod b.toInt) := by
          rw [divSigned_of_ne_zero hb, remSigned_eq_ofInt_tmod, BitVec.ofInt_toInt]
      _ = BitVec.ofInt 32 (a.toInt.tdiv b.toInt * b.toInt + a.toInt.tmod b.toInt) := by
          rw [BitVec.ofInt_add, BitVec.ofInt_mul]
      _ = a := by rw [Int.tdiv_mul_add_tmod, BitVec.ofInt_toInt]

theorem natAbs_remSigned_lt (a : Word) {b : Word} (hb : b ≠ 0#32) :
    (remSigned a b).toInt.natAbs < b.toInt.natAbs := by
  rw [toInt_remSigned, Int.natAbs_tmod]
  exact Nat.mod_lt _ (Int.natAbs_pos.mpr fun h => hb (BitVec.toInt_inj.mp (h.trans BitVec.toInt_zero.symm)))

theorem remSigned_zero_or_sign (a b : Word) :
    (remSigned a b).toInt = 0 ∨ (0 < (remSigned a b).toInt ↔ 0 < a.toInt) := by
  have hsign := Int.sign_tmod a.toInt b.toInt
  rw [toInt_remSigned]
  split at hsign
  case isTrue hdvd => exact .inl (Int.tmod_eq_zero_of_dvd hdvd)
  case isFalse => exact .inr (by rw [← Int.sign_eq_one_iff_pos, hsign, Int.sign_eq_one_iff_pos])

theorem remUnsigned_eq_ofNat_mod (a b : Word) : remUnsigned a b = BitVec.ofNat 32 (a.toNat % b.toNat) := by
  rw [remUnsigned]
  split
  case isTrue hzero => rw [hzero, BitVec.toNat_ofNat, Nat.zero_mod, Nat.mod_zero, BitVec.ofNat_toNat, BitVec.setWidth_eq]
  case isFalse => rfl

theorem divUnsigned_mul_add_remUnsigned (a b : Word) : divUnsigned a b * b + remUnsigned a b = a := by
  by_cases hb : b = 0#32
  · rw [hb, BitVec.mul_zero, BitVec.zero_add, remUnsigned, if_pos rfl]
  · calc divUnsigned a b * b + remUnsigned a b
        = BitVec.ofNat 32 (a.toNat / b.toNat) * BitVec.ofNat 32 b.toNat + BitVec.ofNat 32 (a.toNat % b.toNat) := by
          rw [divUnsigned, if_neg hb, remUnsigned_eq_ofNat_mod, ← eq_ofNat_of_toNat_eq (v := b) rfl]
      _ = BitVec.ofNat 32 (a.toNat / b.toNat * b.toNat + a.toNat % b.toNat) := by
          rw [BitVec.ofNat_add, BitVec.ofNat_mul]
      _ = a := by rw [Nat.div_add_mod', ← eq_ofNat_of_toNat_eq rfl]

theorem toNat_remUnsigned_lt (a : Word) {b : Word} (hb : b ≠ 0#32) : (remUnsigned a b).toNat < b.toNat := by
  rw [remUnsigned_eq_ofNat_mod, BitVec.toNat_ofNat]
  exact (Nat.mod_le _ _).trans_lt (Nat.mod_lt _ (Nat.pos_of_ne_zero (mt (word_eq_zero_iff b).mpr hb)))

theorem exists_next_readReg_eq {i : Instr} {s : State} {rd : Reg} (v : Word) (hrd : rd ≠ 0)
    (h : exec i s = writeAndAdvance rd v s) : ∃ t, exec i s = .next t ∧ t.readReg rd = v :=
  ⟨_, h, (readReg_writeReg_same s rd v).trans (if_neg hrd)⟩

/-- Settles O29: the identities and bounds on the values DIV, REM, DIVU and REMU write. -/
theorem quotientRemainderIdentity : Obligations.QuotientRemainderIdentity := by
  refine ⟨fun rd rs1 rs2 s hrd => ?signed, fun rd rs1 rs2 s hrd => ?unsigned⟩
  case signed =>
    obtain ⟨t, ht, hq⟩ := exists_next_readReg_eq (i := .div rd rs1 rs2) (s := s) (divSigned ..) hrd rfl
    obtain ⟨u, hu, hr⟩ := exists_next_readReg_eq (i := .rem rd rs1 rs2) (s := s) (remSigned ..) hrd rfl
    refine ⟨t, u, ht, hu, ?_⟩
    rw [hq, hr]
    exact ⟨(divSigned_mul_add_remSigned ..).symm, fun hb => ⟨natAbs_remSigned_lt _ hb, remSigned_zero_or_sign ..⟩⟩
  case unsigned =>
    obtain ⟨t, ht, hq⟩ := exists_next_readReg_eq (i := .divu rd rs1 rs2) (s := s) (divUnsigned ..) hrd rfl
    obtain ⟨u, hu, hr⟩ := exists_next_readReg_eq (i := .remu rd rs1 rs2) (s := s) (remUnsigned ..) hrd rfl
    refine ⟨t, u, ht, hu, ?_⟩
    rw [hq, hr]
    exact ⟨(divUnsigned_mul_add_remUnsigned ..).symm, toNat_remUnsigned_lt _⟩

end Sys2Proof.Machine

/-! Control transfer (42_control_transfer.md): the targets of jumps and branches and the conditions of branches, in plain
arithmetic, and the rule each makes with the instruction's row. -/

namespace Sys2Proof.Machine

/-! ### Targets -/

theorem word_add_sext_eq_ofInt_toNat {n : Nat} (a : Word) (offset : BitVec n) :
    a + sext offset = BitVec.ofInt 32 (a.toNat + offset.toInt) := by
  rw [sext_eq_ofInt, BitVec.ofInt_add, BitVec.ofInt_natCast, BitVec.ofNat_toNat, BitVec.setWidth_eq]

/-- The mask of R201 is a shift right and back by one bit. -/
theorem clearBit0_eq_ofNat (t : Word) : clearBit0 t = BitVec.ofNat 32 (t.toNat / 2 * 2) :=
  calc clearBit0 t
      = t >>> 1 <<< 1 := (BitVec.shiftLeft_ushiftRight (x := t) (n := 1)).symm
    _ = BitVec.ofNat 32 ((t >>> 1).toNat * 2 ^ 1) := word_shiftLeft_eq_ofNat _ _
    _ = BitVec.ofNat 32 (t.toNat / 2 * 2) := by rw [BitVec.toNat_ushiftRight, Nat.shiftRight_eq_div_pow, pow_one]

/-! ### Conditions -/

theorem word_bne_eq_decide (a b : Word) : (a != b) = decide (a ≠ b) := by
  rw [bne, beq_eq_decide, decide_not]

theorem not_lessSigned (a b : Word) : (!lessSigned a b) = decide (a.toInt ≥ b.toInt) := by
  rw [lessSigned, ← decide_not, decide_eq_decide, Int.not_lt]

theorem not_lessUnsigned (a b : Word) : (!lessUnsigned a b) = decide (a.toNat ≥ b.toNat) := by
  rw [lessUnsigned, ← decide_not, decide_eq_decide, Nat.not_lt]

/-! ### A rule from its row, its meaning and the target it takes -/

theorem completesWriting_of_linkAndJump {i : Instr} {s : State} {rd : Reg} {target next : Word}
    (htarget : target = next) (h : exec i s = linkAndJump rd target s) :
    CompletesWriting i s rd (s.pc + 4#32) next :=
  htarget ▸ completesWriting_of h

theorem completesJumping_of_branchIf {i : Instr} {s : State} {taken : Bool} {offset : BitVec 13}
    (h : exec i s = branchIf taken offset s) :
    CompletesJumping i s (if taken then BitVec.ofInt 32 (s.pc.toNat + offset.toInt) else s.pc + 4#32) :=
  word_add_sext_eq_ofInt_toNat s.pc offset ▸ completesJumping_of h

/-- `g` is the condition as the meaning computes it, `cond` the condition as the rule says it. -/
theorem ruleB_of {mask pattern : Word} {c : Reg → Reg → BitVec 13 → Instr} {cond g : Word → Word → Bool}
    (hrow : opcodeTable[(c 0 0 0).ctorIdx]? = some ⟨mask, pattern, buildB c⟩) (hcond : ∀ a b, g a b = cond a b)
    (hexec : ∀ rs1 rs2 offset s, exec (c rs1 rs2 offset) s = branchIf (g (s.readReg rs1) (s.readReg rs2)) offset s) :
    RuleB mask pattern c cond :=
  ⟨isRow_of_getElem? hrow, fun _ _ _ _ => hcond .. ▸ completesJumping_of_branchIf (hexec ..)⟩

/-! ### The rules -/

/-- Settles O30: the targets by `word_add_sext_eq_ofInt_toNat` and `clearBit0_eq_ofNat`, and the reserved words of the
JALR opcode among those of O5 that no row matches. -/
theorem jumpResults : Obligations.JumpResults := by
  obtain ⟨-, -, -, -, hjalr, -⟩ := unrecognizedWordsFault
  refine ⟨⟨?jalRow, ?jal⟩, ⟨?jalrRow, ?jalr⟩, ?reserved⟩
  case jalRow => exact isRow_of_getElem? (n := (Instr.jal 0 0).ctorIdx) rfl
  case jal => exact fun _ offset s => completesWriting_of_linkAndJump (word_add_sext_eq_ofInt_toNat s.pc offset) rfl
  case jalrRow => exact isRow_of_getElem? (n := (Instr.jalr 0 0 0).ctorIdx) rfl
  case jalr =>
    rintro rd rs1 imm s _ rfl
    rw [← word_add_sext_eq_ofInt_toNat]
    exact completesWriting_of_linkAndJump (clearBit0_eq_ofNat _) rfl
  case reserved => exact fun w hop h3 => unrecognized_of_no_row (hjalr w hop h3)

/-- Settles O31: each condition of the model is the rule's comparison, BNE, BGE and BGEU those negated. -/
theorem branchResults : Obligations.BranchResults := by
  refine ⟨?beq, ?bne, ?blt, ?bge, ?bltu, ?bgeu⟩
  case beq => exact ruleB_of rfl beq_eq_decide fun _ _ _ _ => rfl
  case bne => exact ruleB_of rfl word_bne_eq_decide fun _ _ _ _ => rfl
  case blt => exact ruleB_of (g := lessSigned) rfl (fun _ _ => rfl) fun _ _ _ _ => rfl
  case bge => exact ruleB_of rfl not_lessSigned fun _ _ _ _ => rfl
  case bltu => exact ruleB_of (g := lessUnsigned) rfl (fun _ _ => rfl) fun _ _ _ _ => rfl
  case bgeu => exact ruleB_of rfl not_lessUnsigned fun _ _ _ _ => rfl

end Sys2Proof.Machine

/-! Loads and stores (43_load_store.md): the rule each makes with the instruction's row, from what its one bus access
answers, and the fault of a refused access. -/

namespace Sys2Proof.Machine

/-! ### The value a load writes -/

theorem leValue_lt (m : Memory) (a n : Nat) : leValue m a n < 2 ^ (8 * n) := by
  induction n generalizing a with
  | zero => exact Nat.one_pos
  | succ n ih =>
    have hbyte := (m.read a).isLt
    have hrest := ih (a + 1)
    rw [leValue, Nat.mul_succ, Nat.pow_add]
    omega

/-- A narrow read is already zero-extended: only RAM answers one (R64, R68). -/
theorem toNat_lt_of_memRead {s : State} {a v : Word} {w : Width} (h : memRead s a w = .ok v) :
    v.toNat < 2 ^ (8 * w.bytes) := by
  rcases memRead_cases s a w with ⟨-, h'⟩ | ⟨-, r, hr, h'⟩ | ⟨-, -, h'⟩ | ⟨-, -, h'⟩ <;>
    rw [h'] at h <;> cases h
  · rw [Memory.toNat_readWidth]
    exact leValue_lt s.ram a.toNat w.bytes
  · obtain ⟨rfl, -⟩ := eq_addrOf_of_ioRegister hr
    exact (ioRead s r).isLt

/-- The low k bytes, read as two's complement, of a value that has no more. -/
theorem toInt_extractLsb'_low {k : Nat} {v : Word} (hk : 0 < k) (h : v.toNat < 2 ^ (8 * k)) :
    (v.extractLsb' 0 (8 * k)).toInt = signedValue k v.toNat := by
  have hsign : 2 * v.toNat < 2 ^ (8 * k) ↔ v.toNat < 2 ^ (8 * k - 1) := by
    rw [← mul_pow_sub_one (by omega) 2, Nat.mul_lt_mul_left Nat.two_pos]
  have hlow : (v.extractLsb' 0 (8 * k)).toNat = v.toNat := by
    rw [BitVec.extractLsb'_toNat, Nat.shiftRight_zero, Nat.mod_eq_of_lt h]
  rw [BitVec.toInt_eq_toNat_cond, hlow, signedValue]
  simp only [hsign, Nat.cast_pow, Nat.cast_ofNat]

theorem sextByte_eq_ofInt (v : Word) (h : v.toNat < 2 ^ 8) : sextByte v = BitVec.ofInt 32 (signedValue 1 v.toNat) :=
  congrArg (BitVec.ofInt 32) (toInt_extractLsb'_low Nat.one_pos h)

theorem sextHalf_eq_ofInt (v : Word) (h : v.toNat < 2 ^ 16) : sextHalf v = BitVec.ofInt 32 (signedValue 2 v.toNat) :=
  congrArg (BitVec.ofInt 32) (toInt_extractLsb'_low Nat.two_pos h)

theorem id_eq_ofNat (v : Word) : id v = BitVec.ofNat 32 v.toNat := eq_ofNat_of_toNat_eq rfl

/-! ### A rule from its row, its meaning and what the bus answers -/

section
variable {mask pattern : Word} {c : Reg → Reg → BitVec 12 → Instr} {w : Width}

theorem effectiveAddress_eq_ofInt (base : Word) (imm : BitVec 12) :
    effectiveAddress base imm = BitVec.ofInt 32 (base.toNat + imm.toInt) :=
  word_add_sext_eq_ofInt_toNat base imm

/-- `extend` is the extension as the meaning computes it, `value` the value as the rule says it. -/
theorem ruleLoad_of {extend : Word → Word} {value : Nat → Word}
    (hrow : opcodeTable[(c 0 0 0).ctorIdx]? = some ⟨mask, pattern, buildI c⟩)
    (hval : ∀ v : Word, v.toNat < 2 ^ (8 * w.bytes) → extend v = value v.toNat)
    (hexec : ∀ rd rs1 imm s, exec (c rd rs1 imm) s =
      loadFrom (c rd rs1 imm) rd (effectiveAddress (s.readReg rs1) imm) w extend s) :
    RuleLoad mask pattern c w value := by
  refine ⟨isRow_of_getElem? hrow, ?_⟩
  rintro rd rs1 imm s _ rfl
  rw [← effectiveAddress_eq_ofInt]
  have haccepted (v : Word) (h : memRead s (effectiveAddress (s.readReg rs1) imm) w = .ok v) :
      CompletesWriting (c rd rs1 imm) s rd (value v.toNat) (s.pc + 4#32) := by
    rw [← hval v (toNat_lt_of_memRead h)]
    exact completesWriting_of ((hexec ..).trans (loadFrom_ok h))
  refine ⟨fun hin => ?_, haccepted, fun e he => ?_⟩
  · obtain ⟨v, hread, hv⟩ := memRead_ram_leValue hin
    rw [← hv]
    exact haccepted v hread
  · rw [hexec, loadFrom_error he, executeFault_eq, memRead_error_addr he]

/-- The end of an accepted store is the bus write's state with the sequential pc and one tick. -/
theorem complete_of_memWrite {s t : State} {a v : Word} (h : memWrite s a w v = .ok t) (next : Word) :
    t.complete next = { t with pc := next, timer := ticked s } := by
  obtain ⟨hcfg, -, -, -, -, htimer, -⟩ := memWrite_only h
  rw [State.complete, ticked, hcfg, htimer]

theorem ruleStore_of (hrow : opcodeTable[(c 0 0 0).ctorIdx]? = some ⟨mask, pattern, buildS c⟩)
    (hexec : ∀ rs2 rs1 imm s, exec (c rs2 rs1 imm) s =
      storeTo (c rs2 rs1 imm) (effectiveAddress (s.readReg rs1) imm) w (s.readReg rs2) s) :
    RuleStore mask pattern c w := by
  refine ⟨isRow_of_getElem? hrow, ?_⟩
  rintro rs2 rs1 imm s _ rfl
  rw [← effectiveAddress_eq_ofInt]
  refine ⟨completesStoring_of (hexec ..), fun t ht => ?_, fun e he => ?_⟩
  · rw [hexec, storeTo_ok ht, complete_of_memWrite ht, State.pcPlus4]
  · rw [hexec, storeTo_error he, executeFault_eq, memWrite_error_addr he]

end

/-! ### The rules -/

/-- Settles O32: each load by its extension; a narrow value fits its width by `toNat_lt_of_memRead`. -/
theorem loadResults : Obligations.LoadResults := by
  refine ⟨?lb, ?lh, ?lw, ?lbu, ?lhu⟩
  case lb => exact ruleLoad_of rfl sextByte_eq_ofInt fun _ _ _ _ => rfl
  case lh => exact ruleLoad_of rfl sextHalf_eq_ofInt fun _ _ _ _ => rfl
  case lw => exact ruleLoad_of rfl (fun v _ => id_eq_ofNat v) fun _ _ _ _ => rfl
  case lbu => exact ruleLoad_of rfl (fun v _ => id_eq_ofNat v) fun _ _ _ _ => rfl
  case lhu => exact ruleLoad_of rfl (fun v _ => id_eq_ofNat v) fun _ _ _ _ => rfl

/-- Settles O33: each store is the bus write of its width. -/
theorem storeResults : Obligations.StoreResults := by
  refine ⟨?sb, ?sh, ?sw⟩
  case sb => exact ruleStore_of rfl fun _ _ _ _ => rfl
  case sh => exact ruleStore_of rfl fun _ _ _ _ => rfl
  case sw => exact ruleStore_of rfl fun _ _ _ _ => rfl

/-! ### The one access of a load or store (R229) -/

section
variable {s : State} {i : Instr} {ea : Word} {w : Width} {v : Option Word}

/-- Whatever the mode, a refused data access is the instruction's whole effect. -/
theorem exec_eq_executeFault {e : BusFault} (h : accessFault s i = some e) : exec i s = .next (s.executeFault e i) := by
  obtain ⟨t, hx, he⟩ := exec_effect i s
  cases he with
  | writes _ _ _ _ hf => cases h.symm.trans hf
  | stores _ _ _ _ _ _ hf => cases h.symm.trans hf
  | faults e' hf =>
    cases h.symm.trans hf
    exact hx
  | halts hi =>
    subst hi
    cases h

theorem memWrite_unimplemented {a x : Word} (hc : s.config.wf = true) (hio : insideIo s.config a w)
    (h : ¬(w = .word ∧ a.toNat % 4 = 0 ∧ isRegisterAddr s.config a)) :
    memWrite s a w x = .error ⟨.unimplementedPeripheral, a⟩ := by
  rw [memWrite_io s x hc hio, ioRegister_eq_none h]
  rfl

variable (hd : dataAccess s i = some (ea, w, v))
include hd

theorem not_assignsPc_of_dataAccess : ¬assignsPc s i := by
  cases i
  case lb | lh | lw | lbu | lhu | sb | sh | sw => exact id
  all_goals cases hd

/-- Of the effects an instruction can have, a load or store that is not refused has one of the two that complete. -/
theorem completed_of_accessFault_none (h : accessFault s i = none) :
    ∃ t, exec i s = .next t ∧ Completed s t (s.pc + 4#32) := by
  obtain ⟨t, hx, he⟩ := exec_effect i s
  refine ⟨t, hx, ?_⟩
  cases he with
  | writes rd x next _ _ hn =>
    rw [hn (not_assignsPc_of_dataAccess hd)]
    constructor <;> simp [ticked]
  | stores a w' x u _ hw =>
    obtain ⟨hcfg, -, -, hmode, hfault, -, hcycles⟩ := memWrite_only hw
    rw [complete_of_memWrite hw]
    exact ⟨rfl, rfl, hmode, hfault, hcycles, hcfg⟩
  | faults e hf => cases h.symm.trans hf
  | halts hi =>
    subst hi
    cases hd

/-- The fault of a load or store is its bus access's. -/
theorem bus_refuses_of_accessFault {e : BusFault} (h : accessFault s i = some e) :
    memRead s ea w = .error e ∨ ∃ x, memWrite s ea w x = .error e := by
  cases v with
  | none =>
    refine .inl ?_
    simp only [accessFault, hd] at h
    split at h <;> cases h
    assumption
  | some x =>
    refine .inr ⟨x, ?_⟩
    simp only [accessFault, hd] at h
    split at h <;> cases h
    assumption

theorem accessFault_addr_eq {e : BusFault} (h : accessFault s i = some e) : e.addr = ea := by
  rcases bus_refuses_of_accessFault hd h with he | ⟨x, he⟩
  · exact memRead_error_addr he
  · exact memWrite_error_addr he

theorem accessFault_insideRam (h : insideRam s.config ea w) : accessFault s i = none := by
  cases v with
  | none => simp only [accessFault, hd, memRead_ram s h]
  | some x => simp only [accessFault, hd, memWrite_ram s x h]

/-- A load or store whose every bus access is refused with `e` faults with `e`. -/
theorem accessFault_of_refused {e : BusFault} (hread : memRead s ea w = .error e)
    (hwrite : ∀ x, memWrite s ea w x = .error e) : accessFault s i = some e := by
  cases v with
  | none => simp only [accessFault, hd, hread]
  | some x => simp only [accessFault, hd, hwrite x]

theorem accessFault_insideIo {e : BusFault} (hc : s.config.wf = true) (hio : insideIo s.config ea w)
    (h : accessFault s i = some e) : e = ⟨.unimplementedPeripheral, ea⟩ := by
  rcases bus_refuses_of_accessFault hd h with he | ⟨x, he⟩
  · exact memRead_io_error hc hio he
  · exact memWrite_io_error hc hio he

end

/-- Settles O34: the effect by `exec_eq_executeFault` and `completed_of_accessFault_none`, the fault by region. -/
theorem loadStoreFaults : Obligations.LoadStoreFaults := by
  intro i s ea w v hd
  refine ⟨fun e he => ?refused, completed_of_accessFault_none hd, accessFault_insideRam hd, fun hram hio => ?outside,
    fun hc hio => ⟨fun hreg => ?noRegister, fun e => accessFault_insideIo hd hc hio⟩⟩
  case refused => rw [exec_eq_executeFault he, executeFault_eq, accessFault_addr_eq hd he]
  case outside =>
    exact accessFault_of_refused hd (memRead_outside s hram hio) fun x => memWrite_outside s x hram hio
  case noRegister =>
    exact accessFault_of_refused hd (memRead_unimplemented hc hio hreg) fun x => memWrite_unimplemented hc hio hreg

end Sys2Proof.Machine

/-! EBREAK (44_system.md) and the run that meets it (R347). -/

namespace Sys2Proof.Machine

section
variable {s t : State}

theorem runLoop_halted (h : s.mode = .halted) (n : Nat) : runLoop n s = .next (.halted, s) := by
  cases n <;> simp only [runLoop, h]

/-- One turn of the loop: a step in mode Running, counted. -/
theorem runLoop_succ (hm : s.mode = .running) (h : step s = .next t) (n : Nat) :
    runLoop (n + 1) s = runLoop n { t with cycles := t.cycles + 1 } := by
  simp only [runLoop, hm, h]

theorem step_ebreak (hm : s.mode = .running) (hf : fetch s = .ok 0x00100073#32) : step s = .next s.halt :=
  step_decode_ok hm hf (decodeWord_eq_ebreak_iff.2 rfl)

theorem run_halted (h : s.mode = .halted) (n : Nat) : run n s = .next (.halted, { s with cycles := 0 }) := by
  rw [run, runLoop_halted (s := { s with cycles := 0 }) h]

/-- A run that may still take a step takes the EBREAK and reports the halt, whatever is left of its cap. -/
theorem run_succ_ebreak (hm : s.mode = .running) (hf : fetch s = .ok 0x00100073#32) (n : Nat) :
    run (n + 1) s = .next (.halted, { s with mode := .halted, cycles := 0 }) := by
  have hstep : step { s with cycles := 0 } = .next { s with mode := .halted, cycles := 0 } :=
    step_ebreak (s := { s with cycles := 0 }) hm hf
  rw [run, runLoop_succ (s := { s with cycles := 0 }) hm hstep, runLoop_halted rfl]

end

/-- Settles O47: the word's row, the meaning, the step by `step_ebreak`, and the run by `run_succ_ebreak` and
`run_halted`. -/
theorem ebreakHalts : Obligations.EbreakHalts := by
  refine ⟨sound_ebreak.isRow, fun _ => rfl, fun s hm hf => ?fetched, fun s n hm => ?halted⟩
  case fetched => exact ⟨step_ebreak hm hf, run_succ_ebreak hm hf 0⟩
  case halted =>
    have hstays : s.mode ≠ .running := fun h => Mode.noConfusion (hm.symm.trans h)
    exact ⟨step_not_running hstays, run_halted hm n⟩

end Sys2Proof.Machine

/-! The Peripheral Bank (50_peripherals.md): which accesses reach a register, and what a read and a write of each
register does. -/

namespace Sys2Proof.Machine

/-! ### The accesses that reach a register (R252) -/

/-- Settles O40: the reads by the register at the address, the refusals because no register is reached. -/
theorem ioWindowMapsOnlyRegisters : Obligations.IoWindowMapsOnlyRegisters := by
  intro s a w hc hio
  refine ⟨?register, fun h => ⟨memRead_unimplemented hc hio h, fun v => memWrite_unimplemented hc hio h⟩⟩
  rintro ⟨rfl, halign, ha⟩
  exact memRead_isOk_of_isRegisterAddr hc ha ⟨halign, hio⟩

section
variable {s t : State} {r : IoReg} {v : Word} (hc : s.config.wf = true) (hr : r.exists s.config)
  (ha : Reachable s.config (addrOf s.config r))
include hc hr ha

theorem memWrite_register_accepted (h : ioWrite s r v = some t) :
    memWrite s (addrOf s.config r) .word v = .ok t := by
  rw [memWrite_register s v hc hr ha, h]

theorem memWrite_register_refused (h : ioWrite s r v = none) :
    memWrite s (addrOf s.config r) .word v = .error ⟨.unimplementedPeripheral, addrOf s.config r⟩ := by
  rw [memWrite_register s v hc hr ha, h]

end

/-! ### GPIO (R254 to R256) -/

theorem eq_pwmCode_iff {c : Config} (f : c.Facts) (code : BitVec 5) : code = c.pwmCode ↔ code.toNat = c.funcPwm := by
  rw [← BitVec.toNat_inj, f.toNat_pwmCode]

theorem legalFunc_iff {c : Config} (f : c.Facts) (code : BitVec 5) :
    legalFunc c code = true ↔ code.toNat ∈ [c.funcPwm, c.funcDio, c.funcNull] := by
  simp [legalFunc, ← BitVec.toNat_inj, f.toNat_pwmCode, f.toNat_dioCode, f.toNat_nullCode, or_assoc]

theorem extractLsb'_above_code_eq_zero_iff (v : Word) : v.extractLsb' 5 27 = 0#27 ↔ v.toNat < 32 := by
  rw [← BitVec.toNat_inj, BitVec.extractLsb'_toNat, Nat.shiftRight_eq_div_pow, BitVec.toNat_ofNat]
  omega

theorem toNat_extractLsb'_code {v : Word} (h : v.toNat < 32) : (v.extractLsb' 0 5).toNat = v.toNat := by
  rw [BitVec.extractLsb'_toNat, Nat.shiftRight_zero, Nat.mod_eq_of_lt h]

/-- The test of R255 on the whole word: every code has five bits, so a word that is a code has zeros above them. -/
theorem zero_above_and_legalFunc_iff {c : Config} (f : c.Facts) (v : Word) :
    v.extractLsb' 5 27 = 0#27 ∧ legalFunc c (v.extractLsb' 0 5) = true ↔
      v.toNat ∈ [c.funcPwm, c.funcDio, c.funcNull] := by
  have hcodes : ∀ n ∈ [c.funcPwm, c.funcDio, c.funcNull], n < 32 := by
    simpa using ⟨f.pwmCode, f.dioCode, f.nullCode⟩
  rw [extractLsb'_above_code_eq_zero_iff, legalFunc_iff f]
  constructor
  · rintro ⟨hlt, hmem⟩
    rwa [toNat_extractLsb'_code hlt] at hmem
  · intro hmem
    have hlt := hcodes v.toNat hmem
    exact ⟨hlt, by rwa [toNat_extractLsb'_code hlt]⟩

/-- A write of one pin's entry, seen pin by pin. -/
theorem pinFunc_set (s : State) {p : Nat} (hp : p < s.gpioFunc.length) (code : BitVec 5) (q : Nat) :
    State.pinFunc { s with gpioFunc := s.gpioFunc.set p code } q = if p = q then code else s.pinFunc q := by
  simp only [State.pinFunc, getD_set]
  by_cases hq : p = q <;> simp [hq]
  omega

/-- Settles O41: the write's own test is membership in the three codes, by `zero_above_and_legalFunc_iff`. -/
theorem gpioRegister : Obligations.GpioRegister := by
  intro s p hs hp hreach
  have hf := Config.facts hs.configOk
  have hlen : p < s.gpioFunc.length := hs.pins ▸ hp
  refine ⟨⟨_, memRead_register s hs.configOk (r := .gpioCtrl p) hp hreach, ?read⟩,
    fun hinv => (legalFunc_iff hf _).1 (hinv.pinsLegal p hp), fun v hv => ?accepted, fun v hv => ?refused⟩
  case read => exact BitVec.toNat_setWidth_of_le (by decide)
  case accepted =>
    have hlegal := (zero_above_and_legalFunc_iff hf v).2 hv
    have hwrite : ioWrite s (.gpioCtrl p) v = some _ := if_pos hlegal
    refine ⟨_, memWrite_register_accepted hs.configOk (r := .gpioCtrl p) hp hreach hwrite, ?_, fun q hq => ?_, rfl⟩
    · rw [pinFunc_set s hlen, if_pos rfl]
      exact toNat_extractLsb'_code ((extractLsb'_above_code_eq_zero_iff v).1 hlegal.1)
    · rw [pinFunc_set s hlen, if_neg hq.symm]
  case refused =>
    exact memWrite_register_refused hs.configOk (r := .gpioCtrl p) hp hreach
      (if_neg (mt (zero_above_and_legalFunc_iff hf v).1 hv))

/-! ### PWM levels (R264, R265) -/

theorem toNat_levels (b a : BitVec 16) : (b ++ a).toNat = b.toNat * 2 ^ 16 + a.toNat := by
  rw [BitVec.toNat_append, ← Nat.shiftLeft_add_eq_or_of_lt a.isLt, Nat.shiftLeft_eq]

theorem toNat_lowHalf (v : Word) : (v.extractLsb' 0 16).toNat = v.toNat % 2 ^ 16 := by
  rw [BitVec.extractLsb'_toNat, Nat.shiftRight_zero]

theorem toNat_highHalf (v : Word) : (v.extractLsb' 16 16).toNat = v.toNat / 2 ^ 16 := by
  rw [BitVec.extractLsb'_toNat, Nat.shiftRight_eq_div_pow]
  omega

/-- Settles O42: the write's own test is availability, by `pwmAvailable_iff`. -/
theorem pwmLevelRegister : Obligations.PwmLevelRegister := by
  intro s n hs hn hreach
  have hlenA : n < s.pwmLevelA.length := hs.levelsA ▸ hn
  have hlenB : n < s.pwmLevelB.length := hs.levelsB ▸ hn
  refine ⟨⟨_, memRead_register s hs.configOk (r := .pwmCc n) hn hreach, toNat_levels _ _⟩,
    fun v hv => ?accepted, fun v hv => ?refused⟩
  case accepted =>
    have hwrite : ioWrite s (.pwmCc n) v = some _ := if_pos ((pwmAvailable_iff s n).2 hv)
    refine ⟨_, memWrite_register_accepted hs.configOk (r := .pwmCc n) hn hreach hwrite, ?_, ?_, fun m hm => ?_, rfl⟩
    · rw [State.levelA, getD_set, if_pos ⟨rfl, hlenA⟩, toNat_lowHalf]
    · rw [State.levelB, getD_set, if_pos ⟨rfl, hlenB⟩, toNat_highHalf]
    · simp only [State.levelA, State.levelB, getD_set, hm.symm, false_and, if_false, and_self]
  case refused =>
    exact memWrite_register_refused hs.configOk (r := .pwmCc n) hn hreach (if_neg (mt (pwmAvailable_iff s n).1 hv))

/-! ### The enable mask (R266, R267) -/

theorem getLsbD_enableRead (s : State) (k : Nat) :
    (enableRead s).getLsbD k = (decide (k < 32) && s.sliceEnabled k) := by
  rw [enableRead, BitVec.getLsbD_setWidth, BitVec.getLsbD_ofBoolListLE, State.sliceEnabled]

theorem sliceEnabled_of_length_le {s : State} {k : Nat} (h : s.pwmEnabled.length ≤ k) : s.sliceEnabled k = false :=
  List.getD_eq_default _ _ h

theorem sliceEnabled_enableWrite (s : State) (v : Word) {n : Nat} (hn : n < s.config.numSlices) :
    (enableWrite s v).sliceEnabled n = v.getLsbD n := by
  simp [State.sliceEnabled, enableWrite, hn]

/-- Settles O43: bit by bit, by `getLsbD_enableRead` and `sliceEnabled_enableWrite`. -/
theorem pwmEnableMask : Obligations.PwmEnableMask := by
  intro s hs hreach
  have hslices : s.config.numSlices ≤ 32 := (Config.facts hs.configOk).numSlices
  have hwrite (v : Word) : memWrite s (pwmEnAddr s.config) .word v = .ok (enableWrite s v) :=
    memWrite_register_accepted hs.configOk (r := .pwmEn) trivial hreach rfl
  refine ⟨⟨_, memRead_register s hs.configOk (r := .pwmEn) trivial hreach, fun n hn => ?flag, fun k hk => ?above⟩,
    fun v => ⟨_, hwrite v, fun n hn => sliceEnabled_enableWrite s v hn, rfl⟩, fun t ht n hn hconf => ?allOnes⟩
  case flag =>
    rw [ioRead, getLsbD_enableRead, decide_eq_true (hn.trans_le hslices), Bool.true_and]
  case above =>
    rw [ioRead, getLsbD_enableRead, sliceEnabled_of_length_le (hs.flags.trans_le hk), Bool.and_false]
  case allOnes =>
    obtain rfl : enableWrite s 0xFFFFFFFF#32 = t := Except.ok.inj ((hwrite _).symm.trans ht)
    have hbit : (0xFFFFFFFF#32).getLsbD n = true := by
      rw [show 0xFFFFFFFF#32 = BitVec.allOnes 32 from rfl, BitVec.getLsbD_allOnes]
      exact decide_eq_true (hn.trans_le hslices)
    have havail : pwmAvailable (enableWrite s 0xFFFFFFFF#32) n = true := (pwmAvailable_iff _ n).2 hconf
    rw [sliceEnabledAndConfigured, sliceEnabled_enableWrite s _ hn, hbit, havail, Bool.and_self]

/-! ### Slices, channels and availability (R261, R262) -/

theorem channelOf_eq_A_iff (p : Nat) : channelOf p = .A ↔ p % 2 = 0 := by
  unfold channelOf
  split <;> simp [*]

theorem not_configured_of_load {c : Config} {image : List Byte} {entry : Word} {s : State} (hc : c.wf = true)
    (h : load c image entry = .ok s) (n : Nat) : ¬Configured s n := by
  obtain ⟨rfl, -⟩ := load_ok h
  rintro ⟨p, -, -, hpwm⟩
  have hf := Config.facts hc
  obtain ⟨-, hdiffer, -⟩ := hf.codesDiffer
  have hnull : c.nullCode = c.pwmCode := (pinFunc_atReset ..).symm.trans hpwm
  exact hdiffer (((eq_pwmCode_iff hf _).1 hnull).symm.trans hf.toNat_nullCode)

theorem not_configured_of_eight_le (s : State) {n : Nat} (hn : 8 ≤ n) : ¬Configured s n := by
  rintro ⟨p, -, hslice, -⟩
  omega

/-- Settles O44: availability by `pwmAvailable_iff`, and the write of a pin by `gpioRegister`. -/
theorem sliceAvailability : Obligations.SliceAvailability := by
  refine ⟨fun p => ⟨sliceOf_eq p, channelOf_eq_A_iff p⟩, pwmAvailable_iff,
    fun c image entry s n hc h => not_configured_of_load hc h n, fun s n => not_configured_of_eight_le s,
    fun s t p n v hs hp hslice ht hreach => ?_⟩
  have hf := Config.facts hs.configOk
  obtain ⟨-, -, haccepted, hrefused⟩ := gpioRegister s p hs hp hreach
  by_cases hv : v.toNat ∈ [s.config.funcPwm, s.config.funcDio, s.config.funcNull]
  case neg => cases ht.symm.trans (hrefused v hv)
  obtain ⟨u, hu, hself, hother, hframe⟩ := haccepted v hv
  obtain rfl : u = t := Except.ok.inj (hu.symm.trans ht)
  have hconfig : u.config = s.config := by rw [hframe]
  refine ⟨by rw [hframe], by rw [hframe], by rw [hframe],
    fun hpwm => ⟨p, hconfig ▸ hp, hslice, ?available⟩, fun hpwm hlast => ?unavailable⟩
  case available => rw [hconfig, eq_pwmCode_iff hf, hself, hpwm]
  case unavailable =>
    rintro ⟨q, hq, hqslice, hqpwm⟩
    rw [hconfig] at hq hqpwm
    rw [eq_pwmCode_iff hf] at hqpwm
    by_cases hqp : q = p
    · subst hqp
      exact hpwm (hself.symm.trans hqpwm)
    · rw [hother q hqp] at hqpwm
      exact hlast q hq hqp hqslice hqpwm

/-! ### The timer words (R270) -/

section
variable {s : State} (hc : s.config.wf = true)
include hc

theorem memRead_timeRawL (hreach : Reachable s.config (timeRawLAddr s.config)) :
    memRead s (timeRawLAddr s.config) .word = .ok (BitVec.ofNat 32 s.timer.toNat) :=
  memRead_register s hc (r := .timeRawL) trivial hreach

theorem memRead_timeRawH (hreach : Reachable s.config (timeRawHAddr s.config)) :
    memRead s (timeRawHAddr s.config) .word = .ok (BitVec.ofNat 32 (s.timer.toNat / 2 ^ 32)) := by
  rw [← Nat.shiftRight_eq_div_pow]
  exact memRead_register s hc (r := .timeRawH) trivial hreach

end

theorem lw_completesWriting {s : State} {rd rs1 : Reg} {imm : BitVec 12} {a v : Word}
    (ha : s.readReg rs1 + imm.signExtend 32 = a) (h : memRead s a .word = .ok v) :
    CompletesWriting (.lw rd rs1 imm) s rd v (s.pc + 4#32) := by
  subst ha
  exact completesWriting_of (loadFrom_ok h)

/-- The read of a load is made at the state before the instruction, and so before the instruction's own tick. -/
theorem timerLoadsReadBeforeTheirTick : TimerLoadsReadBeforeTheirTick :=
  fun _ hc => ⟨fun _ _ _ hea hreach => lw_completesWriting hea (memRead_timeRawL hc hreach),
    fun _ _ _ hea hreach => lw_completesWriting hea (memRead_timeRawH hc hreach)⟩

/-- A step from Running to Running completed an instruction, and so ticked. -/
theorem timer_of_running_step {s t : State} (hm : s.mode = .running) (h : step s = .next t) (ht : t.mode = .running) :
    t.timer = ticked s := by
  cases stepTo_of h with
  | stays hn => exact absurd hm hn
  | fetchFaults => cases ht
  | decodeFaults => cases ht
  | runs _ w i _ _ _ _ he =>
    rcases he.outcome hm with ⟨-, -, -, htick⟩ | ⟨e, -, -, rfl⟩ | ⟨-, -, rfl⟩
    · exact htick
    · cases ht
    · cases ht

theorem Steps.mode_of_running {k : Nat} {s t : State} (h : Steps k s t) (ht : t.mode = .running) :
    s.mode = .running := by
  cases k with
  | zero => exact h ▸ ht
  | succ k => exact h.1

theorem Steps.config {k : Nat} {s t : State} (h : Steps k s t) : t.config = s.config := by
  induction k generalizing s with
  | zero => rw [h]
  | succ k ih =>
    obtain ⟨-, u, hstep, hrest⟩ := h
    rw [ih hrest, step_config hstep]

theorem Steps.timer {k : Nat} {s t : State} (h : Steps k s t) (ht : t.mode = .running) :
    t.timer = s.timer + BitVec.ofNat 64 (k * s.config.ticksPerInstr) := by
  induction k generalizing s with
  | zero => rw [h, Nat.zero_mul, BitVec.add_zero]
  | succ k ih =>
    obtain ⟨hm, u, hstep, hrest⟩ := h
    have htick : u.timer = ticked s := timer_of_running_step hm hstep (hrest.mode_of_running ht)
    rw [ih hrest, htick, step_config hstep, ticked, BitVec.add_assoc, ← BitVec.ofNat_add, Nat.succ_mul,
      Nat.add_comm (k * _)]

theorem Steps.toNat_timer {k : Nat} {s t : State} (h : Steps k s t) (ht : t.mode = .running) :
    t.timer.toNat = (s.timer.toNat + k * s.config.ticksPerInstr) % 2 ^ 64 := by
  rw [h.timer ht, BitVec.toNat_add, BitVec.toNat_ofNat, Nat.add_mod_mod]

/-- The lower word of a counter modulo 2^64 is that of the counter itself. -/
theorem ofNat_mod_counter (n : Nat) : BitVec.ofNat 32 (n % 2 ^ 64) = BitVec.ofNat 32 n := by
  apply BitVec.eq_of_toNat_eq
  rw [BitVec.toNat_ofNat, BitVec.toNat_ofNat, Nat.mod_mod_of_dvd n (Nat.pow_dvd_pow 2 (by decide))]

/-- Settles O45: the words by the register read, and k ticks by induction on the steps. -/
theorem timerReadsCountInstructions : Obligations.TimerReadsCountInstructions := by
  refine ⟨fun s hc => ⟨memRead_timeRawL hc, memRead_timeRawH hc⟩,
    fun k s t hc hsteps ht => ?_, timerLoadsReadBeforeTheirTick⟩
  have hconfig := hsteps.config
  rw [← ofNat_mod_counter, ← hsteps.toNat_timer ht, ← hconfig]
  rw [← hconfig] at hc
  exact ⟨memRead_timeRawL hc, memRead_timeRawH hc⟩

end Sys2Proof.Machine

/-! The step and the faults (60_exceptions.md): a step runs the instruction at the pc, always answers, and ends a
completed instruction with the tick and the next pc; and the codes of the fault kinds. -/

namespace Sys2Proof.Machine

/-! ### The step runs what the bytes at the pc decode to (R300) -/

theorem fetch_ram {s : State} (h : insideRam s.config s.pc .word) :
    fetch s = .ok (wordOfBytes (s.ram.read s.pc.toNat) (s.ram.read (s.pc.toNat + 1)) (s.ram.read (s.pc.toNat + 2))
      (s.ram.read (s.pc.toNat + 3))) :=
  memRead_ram s h

theorem decodeWord_of_decode {b0 b1 b2 b3 : Byte} {rest rest' : List Byte} {i : Instr}
    (h : decode (b0 :: b1 :: b2 :: b3 :: rest) = .ok (i, rest')) : decodeWord (wordOfBytes b0 b1 b2 b3) = .ok i := by
  cases hd : decodeWord (wordOfBytes b0 b1 b2 b3) with
  | error r => simp [decode, hd] at h
  | ok j =>
    obtain ⟨hij, -⟩ : j = i ∧ rest = rest' := by simpa [decode, hd] using h
    rw [hij]

/-- Settles O6: each clause gives the fetched word and that it decodes to the instruction. -/
theorem stepRunsDecodedInstruction : Obligations.StepRunsDecodedInstruction := by
  refine ⟨fun s w i => step_decode_ok, fun s i hm hwf hf => ?encoding, fun s i hm hin hd => ?ramBytes⟩
  case encoding => exact step_decode_ok hm hf (decodeWord_encode hwf)
  case ramBytes => exact step_decode_ok hm (fetch_ram hin) (decodeWord_of_decode hd)

/-- Settles O9: a finished mode, a fault and an instruction all answer a next state, by `step_to`. -/
theorem everyStepAnswersNext : Obligations.EveryStepAnswersNext := by
  intro s
  obtain ⟨t, hstep, -⟩ := step_to s
  exact ⟨t, hstep⟩

/-! ### The end of an instruction (R301) -/

/-- A step from Running to Running is the effect of a decoded instruction: the faults leave Running. -/
theorem effect_of_running_step {s t : State} (hm : s.mode = .running) (h : step s = .next t)
    (ht : t.mode = .running) : ∃ w i, fetch s = .ok w ∧ decodeWord w = .ok i ∧ Effect i s t := by
  cases stepTo_of h with
  | stays hn => exact absurd hm hn
  | fetchFaults => cases ht
  | decodeFaults => cases ht
  | runs _ w i _ hf hd _ he => exact ⟨w, i, hf, hd, he⟩

/-- An instruction that completes and does not assign the pc goes on to the next one. -/
theorem Effect.pc {i : Instr} {s t : State} (h : Effect i s t) (ht : t.mode = .running) (hn : ¬assignsPc s i) :
    t.pc = s.pc + 4#32 := by
  cases h with
  | writes rd v next _ _ hnext => exact hnext hn
  | stores => rfl
  | faults => cases ht
  | halts => cases ht

/-- Settles O10: the tick by `timer_of_running_step`, the pc by the effect of the one instruction the step ran, and a
step that leaves Running by `eq_of_step_leaves_running`. -/
theorem tickAndPcAtEndOfInstruction : Obligations.TickAndPcAtEndOfInstruction := by
  refine ⟨fun s t w i hm h ht hf hd => ⟨timer_of_running_step hm h ht, ?pc⟩, fun s t hm h ht => ?decoded,
    fun s t hm h ht => ?left, timerLoadsReadBeforeTheirTick⟩
  case pc =>
    obtain ⟨w', j, hf', hd', he⟩ := effect_of_running_step hm h ht
    obtain rfl : w' = w := Except.ok.inj (hf'.symm.trans hf)
    obtain rfl : j = i := Except.ok.inj (hd'.symm.trans hd)
    exact he.pc ht
  case decoded =>
    obtain ⟨w, i, hf, hd, -⟩ := effect_of_running_step hm h ht
    exact ⟨w, i, hf, hd⟩
  case left =>
    obtain ⟨mode, fault, rfl⟩ := eq_of_step_leaves_running hm h ht
    exact ⟨rfl, rfl⟩

/-! ### The codes of the fault kinds (R303) -/

theorem faultCode_injective : Function.Injective faultCode := by
  rintro (⟨_ | _⟩ | _) (⟨_ | _⟩ | _) h
  all_goals cases h <;> rfl

/-- Settles O13: the codes by evaluation, and `faultCode_injective`. -/
theorem faultKindCodes : Obligations.FaultKindCodes :=
  ⟨rfl, rfl, rfl, fun _ _ h => faultCode_injective h⟩

end Sys2Proof.Machine

/-! Reset and the host's operations (70_reset_and_hazards.md): what load creates and refuses, the step in a finished
mode, run in its cap and across two calls, and the snapshot. -/

namespace Sys2Proof.Machine

/-! ### load (R340, R341) -/

theorem Memory.read_ofImage_inside {image : List Byte} {i : Nat} (a : Nat) (h : i < image.length) :
    (Memory.ofImage a image).read (a + i) = image[i] := by
  rw [Memory.read_ofImage, if_pos (Nat.le_add_right a i), Nat.add_sub_cancel_left, List.getD_eq_getElem _ _ h]

theorem Memory.read_ofImage_outside {image : List Byte} {a x : Nat} (h : x < a ∨ a + image.length ≤ x) :
    (Memory.ofImage a image).read x = 0x00#8 := by
  rw [Memory.read_ofImage]
  split
  · exact List.getD_eq_default _ _ (by omega)
  · rfl

/-- Settles O17: load answers the reset table around the image (`load_of_fits`), which is read item by item. -/
theorem loadCreatesResetState : Obligations.LoadCreatesResetState := by
  intro c image entry hc hfits hlo hhi
  refine ⟨_, load_of_fits hfits hlo hhi, rfl, readReg_atReset _ _ _, rfl, rfl, rfl,
    fun i => Memory.read_ofImage_inside c.loadAddr, fun a => Memory.read_ofImage_outside, shaped_atReset hc .., ?pins,
    fun n hn => ⟨List.getD_replicate _ hn, List.getD_replicate _ hn, List.getD_replicate _ hn⟩, rfl, rfl⟩
  case pins =>
    intro p _
    rw [pinFunc_atReset, (Config.facts hc).toNat_nullCode]

section
variable {c : Config} {image : List Byte} {entry : Word}

theorem load_isError_iff :
    (∃ e, load c image entry = .error e) ↔
      ¬(c.loadAddr + image.length ≤ c.ramBase + c.ramSize ∧ insideRam c entry .word) := by
  rw [← load_isOk_iff]
  cases load c image entry <;> simp

theorem load_imageTooLarge (h : c.loadAddr + image.length > c.ramBase + c.ramSize) :
    load c image entry = .error .imageTooLarge :=
  if_pos h

theorem load_entryInvalid (hfits : c.loadAddr + image.length ≤ c.ramBase + c.ramSize)
    (hentry : ¬insideRam c entry .word) : load c image entry = .error .entryInvalid :=
  (if_neg (Nat.not_lt.2 hfits)).trans (if_neg hentry)

/-- A session without an image fetches the zero word, which no row of the table has. -/
theorem step_atReset_empty (hentry : insideRam c entry .word) :
    step (State.atReset c entry []) = .next (afterFault (State.atReset c entry []) .decode none (some 0#32)) := by
  have hfetch : fetch (State.atReset c entry []) = .ok 0#32 := by
    have hread (a : Nat) : (State.atReset c entry []).ram.read a = 0x00#8 := rfl
    rw [fetch_ram (s := State.atReset c entry []) hentry, hread, hread, hread, hread]
    rfl
  have hdecode : decodeWord 0#32 = .error _ := rfl
  exact step_decode_error rfl hfetch hdecode

end

/-- Settles O18: an error is the failure of `load_isOk_iff`'s two tests, each named by the one that fails; the empty
image fits, since `LOAD_ADDR` is in RAM. -/
theorem loadErrorsExactly : Obligations.LoadErrorsExactly := by
  refine ⟨fun c image entry => ?exactly, fun c image entry hlarge _ => load_imageTooLarge hlarge,
    fun c image entry => load_entryInvalid, fun c entry hc hentry => ?empty⟩
  case exactly => rw [load_isError_iff, not_and_or, Nat.not_le]; rfl
  case empty =>
    obtain ⟨-, hload⟩ := (Config.facts hc).loadAddr
    obtain ⟨hlo, hhi⟩ := hentry
    exact ⟨_, load_of_fits hload.le hlo hhi, step_atReset_empty ⟨hlo, hhi⟩⟩

/-! ### The step in a finished mode (R346) -/

/-- Settles O8: neither mode is Running, and only there does a step execute. -/
theorem finishedModesTakeNoStep : Obligations.FinishedModesTakeNoStep := by
  rintro s (hm | hm)
  all_goals exact step_not_running (by simp [hm])

/-! ### The step count (R348) -/

section
variable {s t : State}

@[simp] theorem withCycles_cycles (s : State) (n : Nat) : (s.withCycles n).cycles = n := rfl

theorem step_withCycles (h : step s = .next t) (n : Nat) : step (s.withCycles n) = .next (t.withCycles n) := by
  have hfetch : fetch (s.withCycles n) = fetch s := fetch_withCycles s n
  cases stepTo_of h with
  | stays hm => exact step_not_running (s := s.withCycles n) hm
  | fetchFaults hm e hf => exact step_fetch_error (s := s.withCycles n) hm (hfetch.trans hf)
  | decodeFaults hm w r hf hd => exact step_decode_error (s := s.withCycles n) hm (hfetch.trans hf) hd
  | runs hm w i _ hf hd hx =>
    exact (step_decode_ok (s := s.withCycles n) hm (hfetch.trans hf) hd).trans (exec_withCycles i s n hx)

/-- The step from the state with its own count ends with that count. -/
theorem step_cycles (h : step s = .next t) : t.cycles = s.cycles := by
  have hown : step s = .next (t.withCycles s.cycles) := step_withCycles h s.cycles
  have heq : t = t.withCycles s.cycles := Host.Outcome.next.inj (h.symm.trans hown)
  rw [heq, withCycles_cycles]

/-- A run sets the count itself before it begins. -/
theorem run_withCycles (s : State) (k n : Nat) : run k (s.withCycles n) = run k s := rfl

end

/-- Settles O48: by `step_cycles`, `step_withCycles` and `run_withCycles`. -/
theorem cycleCountIsLocalToRun : Obligations.CycleCountIsLocalToRun :=
  ⟨fun _ _ n h => ⟨step_cycles h, step_withCycles h n⟩, run_withCycles⟩

/-! ### run (R347 to R350) -/

/-- The three ways a run of cap `n` ends after `k` steps, in `t` (R349). -/
def EndsRun (n k : Nat) (t : State) (result : RunResult) : Prop :=
  result = .halted ∧ t.mode = .halted ∨ result = .faulted t.fault ∧ t.mode = .faulted ∨
    result = .cycleLimitExceeded ∧ t.mode = .running ∧ k = n

section
variable {s t : State}

theorem runLoop_faulted (h : s.mode = .faulted) (n : Nat) : runLoop n s = .next (.faulted s.fault, s) := by
  cases n <;> simp only [runLoop, h]

theorem runLoop_zero_running (h : s.mode = .running) : runLoop 0 s = .next (.cycleLimitExceeded, s) := by
  simp only [runLoop, h]

/-- In a finished mode the loop ends at once, whatever its cap: the mode is tested before it. -/
theorem runLoop_finished (hm : s.mode ≠ .running) (n : Nat) : ∃ result,
    (∀ m, runLoop n (s.withCycles m) = .next (result, s.withCycles m)) ∧ EndsRun n 0 s result := by
  cases hmode : s.mode with
  | running => exact absurd hmode hm
  | halted => exact ⟨_, fun m => runLoop_halted (s := s.withCycles m) hmode n, .inl ⟨rfl, hmode⟩⟩
  | faulted => exact ⟨_, fun m => runLoop_faulted (s := s.withCycles m) hmode n, .inr (.inl ⟨rfl, hmode⟩)⟩

/-- The whole of what the loop can answer. Whatever count it begins with, it takes the same steps and ends the same way:
the count is only carried along. -/
theorem runLoop_outcome (n : Nat) (s : State) : ∃ k t result, k ≤ n ∧ Steps k s t ∧
    (∀ m, runLoop n (s.withCycles m) = .next (result, t.withCycles (m + k))) ∧ EndsRun n k t result := by
  induction n generalizing s with
  | zero =>
    by_cases hm : s.mode = .running
    · exact ⟨0, s, _, Nat.le_refl 0, rfl, fun m => runLoop_zero_running (s := s.withCycles m) hm,
        .inr (.inr ⟨rfl, hm, rfl⟩)⟩
    · obtain ⟨result, hloop, hend⟩ := runLoop_finished hm 0
      exact ⟨0, s, result, Nat.le_refl 0, rfl, hloop, hend⟩
  | succ n ih =>
    by_cases hm : s.mode = .running
    · obtain ⟨u, hstep, -⟩ := step_to s
      obtain ⟨k, t, result, hk, hsteps, hloop, hend⟩ := ih u
      refine ⟨k + 1, t, result, Nat.succ_le_succ hk, ⟨hm, u, hstep, hsteps⟩, fun m => ?_, ?_⟩
      · have hturn : runLoop (n + 1) (s.withCycles m) = runLoop n (u.withCycles (m + 1)) :=
          runLoop_succ (s := s.withCycles m) hm (step_withCycles hstep m) n
        rw [hturn, hloop, Nat.add_right_comm, Nat.add_assoc]
      · simpa only [EndsRun, Nat.add_right_cancel_iff] using hend
    · obtain ⟨result, hloop, hend⟩ := runLoop_finished hm (n + 1)
      exact ⟨0, s, result, Nat.zero_le _, rfl, hloop, hend⟩

/-- A run is what its loop answers, with the count discarded. -/
theorem run_of_runLoop {n k : Nat} {result : RunResult}
    (h : runLoop n (s.withCycles 0) = .next (result, t.withCycles k)) :
    run n s = .next (result, t.withCycles 0) := by
  have hloop : runLoop n { s with cycles := 0 } = .next (result, t.withCycles k) := h
  rw [run, hloop]
  rfl

/-- A run that may still take a step takes it, and goes on as a run of what is left of its cap. -/
theorem run_succ (hm : s.mode = .running) (h : step s = .next t) (n : Nat) : run (n + 1) s = run n t := by
  obtain ⟨k, u, result, -, -, hloop, -⟩ := runLoop_outcome n t
  have hturn : runLoop (n + 1) (s.withCycles 0) = runLoop n (t.withCycles 1) :=
    runLoop_succ (s := s.withCycles 0) hm (step_withCycles h 0) n
  rw [run_of_runLoop (hturn.trans (hloop 1)), run_of_runLoop (hloop 0)]

theorem Steps.run_add {k : Nat} (h : Steps k s t) (n : Nat) : run (k + n) s = run n t := by
  induction k generalizing s with
  | zero => rw [h, Nat.zero_add]
  | succ k ih =>
    obtain ⟨hm, u, hstep, hrest⟩ := h
    rw [Nat.succ_add, run_succ hm hstep, ih hrest]

end

/-- Settles O49: what the loop can answer (`runLoop_outcome`), with the count discarded. -/
theorem runOutcome : Obligations.RunOutcome := by
  intro n s
  obtain ⟨k, t, result, hk, hsteps, hloop, hend⟩ := runLoop_outcome n s
  exact ⟨k, t, result, hk, hsteps, run_of_runLoop (hloop 0), hend⟩

/-- Settles O50: Cycle-limit exceeded is returned after all `a` steps (`runOutcome`), and the longer run takes the same
ones first (`Steps.run_add`). -/
theorem runResumes : Obligations.RunResumes := by
  intro a b s t hrun
  obtain ⟨k, u, result, -, hsteps, hans, hend⟩ := runOutcome a s
  obtain ⟨rfl, rfl⟩ : result = .cycleLimitExceeded ∧ u.withCycles 0 = t :=
    Prod.mk.inj (Host.Outcome.next.inj (hans.symm.trans hrun))
  obtain ⟨h, -⟩ | ⟨h, -⟩ | ⟨-, hm, rfl⟩ := hend
  · cases h
  · cases h
  · exact ⟨hm, (run_withCycles u b 0).trans (hsteps.run_add b).symm⟩

/-! ### inspect (R352) -/

/-- The parameter of R7 that holds the code of a function mode. -/
def PinMode.param (c : Config) : PinMode → Nat
  | .pwm => c.funcPwm
  | .digitalIO => c.funcDio
  | .unassigned => c.funcNull

theorem PinMode.param_injective {c : Config} (f : c.Facts) : Function.Injective (PinMode.param c) := by
  obtain ⟨hpd, hpn, hdn⟩ := f.codesDiffer
  intro m m' h
  cases m <;> cases m' <;> simp_all [PinMode.param]

/-- The codes differ, so a mode is shown at its own code and at no other. -/
theorem pinModeOf_eq_some_iff {c : Config} (f : c.Facts) (code : BitVec 5) (m : PinMode) :
    pinModeOf c code = some m ↔ code.toNat = m.param c := by
  have hshown (m' : PinMode) (h : code.toNat = m'.param c) : some m' = some m ↔ code.toNat = m.param c := by
    rw [Option.some_inj, h, (PinMode.param_injective f).eq_iff]
  simp only [pinModeOf, ← BitVec.toNat_inj, f.toNat_pwmCode, f.toNat_dioCode, f.toNat_nullCode]
  split_ifs with hpwm hdio hnull
  · exact hshown .pwm hpwm
  · exact hshown .digitalIO hdio
  · exact hshown .unassigned hnull
  · refine iff_of_false nofun ?_
    cases m
    exacts [hpwm, hdio, hnull]

theorem inspect_x (s : State) (r : Reg) : (inspect s).x[r] = s.readReg r := by
  by_cases h : r.val = 0
  · obtain rfl : r = 0 := Fin.ext h
    exact Vector.getElem_append_left (by decide)
  · have hcopy : (inspect s).x[r] = s.regs[r.val - 1] := Vector.getElem_append_right r.isLt (by omega)
    rw [hcopy, State.readReg, dif_neg h]

theorem getElem?_eq_some_getD {α : Type} {l : List α} {n : Nat} (h : n < l.length) (d : α) :
    l[n]? = some (l.getD n d) := by
  rw [List.getElem?_eq_getElem h, List.getD_eq_getElem _ _ h]

theorem inspect_gpio (s : State) {p : Nat} (hp : p < s.gpioFunc.length) :
    (inspect s).gpio[p]? = some (pinModeOf s.config (s.pinFunc p)) :=
  List.getElem?_map.trans (congrArg _ (getElem?_eq_some_getD hp s.config.nullCode))

theorem inspect_gpio_eq_iff {s : State} (hs : s.Shaped) {p : Nat} (hp : p < s.config.numPins) (m : PinMode) :
    (inspect s).gpio[p]? = some (some m) ↔ (s.pinFunc p).toNat = m.param s.config := by
  rw [inspect_gpio s (hs.pins ▸ hp), Option.some_inj, pinModeOf_eq_some_iff (Config.facts hs.configOk)]

/-- Settles O51: registers and pins by `inspect_x` and `inspect_gpio_eq_iff`; the rest is copied, and the tables have an
entry for every slice. -/
theorem inspectShowsState : Obligations.InspectShowsState := by
  intro s hs
  refine ⟨inspect_x s, rfl, rfl, rfl, (List.length_map _).trans hs.pins, fun p hp => ?pins, fun n hn => ?slices, rfl,
    fun _ => rfl⟩
  case pins =>
    have hshown := inspect_gpio_eq_iff hs hp
    exact ⟨hshown .pwm, hshown .digitalIO, hshown .unassigned⟩
  case slices =>
    exact ⟨getElem?_eq_some_getD (hs.levelsA ▸ hn) _, getElem?_eq_some_getD (hs.levelsB ▸ hn) _,
      getElem?_eq_some_getD (hs.flags ▸ hn) _⟩

end Sys2Proof.Machine
